-- ==== Sys2Proof/Word.lean ====
section
/-! DEFINITION. Word types of the block: one stack byte, the 32-bit header word, the 64-bit payload and response word,
and the signed reading of a 64-bit word (00_scope.md R10). -/

namespace Sys2Proof

/-- One byte of the stack STK, one symbol, or one field A of a header. -/
abbrev Byte := BitVec 8

/-- The header word `H` of a command (30_encoding.md R80, R81). -/
abbrev Header := BitVec 32

/-- The payload word `D` of a command, and the response word `R` (30_encoding.md R80, R83). -/
abbrev Word := BitVec 64

/-- `zext_64(v)`: a number below `2^64` as a 64-bit word (00_scope.md R10). -/
abbrev zext64 (v : Nat) : Word := BitVec.ofNat 64 v

/-- `sext_64(v)`: the 64-bit two's complement pattern of a signed number (00_scope.md R10). -/
abbrev sext64 (v : Int) : Word := BitVec.ofInt 64 v

end Sys2Proof
end

