-- ==== Sys2Proof/Syntax.lean ====
section
/-! DEFINITION. Syntax: the 21 commands of spec/opcode_table.json (30_encoding.md R85), the register names
(10_state.md R20), the command packet (R80) and the reasons a header is no command (R86).

An operand has the width of the field that carries it: A is 8 bits, B is 16 bits, D is 64 bits (R81, R82). A command
that ignores the payload carries none (R82; log 7). -/

namespace Sys2Proof

/-- The twelve registers, in the order of their numbers 0 to 11 (10_state.md R20). -/
inductive Reg where
  | id | status | errcode | encState | decState | sp | decSym | bonus | decRemain | divf | divsh | divmul
deriving DecidableEq, Repr

/-- One constructor per row of the opcode table (30_encoding.md R85). -/
inductive Instr where
  /-- does nothing (45_host_access.md R210) -/
  | nop
  /-- soft reset (45_host_access.md R211) -/
  | srst
  /-- read register number `r` (45_host_access.md R212) -/
  | rdreg (r : Byte)
  /-- write register number `r` (45_host_access.md R213) -/
  | wrreg (r : Byte) (d : Word)
  /-- write the weight of symbol `s` (41_frequency_model.md R113) -/
  | wrwgt (s : Byte) (d : Word)
  /-- read the weight of symbol `s` (41_frequency_model.md R114) -/
  | rdwgt (s : Byte)
  /-- write table entry `i` (41_frequency_model.md R115) -/
  | wrcum (i : BitVec 16) (d : Word)
  /-- read table entry `i` (41_frequency_model.md R116) -/
  | rdcum (i : BitVec 16)
  /-- build the table from the weights (41_frequency_model.md R110) -/
  | build
  /-- check the table (41_frequency_model.md R112) -/
  | chktab
  /-- push byte `b` (45_host_access.md R214) -/
  | pushb (b : Byte)
  /-- pop a byte (45_host_access.md R215) -/
  | popb
  /-- read stack entry `i` (45_host_access.md R216) -/
  | rdstk (i : BitVec 16)
  /-- write byte `b` to stack entry `i` (45_host_access.md R217) -/
  | wrstk (b : Byte) (i : BitVec 16)
  /-- seed the encoder with a bonus (43_encoder.md R151) -/
  | encinit (d : Word)
  /-- encode symbol `s` (43_encoder.md R155) -/
  | enc (s : Byte)
  /-- push the final encoder state (43_encoder.md R160) -/
  | encflush
  /-- load the decoder state (44_decoder.md R181) -/
  | decinit (d : Word)
  /-- decode one symbol or end the stream (44_decoder.md R186) -/
  | dec
  /-- compute and latch the divisor parameters (42_fast_divider.md R135) -/
  | divp (d : Word)
  /-- divide by the latched divisor (42_fast_divider.md R136) -/
  | divq (d : Word)
deriving DecidableEq, Repr

/-- A command as the host issues it: header and payload (30_encoding.md R80). -/
structure Command where
  header : Header
  payload : Word
deriving DecidableEq, Repr

/-- Why a header is not a command (30_encoding.md R86). Both are status ILLEGAL_COMMAND. -/
inductive DecodeError where
  /-- the OPC field is in no row of the opcode map -/
  | unassignedOpcode (opc : Byte)
  /-- a field this opcode does not use is not zero -/
  | reservedField (opc : Byte)
deriving DecidableEq, Repr

end Sys2Proof
end

