-- ==== Sys2Proof/WellFormed.lean ====
section
/-! DEFINITION. Well-formed headers: the opcode map as the spec lists it, one row per command with match and mask over
the header (30_encoding.md R85). A header is a command exactly when some row matches it (R86, R88). The three ways to be
ill-formed are an unassigned OPC, a non-zero reserved field A and a non-zero reserved field B (R84).

A term of `Instr` needs no check of its own: its operands have the widths of the fields that carry them. -/

namespace Sys2Proof

/-- A row of the opcode map: a header selects it when `H & mask = match` (30_encoding.md R85). -/
structure TableRow where
  mnemonic : String
  matchBits : Header
  mask : Header
deriving DecidableEq, Repr

/-- `H & mask == match`. -/
def TableRow.selects (row : TableRow) (h : Header) : Bool := h &&& row.mask == row.matchBits

/-- The 21 rows of 30_encoding.md R85, in its order. -/
def opcodeTable : List TableRow :=
  [ ⟨"NOP", 0x00000000#32, 0xFFFFFFFF#32⟩,
    ⟨"SRST", 0x01000000#32, 0xFFFFFFFF#32⟩,
    ⟨"RDREG", 0x02000000#32, 0xFF00FFFF#32⟩,
    ⟨"WRREG", 0x03000000#32, 0xFF00FFFF#32⟩,
    ⟨"WRWGT", 0x10000000#32, 0xFF00FFFF#32⟩,
    ⟨"RDWGT", 0x11000000#32, 0xFF00FFFF#32⟩,
    ⟨"WRCUM", 0x12000000#32, 0xFFFF0000#32⟩,
    ⟨"RDCUM", 0x13000000#32, 0xFFFF0000#32⟩,
    ⟨"BUILD", 0x14000000#32, 0xFFFFFFFF#32⟩,
    ⟨"CHKTAB", 0x15000000#32, 0xFFFFFFFF#32⟩,
    ⟨"PUSHB", 0x20000000#32, 0xFF00FFFF#32⟩,
    ⟨"POPB", 0x21000000#32, 0xFFFFFFFF#32⟩,
    ⟨"RDSTK", 0x22000000#32, 0xFFFF0000#32⟩,
    ⟨"WRSTK", 0x23000000#32, 0xFF000000#32⟩,
    ⟨"ENCINIT", 0x30000000#32, 0xFFFFFFFF#32⟩,
    ⟨"ENC", 0x31000000#32, 0xFF00FFFF#32⟩,
    ⟨"ENCFLUSH", 0x32000000#32, 0xFFFFFFFF#32⟩,
    ⟨"DECINIT", 0x38000000#32, 0xFFFFFFFF#32⟩,
    ⟨"DEC", 0x39000000#32, 0xFFFFFFFF#32⟩,
    ⟨"DIVP", 0x40000000#32, 0xFFFFFFFF#32⟩,
    ⟨"DIVQ", 0x41000000#32, 0xFFFFFFFF#32⟩ ]

/-- A header is well-formed when some row of the opcode map selects it (30_encoding.md R88). -/
def Header.wellFormed (h : Header) : Bool := opcodeTable.any fun row => row.selects h

/-- A command is well-formed when its header is: the payload is never reserved (30_encoding.md R84). -/
def Command.wellFormed (c : Command) : Bool := Header.wellFormed c.header

end Sys2Proof
end

