-- ==== Sys2Proof/Decode.lean ====
section
/-! DEFINITION. Decoding and encoding of commands (30_encoding.md R81, R84-R88): total on every header and payload, an
illegal header rejected by name; then the encoder, from the same tables. -/

namespace Sys2Proof

/-- The opcodes of 30_encoding.md R85. -/
inductive Opcode where
  | nop | srst | rdreg | wrreg | wrwgt | rdwgt | wrcum | rdcum | build | chktab | pushb | popb | rdstk | wrstk
  | encinit | enc | encflush | decinit | dec | divp | divq
deriving DecidableEq, Repr

/-- Every opcode, in the order of the opcode map. -/
def allOpcodes : List Opcode :=
  [.nop, .srst, .rdreg, .wrreg, .wrwgt, .rdwgt, .wrcum, .rdcum, .build, .chktab, .pushb, .popb, .rdstk, .wrstk,
   .encinit, .enc, .encflush, .decinit, .dec, .divp, .divq]

/-- The OPC value of an opcode (30_encoding.md R85). -/
def opcodeByte : Opcode → Byte
  | .nop => 0x00#8 | .srst => 0x01#8 | .rdreg => 0x02#8 | .wrreg => 0x03#8
  | .wrwgt => 0x10#8 | .rdwgt => 0x11#8 | .wrcum => 0x12#8 | .rdcum => 0x13#8
  | .build => 0x14#8 | .chktab => 0x15#8
  | .pushb => 0x20#8 | .popb => 0x21#8 | .rdstk => 0x22#8 | .wrstk => 0x23#8
  | .encinit => 0x30#8 | .enc => 0x31#8 | .encflush => 0x32#8
  | .decinit => 0x38#8 | .dec => 0x39#8
  | .divp => 0x40#8 | .divq => 0x41#8

/-- The mnemonic of an opcode, as the opcode map spells it (30_encoding.md R85). -/
def mnemonicOf : Opcode → String
  | .nop => "NOP" | .srst => "SRST" | .rdreg => "RDREG" | .wrreg => "WRREG"
  | .wrwgt => "WRWGT" | .rdwgt => "RDWGT" | .wrcum => "WRCUM" | .rdcum => "RDCUM"
  | .build => "BUILD" | .chktab => "CHKTAB"
  | .pushb => "PUSHB" | .popb => "POPB" | .rdstk => "RDSTK" | .wrstk => "WRSTK"
  | .encinit => "ENCINIT" | .enc => "ENC" | .encflush => "ENCFLUSH"
  | .decinit => "DECINIT" | .dec => "DEC"
  | .divp => "DIVP" | .divq => "DIVQ"

/-- The opcodes that use field A (30_encoding.md R84). -/
def usesA : Opcode → Bool
  | .rdreg | .wrreg | .wrwgt | .rdwgt | .pushb | .enc | .wrstk => true
  | .nop | .srst | .wrcum | .rdcum | .build | .chktab | .popb | .rdstk | .encinit | .encflush | .decinit | .dec
  | .divp | .divq => false

/-- The opcodes that use field B (30_encoding.md R84). -/
def usesB : Opcode → Bool
  | .wrcum | .rdcum | .rdstk | .wrstk => true
  | .nop | .srst | .rdreg | .wrreg | .wrwgt | .rdwgt | .build | .chktab | .pushb | .popb | .encinit | .enc
  | .encflush | .decinit | .dec | .divp | .divq => false

/-- The command an opcode makes of its fields; a command that takes no value ignores `d` (30_encoding.md R82, R87). -/
def instrOf (op : Opcode) (a : Byte) (b : BitVec 16) (d : Word) : Instr :=
  match op with
  | .nop => .nop
  | .srst => .srst
  | .rdreg => .rdreg a
  | .wrreg => .wrreg a d
  | .wrwgt => .wrwgt a d
  | .rdwgt => .rdwgt a
  | .wrcum => .wrcum b d
  | .rdcum => .rdcum b
  | .build => .build
  | .chktab => .chktab
  | .pushb => .pushb a
  | .popb => .popb
  | .rdstk => .rdstk b
  | .wrstk => .wrstk a b
  | .encinit => .encinit d
  | .enc => .enc a
  | .encflush => .encflush
  | .decinit => .decinit d
  | .dec => .dec
  | .divp => .divp d
  | .divq => .divq d

/-- Field OPC, bits 31:24 of the header (30_encoding.md R81). -/
def fieldOpc (h : Header) : Byte := h.extractLsb' 24 8

/-- Field A, bits 23:16 of the header (30_encoding.md R81). -/
def fieldA (h : Header) : Byte := h.extractLsb' 16 8

/-- Field B, bits 15:0 of the header (30_encoding.md R81). -/
def fieldB (h : Header) : BitVec 16 := h.extractLsb' 0 16

/-- The opcode an OPC value stands for, `none` where it is unassigned (30_encoding.md R86). -/
def opcodeOf (opc : Byte) : Option Opcode := allOpcodes.find? fun op => opcodeByte op == opc

/-- Decode a command: its one row of the opcode map, or the reason there is none (30_encoding.md R84, R86, R88). -/
def decode (h : Header) (d : Word) : Except DecodeError Instr :=
  match opcodeOf (fieldOpc h) with
  | none => .error (.unassignedOpcode (fieldOpc h))
  | some op =>
    if (usesA op || fieldA h == 0#8) && (usesB op || fieldB h == 0#16) then
      .ok (instrOf op (fieldA h) (fieldB h) d)
    else .error (.reservedField (fieldOpc h))

/-! ### The encoder -/

/-- The opcode of a command (30_encoding.md R85). -/
def Instr.opcode : Instr → Opcode
  | .nop => .nop
  | .srst => .srst
  | .rdreg _ => .rdreg
  | .wrreg _ _ => .wrreg
  | .wrwgt _ _ => .wrwgt
  | .rdwgt _ => .rdwgt
  | .wrcum _ _ => .wrcum
  | .rdcum _ => .rdcum
  | .build => .build
  | .chktab => .chktab
  | .pushb _ => .pushb
  | .popb => .popb
  | .rdstk _ => .rdstk
  | .wrstk _ _ => .wrstk
  | .encinit _ => .encinit
  | .enc _ => .enc
  | .encflush => .encflush
  | .decinit _ => .decinit
  | .dec => .dec
  | .divp _ => .divp
  | .divq _ => .divq

/-- What a command puts in field A: its operand, or the zero of a reserved field (30_encoding.md R84, R87). -/
def Instr.operandA : Instr → Byte
  | .rdreg r | .wrreg r _ => r
  | .wrwgt s _ | .rdwgt s | .enc s => s
  | .pushb b | .wrstk b _ => b
  | .nop | .srst | .wrcum _ _ | .rdcum _ | .build | .chktab | .popb | .rdstk _ | .encinit _ | .encflush
  | .decinit _ | .dec | .divp _ | .divq _ => 0#8

/-- What a command puts in field B: its operand, or the zero of a reserved field (30_encoding.md R84, R87). -/
def Instr.operandB : Instr → BitVec 16
  | .wrcum i _ | .rdcum i | .rdstk i | .wrstk _ i => i
  | .nop | .srst | .rdreg _ | .wrreg _ _ | .wrwgt _ _ | .rdwgt _ | .build | .chktab | .pushb _ | .popb
  | .encinit _ | .enc _ | .encflush | .decinit _ | .dec | .divp _ | .divq _ => 0#16

/-- What a command puts in its payload: its value, or zero where the payload is ignored (30_encoding.md R82). -/
def Instr.operandD : Instr → Word
  | .wrreg _ d | .wrwgt _ d | .wrcum _ d | .encinit d | .decinit d | .divp d | .divq d => d
  | .nop | .srst | .rdreg _ | .rdwgt _ | .rdcum _ | .build | .chktab | .pushb _ | .popb | .rdstk _ | .wrstk _ _
  | .enc _ | .encflush | .dec => 0#64

/-- The header with the given fields (30_encoding.md R81). -/
def headerOf (opc a : Byte) (b : BitVec 16) : Header := opc ++ a ++ b

/-- The words of a command (30_encoding.md R80, R81). -/
def encode (i : Instr) : Command :=
  { header := headerOf (opcodeByte i.opcode) i.operandA i.operandB, payload := i.operandD }

/-! ### The table's numbering -/

/-- The header of a command given as one number: the first word is the header, bits 31:0 (log 6). -/
def tableHeader (nbits w : Nat) : Header := BitVec.ofNat 32 (w % 2 ^ nbits)

/-- The payload of a command given as one number: the second word, bits 95:32 (log 6). -/
def tablePayload (nbits w : Nat) : Word := BitVec.ofNat 64 (w % 2 ^ nbits / 2 ^ 32)

/-- The command the decoder reads from the bits of a row of spec/opcode_table.json; every bit above `nbits` is 0. -/
def decodeTableWord (nbits w : Nat) : Option Instr :=
  match decode (tableHeader nbits w) (tablePayload nbits w) with
  | .ok i => some i
  | .error _ => none

end Sys2Proof
end

