-- ==== Sys2Proof/Config.lean ====
section
/-! DEFINITION. Configuration: the three parameters the block is built with (00_scope.md R6), and the free values, which
are the contents of memory entries that no command has written since reset (20_memory.md R68). -/

namespace Sys2Proof

/-- The parameters of the block with the bounds the spec puts on them (00_scope.md R6, R8). Nothing is known of a
triple but these bounds, so a claim about every `Params` is a claim about every legal build. -/
structure Params where
  /-- `M_BITS`: `M = 2^M_BITS` is the frequency-table total. -/
  mBits : Nat
  /-- `L_BITS`: `L = 2^L_BITS` is the renormalization floor. -/
  lBits : Nat
  /-- `SD_BITS`: `STACK_DEPTH = 2^SD_BITS` is the byte-stack capacity. -/
  sdBits : Nat
  /-- `1 <= M_BITS <= L_BITS <= 55` and `0 <= SD_BITS <= 16`. -/
  legal : 1 ≤ mBits ∧ mBits ≤ lBits ∧ lBits ≤ 55 ∧ sdBits ≤ 16 := by decide
deriving DecidableEq, Repr

/-- The values the spec takes: M_BITS = 16, L_BITS = 24, SD_BITS = 16 (00_scope.md R6). -/
def Params.default : Params := { mBits := 16, lBits := 24, sdBits := 16 }

/-- The draw of an unwritten WGT entry: free value, by reset number and index (20_memory.md R68; log 2). -/
opaque Config.wgtDraw : Nat → Nat → BitVec 32

/-- The draw of an unwritten CUM entry, cut to the entry's width where it is read: free value, by reset number and
index (20_memory.md R68; log 2). -/
opaque Config.cumDraw : Nat → Nat → BitVec 64

/-- The draw of an unwritten STK entry: free value, by reset number and index (20_memory.md R68; log 2). -/
opaque Config.stkDraw : Nat → Nat → Byte

end Sys2Proof
end

