-- ==== Sys2Proof/Machine/Constants.lean ====
section
/-! DEFINITION. The constants derived from the parameters (00_scope.md R7), and the number functions the rules are written
with (00_scope.md R12). -/

namespace Sys2Proof

/-- `M = 2^M_BITS`, the frequency-table total (00_scope.md R7). -/
def Params.M (p : Params) : Nat := 2 ^ p.mBits

/-- `L = 2^L_BITS`, the renormalization floor (00_scope.md R7). -/
def Params.L (p : Params) : Nat := 2 ^ p.lBits

/-- `K_LM = L / M = 2^(L_BITS - M_BITS)` (00_scope.md R7). -/
def Params.kLM (p : Params) : Nat := 2 ^ (p.lBits - p.mBits)

/-- `N = L_BITS + 8`, the bit-width of the state range (00_scope.md R7). -/
def Params.N (p : Params) : Nat := p.lBits + 8

/-- `BL = B * L = 2^N`, the end of the state range (00_scope.md R7). -/
def Params.BL (p : Params) : Nat := 2 ^ p.N

/-- `HALF = 2^(L_BITS - 1)`, the bonus seed base (00_scope.md R7). -/
def Params.half (p : Params) : Nat := 2 ^ (p.lBits - 1)

/-- `STACK_DEPTH = 2^SD_BITS` (00_scope.md R7). -/
def Params.stackDepth (p : Params) : Nat := 2 ^ p.sdBits

namespace Machine

/-- `bitlen(v)`: the number of bits of `v` without leading zeros (00_scope.md R12). -/
def bitLen (v : Nat) : Nat := if v = 0 then 0 else Nat.log2 v + 1

/-- `clog2(f) = ceil(log2 f)`, which equals `bitlen(f - 1)`, for `f >= 1` (00_scope.md R12). -/
def clog2 (f : Nat) : Nat := bitLen (f - 1)

/-- `bytelen(v) = ceil(bitlen(v) / 8)` (00_scope.md R12). -/
def byteLen (v : Nat) : Nat := (bitLen v + 7) / 8

/-- `shift(f) = N + clog2(f)` (42_fast_divider.md R130). -/
def divShift (p : Params) (f : Nat) : Nat := p.N + clog2 f

/-- `mult(f) = ceil(2^shift(f) / f)` (42_fast_divider.md R131). -/
def divMult (p : Params) (f : Nat) : Nat := (2 ^ divShift p f + f - 1) / f

/-- `fastdiv(x, f) = (x * mult(f)) >> shift(f)` (42_fast_divider.md R134). -/
def fastdiv (p : Params) (x f : Nat) : Nat := (x * divMult p f) / 2 ^ divShift p f

end Machine

end Sys2Proof
end

