-- ==== Sys2Proof/Machine/State.lean ====
section
/-! DEFINITION. The state of the block: the registers of 10_state.md R20, the memories of R34, the parameters it was built
with, and the host port (70_reset_and_hazards.md R285); the reasons a step can stop; and the state after reset (R270). -/

namespace Sys2Proof.Machine

/-- The error statuses, codes 2 to 11 (60_exceptions.md R241). -/
inductive ErrorCode where
  /-- an unassigned OPC or a non-zero reserved field (R242) -/
  | illegalCommand
  /-- an operand outside its command's domain (R243) -/
  | badOperand
  /-- BUILD cannot reach the total M (R244) -/
  | degenerateDistribution
  /-- ENC of a symbol of frequency 0 (R245) -/
  | invalidSymbol
  /-- DEC at end-of-stream with symbols still expected (R246) -/
  | streamUnderflow
  /-- the fast and the true division disagree (R250) -/
  | divMismatch
  /-- no valid table (R247) -/
  | tableInvalid
  /-- the pushes would not fit (R248) -/
  | stackOverflow
  /-- POPB of an empty stack (R249) -/
  | stackUnderflow
  /-- ENC with a state below HALF (R251) -/
  | stateRange
deriving DecidableEq, Repr

/-- The status `S` of a response: OK, END or an error (60_exceptions.md R241). Codes 12 to 15 do not exist. -/
inductive Status where
  | ok
  | endOfStream
  | error (e : ErrorCode)
deriving DecidableEq, Repr

/-- The one response of a command: status and response word (30_encoding.md R83). -/
structure Response where
  status : Status
  r : Word
deriving DecidableEq, Repr

/-- The two operations the host has on the block (70_reset_and_hazards.md R285). -/
inductive HostOp where
  /-- assert reset (R270) -/
  | reset
  /-- issue a command `(H, D)` -/
  | command (c : Command)
deriving DecidableEq, Repr

/-- A memory: the entries some command has written, by rising index. An index that is not listed holds no value here;
the reads of Machine/Ops.lean give it its draw (20_memory.md R68; log 2, log 3). `Memory Byte` is a list of `Host.Cell`. -/
abbrev Memory (α : Type) := List (Nat × α)

/-- The state. Registers whose width is a parameter are numbers, since the rules' arithmetic is on numbers (00_scope.md R9);
that they fit their widths is the invariant of Safety.lean (log 10). -/
structure State where
  /-- M_BITS, L_BITS, SD_BITS: configuration, which no command changes (10_state.md R38; log 1). -/
  params : Params
  /-- Which draw of the unspecified memory contents this is: the model's own counter of reset events (log 2). -/
  resets : Nat
  /-- STATUS bit 0 (10_state.md R22). -/
  err : Bool
  /-- STATUS bit 1 (10_state.md R22). -/
  eos : Bool
  /-- STATUS bit 2 (10_state.md R22). -/
  tv : Bool
  /-- STATUS bit 3 (10_state.md R22). -/
  low : Bool
  /-- ERRCODE (10_state.md R23). -/
  errcode : BitVec 4
  /-- ENC_STATE, N bits (10_state.md R24). -/
  encState : Nat
  /-- DEC_STATE, N bits (10_state.md R25). -/
  decState : Nat
  /-- SP, SD_BITS + 1 bits: the number of bytes on the stack (10_state.md R26). -/
  sp : Nat
  /-- DEC_SYM (10_state.md R27). -/
  decSym : Byte
  /-- BONUS, a signed 64-bit pattern (10_state.md R28). -/
  bonus : Word
  /-- DEC_REMAIN, 32 bits (10_state.md R29). -/
  decRemain : Nat
  /-- DIVF, M_BITS + 1 bits (10_state.md R30). -/
  divf : Nat
  /-- DIVSH, 8 bits (10_state.md R31). -/
  divsh : Nat
  /-- DIVMUL, N + 1 bits (10_state.md R32). -/
  divmul : Nat
  /-- WGT, 256 entries of 32 bits (20_memory.md R51). -/
  wgt : Memory (BitVec 32)
  /-- CUM, 257 entries of M_BITS + 1 bits (20_memory.md R52). -/
  cum : Memory Nat
  /-- STK, STACK_DEPTH entries of one byte (20_memory.md R53). -/
  stk : Memory Byte
  /-- What the host has still to do, oldest first (70_reset_and_hazards.md R285; log 4). -/
  input : List HostOp
  /-- The responses given since reset, oldest first (30_encoding.md R83; 70_reset_and_hazards.md R284; log 5). -/
  responses : List Response
deriving DecidableEq, Repr

/-- A stop of the machine. No reachable state has one (log 8). -/
inductive Fault where
  /-- Raised by DEC when TV = 1 and no symbol's interval holds `DEC_STATE mod M`, which means that CUM breaks
  41_frequency_model.md R100 although TV says it is valid. Safe: the rules give DEC no result there, and the invariant
  rules it out (log 8). -/
  | noSymbolForSlot
deriving DecidableEq, Repr

/-- A refusal of an instruction. No arm of exec is one: every command has its meaning. -/
inductive Refusal where
  /-- Raised by an arm of exec that has no meaning yet, with the row's mnemonic. Safe. -/
  | notModelled (mnemonic : String)
deriving DecidableEq, Repr

/-- The reset event for a block built with parameters `p` (70_reset_and_hazards.md R270): every register at its reset
value, nothing written in any memory, no command in progress. -/
def State.resetWith (p : Params) : State where
  params := p
  resets := 0
  err := false
  eos := false
  tv := false
  low := false
  errcode := 0#4
  encState := 0
  decState := 0
  sp := 0
  decSym := 0#8
  bonus := 0#64
  decRemain := 0
  divf := 1
  divsh := p.N
  divmul := 2 ^ p.N
  wgt := []
  cum := []
  stk := []
  input := []
  responses := []

/-- The machine right after reset, with the parameter values the spec takes (00_scope.md R6; 70_reset_and_hazards.md R270). -/
def State.reset : State := State.resetWith Params.default

end Sys2Proof.Machine
end

