-- ==== Sys2Proof/Machine/Flags.lean ====
section
/-! DEFINITION. STATUS and ERRCODE: the status codes (60_exceptions.md R241), the STATUS word as RDREG reads it, and the one
operation for each way a flag changes (10_state.md R22). -/

namespace Sys2Proof.Machine

/-- The code of an error status (60_exceptions.md R241). -/
def errorCodeBits : ErrorCode → BitVec 4
  | .illegalCommand => 2#4
  | .badOperand => 3#4
  | .degenerateDistribution => 4#4
  | .invalidSymbol => 5#4
  | .streamUnderflow => 6#4
  | .divMismatch => 7#4
  | .tableInvalid => 8#4
  | .stackOverflow => 9#4
  | .stackUnderflow => 10#4
  | .stateRange => 11#4

/-- The 4-bit status code `S` of a response (60_exceptions.md R241). -/
def statusBits : Status → BitVec 4
  | .ok => 0#4
  | .endOfStream => 1#4
  | .error e => errorCodeBits e

/-- STATUS as RDREG returns it: ERR, EOS, TV, LOW in bits 0 to 3, zero above (10_state.md R22; 45_host_access.md R212). -/
def statusWord (s : State) : Word :=
  (BitVec.ofBool s.low ++ BitVec.ofBool s.tv ++ BitVec.ofBool s.eos ++ BitVec.ofBool s.err).setWidth 64

/-- ERR <- 1 and ERRCODE <- the code (60_exceptions.md R252). -/
def setError (e : ErrorCode) (s : State) : State := { s with err := true, errcode := errorCodeBits e }

/-- WRREG STATUS with `D[0] = 1` clears ERR and ERRCODE together (45_host_access.md R213; 60_exceptions.md R255, R257). -/
def clearError (s : State) : State := { s with err := false, errcode := 0#4 }

/-- EOS, set at end-of-stream and cleared by a decoded symbol, DECINIT and WRREG DEC_STATE (10_state.md R22). -/
def setEos (v : Bool) (s : State) : State := { s with eos := v }

/-- TV, set by BUILD and CHKTAB and cleared by WRCUM (10_state.md R22; 41_frequency_model.md R117). -/
def setTv (v : Bool) (s : State) : State := { s with tv := v }

/-- ENCINIT and WRREG ENC_STATE clear LOW (43_encoder.md R158). -/
def clearLow (s : State) : State := { s with low := false }

/-- ENC sets LOW when the state it leaves is below L, and changes it otherwise not (43_encoder.md R155, R158). -/
def noteLow (s : State) : State := { s with low := s.low || decide (s.encState < s.params.L) }

end Sys2Proof.Machine
end

