-- ==== Sys2Proof/Machine/Memory.lean ====
section
/-! DEFINITION. The three memories as sparse lists: look up, write one entry, list all entries of a range, and the canonical
form (indexes strictly rising). An unlisted index has no value (`none`), so no entry can equal what an unlisted index
reads as, and two memories that answer every look-up alike are one list. -/

namespace Sys2Proof.Machine

/-- The value a command has written at index `i`, `none` where none has (20_memory.md R68). -/
def Memory.get? {α : Type} : Memory α → Nat → Option α
  | [], _ => none
  | (k, v) :: m, i => if k = i then some v else Memory.get? m i

/-- Write one entry, keeping the indexes in rising order. -/
def Memory.write {α : Type} : Memory α → Nat → α → Memory α
  | [], i, v => [(i, v)]
  | (k, w) :: m, i, v =>
    if i < k then (i, v) :: (k, w) :: m
    else if i = k then (i, v) :: m
    else (k, w) :: Memory.write m i v

/-- The memory whose entries at `k`, `k + 1`, ... are the given values and which lists nothing else. -/
def Memory.ofValues {α : Type} (k : Nat) : List α → Memory α
  | [] => []
  | v :: vs => (k, v) :: Memory.ofValues (k + 1) vs

/-- The canonical form: indexes strictly rising. -/
abbrev Memory.wf {α : Type} (m : Memory α) : Prop := m.Pairwise fun x y => x.1 < y.1

end Sys2Proof.Machine
end

