-- ==== Sys2Proof/Machine/Ops.lean ====
section
/-! DEFINITION. The operations the commands share: reading and writing an entry of WGT, CUM and STK, push and pop
(20_memory.md R58, R59), responding (30_encoding.md R83), the error effect (60_exceptions.md R252), resetting the
registers, and taking the host's next operation (70_reset_and_hazards.md R285). -/

namespace Sys2Proof.Machine

/-! ### Memories -/

/-- The width bound of a CUM entry, `2^(M_BITS + 1)` (20_memory.md R52). -/
def cumBound (p : Params) : Nat := 2 ^ (p.mBits + 1)

/-- `WGT[i]`: what was written, else the entry's draw (20_memory.md R51, R68). -/
def readWgt (s : State) (i : Nat) : BitVec 32 := (s.wgt.get? i).getD (Config.wgtDraw s.resets i)

/-- `CUM[i]`: what was written, else the entry's draw, any value of the entry's width (20_memory.md R52, R68). -/
def readCum (s : State) (i : Nat) : Nat :=
  (s.cum.get? i).getD ((Config.cumDraw s.resets i).toNat % cumBound s.params)

/-- `STK[i]`: what was written, else the entry's draw (20_memory.md R53, R68). -/
def readStk (s : State) (i : Nat) : Byte := (s.stk.get? i).getD (Config.stkDraw s.resets i)

/-- `WGT[i] <- v`. -/
def writeWgt (i : Nat) (v : BitVec 32) (s : State) : State := { s with wgt := s.wgt.write i v }

/-- `CUM[i] <- v`. -/
def writeCum (i v : Nat) (s : State) : State := { s with cum := s.cum.write i v }

/-- `STK[i] <- v`. -/
def writeStk (i : Nat) (v : Byte) (s : State) : State := { s with stk := s.stk.write i v }

/-- `push(b)`: `STK[SP] <- b; SP <- SP + 1` (20_memory.md R58). -/
def push (b : Byte) (s : State) : State := { writeStk s.sp b s with sp := s.sp + 1 }

/-- The pushes of one command, in order (43_encoder.md R155, R160). -/
def pushAll (bs : List Byte) (s : State) : State := bs.foldl (fun t b => push b t) s

/-- `pop()` as a change of state: `SP <- SP - 1`. The entry keeps its value (20_memory.md R59). -/
def dropTop (s : State) : State := { s with sp := s.sp - 1 }

/-- `pop()` as a value: `STK[SP - 1]`, the top of the stack (20_memory.md R59). -/
def topByte (s : State) : Byte := readStk s (s.sp - 1)

/-! ### The frequency table -/

/-- `freq(s) = CUM[s+1] - CUM[s]` (41_frequency_model.md R101; log 9). -/
def freq (s : State) (sym : Nat) : Nat := readCum s (sym + 1) - readCum s sym

/-- The table invariants: `CUM[0] = 0`, non-decreasing, `CUM[256] = M` (41_frequency_model.md R100). -/
def tableValid (s : State) : Bool :=
  readCum s 0 == 0 && readCum s 256 == s.params.M &&
    (List.range 256).all fun i => readCum s i ≤ readCum s (i + 1)

/-! ### Responses and errors -/

/-- `respond(S, R)`: the one response of the command (30_encoding.md R83). -/
def respond (st : Status) (r : Word) (s : State) : State := { s with responses := s.responses ++ [⟨st, r⟩] }

/-- The error effect: ERR <- 1, ERRCODE <- E, respond `(E, R)` and no other write (60_exceptions.md R252). -/
def raiseWith (e : ErrorCode) (r : Word) (s : State) : State := respond (.error e) r (setError e s)

/-- `raise E`: the error effect with `R = 0`, as every error but STREAM_UNDERFLOW has it (60_exceptions.md R252). -/
def raise (e : ErrorCode) (s : State) : State := raiseWith e 0#64 s

/-- The position in the host's sequence: how many commands have been answered since reset (10_state.md R36). -/
def position (s : State) : Nat := s.responses.length

/-! ### Reset -/

/-- Every register but ID to its reset value, memories kept (45_host_access.md R211; 70_reset_and_hazards.md R272). -/
def resetRegisters (s : State) : State :=
  { s with
    err := false, eos := false, tv := false, low := false, errcode := 0#4
    encState := 0, decState := 0, sp := 0, decSym := 0#8, bonus := 0#64, decRemain := 0
    divf := 1, divsh := s.params.N, divmul := 2 ^ s.params.N }

/-- The reset event (70_reset_and_hazards.md R270): the state after reset with a new draw of the memories; the parameters
and what the host has still to do stay (log 2, log 5). -/
def resetEvent (s : State) : State :=
  { State.resetWith s.params with resets := s.resets + 1, input := s.input }

/-! ### The host port -/

/-- The state with the host's next operation taken, and that operation; `none` when the host has issued nothing
(70_reset_and_hazards.md R285; log 4). -/
def takeInput (s : State) : Option (HostOp × State) :=
  match s.input with
  | [] => none
  | op :: rest => some (op, { s with input := rest })

/-- The host issues a command that the block takes before all else it has been given (log 4). -/
def placeCommand (c : Command) (s : State) : State := { s with input := .command c :: s.input }

/-- The command a row of the opcode table stands for, by its bits (log 6). -/
def tableCommand (nbits w : Nat) : Command := { header := tableHeader nbits w, payload := tablePayload nbits w }

end Sys2Proof.Machine
end

