-- ==== Sys2Proof/Machine/Operands.lean ====
section
/-! DEFINITION. Operands: which register a number names, reading and writing a register as RDREG and WRREG do (10_state.md
R20-R33; 45_host_access.md R212, R213), and the domain of each value a command takes from its payload or a field
(30_encoding.md R82, R87; 60_exceptions.md R243). -/

namespace Sys2Proof.Machine

/-- The registers in the order of their numbers (10_state.md R20). -/
def registerList : List Reg :=
  [.id, .status, .errcode, .encState, .decState, .sp, .decSym, .bonus, .decRemain, .divf, .divsh, .divmul]

/-- The register a number names; numbers 12 to 255 name none (10_state.md R20, R33). -/
def registerOf (r : Byte) : Option Reg := registerList[r.toNat]?

/-- ID: MBITS, LBITS, SDBITS, REV = 1, in bits 7:0, 15:8, 23:16 and 31:24 (10_state.md R21). -/
def idWord (p : Params) : BitVec 32 :=
  1#8 ++ BitVec.ofNat 8 p.sdBits ++ BitVec.ofNat 8 p.lBits ++ BitVec.ofNat 8 p.mBits

/-- The 64-bit word RDREG returns for a register: zero-extended, BONUS its signed 64-bit pattern (10_state.md R20, R28). -/
def readReg (s : State) : Reg → Word
  | .id => (idWord s.params).setWidth 64
  | .status => statusWord s
  | .errcode => s.errcode.setWidth 64
  | .encState => zext64 s.encState
  | .decState => zext64 s.decState
  | .sp => zext64 s.sp
  | .decSym => s.decSym.setWidth 64
  | .bonus => s.bonus
  | .decRemain => zext64 s.decRemain
  | .divf => zext64 s.divf
  | .divsh => zext64 s.divsh
  | .divmul => zext64 s.divmul

/-- The state after WRREG of a register, `none` where the register is read-only or the value out of its range
(45_host_access.md R213). -/
def writeReg (s : State) (d : Word) : Reg → Option State
  | .status => some (if d.getLsbD 0 then clearError s else s)
  | .encState => if d.toNat < s.params.BL then some (clearLow { s with encState := d.toNat }) else none
  | .decState => if d.toNat < s.params.BL then some (setEos false { s with decState := d.toNat }) else none
  | .sp => if d.toNat ≤ s.params.stackDepth then some { s with sp := d.toNat } else none
  | .decRemain => if d.toNat < 2 ^ 32 then some { s with decRemain := d.toNat } else none
  | .id | .errcode | .decSym | .bonus | .divf | .divsh | .divmul => none

/-- A weight: below `2^32` (41_frequency_model.md R113). -/
def weightOk (d : Word) : Bool := decide (d.toNat < 2 ^ 32)

/-- A CUM index: 0 to 256 (41_frequency_model.md R115, R116). -/
def cumIndexOk (i : BitVec 16) : Bool := decide (i.toNat ≤ 256)

/-- A CUM value: below `2^(M_BITS + 1)` (41_frequency_model.md R115). -/
def cumValueOk (p : Params) (d : Word) : Bool := decide (d.toNat < cumBound p)

/-- A STK index: below STACK_DEPTH (45_host_access.md R216, R217). -/
def stkIndexOk (p : Params) (i : BitVec 16) : Bool := decide (i.toNat < p.stackDepth)

/-- A bonus: below HALF (43_encoder.md R151). -/
def bonusOk (p : Params) (d : Word) : Bool := decide (d.toNat < p.half)

/-- A decoder state or a dividend: below `2^N` (44_decoder.md R181; 42_fast_divider.md R136). -/
def stateOk (p : Params) (d : Word) : Bool := decide (d.toNat < p.BL)

/-- A divisor: 1 to M (42_fast_divider.md R135). -/
def divisorOk (p : Params) (d : Word) : Bool := decide (1 ≤ d.toNat ∧ d.toNat ≤ p.M)

end Sys2Proof.Machine
end

