-- ==== Sys2Proof/Machine/Decoder.lean ====
section
/-! DEFINITION. The decoder (44_decoder.md): DECINIT and DEC. -/

namespace Sys2Proof.Machine

/-- The refill loop from a stack of the given height: pop and fold while the state is below `L` and bytes remain; the state
and the height it leaves (44_decoder.md R182; log 11). -/
def refillFrom (floor : Nat) (byteAt : Nat → Byte) : Nat → Nat → Nat × Nat
  | 0, x => (x, 0)
  | h + 1, x => if x < floor then refillFrom floor byteAt h (x * 256 + (byteAt h).toNat) else (x, h + 1)

/-- The refill of DEC_STATE from STK (44_decoder.md R182). -/
def refill (s : State) : State :=
  { s with
    decState := (refillFrom s.params.L (readStk s) s.sp s.decState).1
    sp := (refillFrom s.params.L (readStk s) s.sp s.decState).2 }

/-- `v = DEC_STATE mod M` (44_decoder.md R184). -/
def slotOf (s : State) : Nat := s.decState % s.params.M

/-- The symbol with `CUM[s] <= v < CUM[s+1]`; unique in a valid table (44_decoder.md R184). -/
def symbolAt (s : State) (v : Nat) : Option Nat :=
  (List.range 256).find? fun i => decide (readCum s i ≤ v) && decide (v < readCum s (i + 1))

/-- `bonus = DEC_STATE - HALF`, signed (44_decoder.md R183). -/
def bonusOf (s : State) : Word := sext64 ((s.decState : Int) - (s.params.half : Int))

/-- End-of-stream: BONUS and EOS, then END or STREAM_UNDERFLOW (44_decoder.md R183, R187). -/
def endStream (s : State) : State :=
  let t := setEos true { s with bonus := bonusOf s }
  if s.decRemain = 0 then respond .endOfStream (bonusOf s) t else raiseWith .streamUnderflow (bonusOf s) t

/-- Yield symbol `sym`: `DEC_STATE <- block * count + offset`, DEC_SYM, EOS and DEC_REMAIN (44_decoder.md R185, R186). -/
def yieldSymbol (sym : Nat) (s : State) : State :=
  respond .ok (zext64 sym) (setEos false
    { s with
      decState := s.decState / s.params.M * freq s sym + slotOf s - readCum s sym
      decSym := BitVec.ofNat 8 sym
      decRemain := s.decRemain - 1 })

/-- DEC after the refill (44_decoder.md R186; log 8). -/
def decodeSymbol (s : State) : Host.Outcome State Fault Refusal :=
  if s.decState < s.params.L then .next (endStream s)
  else match symbolAt s (slotOf s) with
    | none => .fault .noSymbolForSlot
    | some sym => .next (yieldSymbol sym s)

/-- DEC (44_decoder.md R186). -/
def execDec (s : State) : Host.Outcome State Fault Refusal :=
  if s.tv = false then .next (raise .tableInvalid s) else decodeSymbol (refill s)

/-- DECINIT (44_decoder.md R181). -/
def execDecinit (d : Word) (s : State) : Host.Outcome State Fault Refusal :=
  .next (if stateOk s.params d then respond .ok 0#64 (setEos false { s with decState := d.toNat })
    else raise .badOperand s)

end Sys2Proof.Machine
end

