-- ==== Sys2Proof/Machine/Encoder.lean ====
section
/-! DEFINITION. The encoder (43_encoder.md): ENCINIT, ENC and ENCFLUSH. -/

namespace Sys2Proof.Machine

/-- `x_max = B * K_LM * count` (43_encoder.md R153). -/
def xMax (p : Params) (count : Nat) : Nat := 256 * p.kLM * count

/-- The renormalization loop: the bytes pushed, in order, and the state left. The first argument bounds the passes; the
commands give it `bytelen(x)`, after which `x` is 0 (43_encoder.md R153; 20_memory.md R65). -/
def renormalize (xmax : Nat) : Nat → Nat → List Byte × Nat
  | 0, x => ([], x)
  | n + 1, x =>
    if xmax ≤ x then
      (BitVec.ofNat 8 (x % 256) :: (renormalize xmax n (x / 256)).1, (renormalize xmax n (x / 256)).2)
    else ([], x)

/-- The `n` low bytes of `x`, least significant first (20_memory.md R54; 43_encoder.md R160). -/
def lowBytes : Nat → Nat → List Byte
  | 0, _ => []
  | n + 1, x => BitVec.ofNat 8 (x % 256) :: lowBytes n (x / 256)

/-- ENCINIT (43_encoder.md R151). -/
def execEncinit (d : Word) (s : State) : Host.Outcome State Fault Refusal :=
  .next (if bonusOk s.params d then
      respond .ok 0#64 (clearLow { s with encState := s.params.half + d.toNat, sp := 0 })
    else raise .badOperand s)

/-- ENC's new state from the renormalized state `x`: `block * M + CUM[s] + offset` with `block = fastdiv(x, count)`; `none`
when `offset` is outside `[0, count)`, which is DIV_MISMATCH (43_encoder.md R154). -/
def rescale (s : State) (sym x : Nat) : Option Nat :=
  let count := freq s sym
  let block := fastdiv s.params x count
  let offset : Int := (x : Int) - (block * count : Nat)
  if offset < 0 ∨ (count : Int) ≤ offset then none
  else some (block * s.params.M + readCum s sym + offset.toNat)

/-- ENC once its operand checks have passed (43_encoder.md R155). -/
def encodeSymbol (sym : Nat) (s : State) : State :=
  let ren := renormalize (xMax s.params (freq s sym)) (byteLen s.encState) s.encState
  if s.params.stackDepth < s.sp + ren.1.length then raise .stackOverflow s
  else match rescale s sym ren.2 with
    | none => raise .divMismatch s
    | some x => respond .ok (zext64 ren.1.length) (noteLow { pushAll ren.1 s with encState := x })

/-- ENC (43_encoder.md R152, R155). -/
def execEnc (sym : Byte) (s : State) : Host.Outcome State Fault Refusal :=
  .next (if s.tv = false then raise .tableInvalid s
    else if freq s sym.toNat = 0 then raise .invalidSymbol s
    else if s.encState < s.params.half then raise .stateRange s
    else encodeSymbol sym.toNat s)

/-- ENCFLUSH (43_encoder.md R160). -/
def execEncflush (s : State) : Host.Outcome State Fault Refusal :=
  .next (if s.params.stackDepth < s.sp + byteLen s.encState then raise .stackOverflow s
    else respond .ok (zext64 (byteLen s.encState))
      { pushAll (lowBytes (byteLen s.encState) s.encState) s with encState := 0 })

end Sys2Proof.Machine
end

