-- ==== Sys2Proof/Machine/FastDivider.lean ====
section
/-! DEFINITION. The fast divider's commands (42_fast_divider.md): DIVP latches the parameters of a divisor, DIVQ divides by the
latched divisor and checks the quotient. -/

namespace Sys2Proof.Machine

/-- DIVF, DIVSH and DIVMUL for divisor `f` (42_fast_divider.md R135). -/
def latchDivisor (f : Nat) (s : State) : State :=
  { s with divf := f, divsh := divShift s.params f, divmul := divMult s.params f }

/-- The quotient by the latched parameters, `(x * DIVMUL) >> DIVSH` (42_fast_divider.md R136). -/
def latchedQuotient (s : State) (x : Nat) : Nat := (x * s.divmul) / 2 ^ s.divsh

/-- DIVP (42_fast_divider.md R135). -/
def execDivp (d : Word) (s : State) : Host.Outcome State Fault Refusal :=
  .next (if divisorOk s.params d then
      respond .ok (zext64 (divMult s.params d.toNat)) (latchDivisor d.toNat s)
    else raise .badOperand s)

/-- DIVQ (42_fast_divider.md R136). -/
def execDivq (d : Word) (s : State) : Host.Outcome State Fault Refusal :=
  .next (if stateOk s.params d then
      if latchedQuotient s d.toNat = d.toNat / s.divf then respond .ok (zext64 (latchedQuotient s d.toNat)) s
      else raise .divMismatch s
    else raise .badOperand s)

end Sys2Proof.Machine
end

