-- ==== Sys2Proof/Machine/FrequencyModel.lean ====
section
/-! DEFINITION. The frequency model (41_frequency_model.md): BUILD with its rounding and greedy refinement, CHKTAB, and the
access to WGT and CUM. Costs are compared exactly, as products of powers of numbers (R107). -/

namespace Sys2Proof.Machine

/-! ### BUILD -/

/-- BUILD's working entry of one symbol: its weight and its working frequency `c[s]` (41_frequency_model.md R104). -/
structure WorkEntry where
  sym : Nat
  weight : Nat
  freq : Nat
deriving DecidableEq, Repr

/-- `T`, the sum of the 256 weights (41_frequency_model.md R102). -/
def weightTotal (s : State) : Nat := ((List.range 256).map fun i => (readWgt s i).toNat).sum

/-- `K`, the number of symbols of non-zero weight (41_frequency_model.md R102). -/
def weightSupport (s : State) : Nat := ((List.range 256).filter fun i => (readWgt s i).toNat ≠ 0).length

/-- Step 1, the rounding of one non-zero weight `w` (41_frequency_model.md R105). -/
def roundedFreq (total sum w : Nat) : Nat :=
  let down := w * total / sum
  let up := down + 1
  if down * up * sum ^ 2 ≤ (w * total) ^ 2 then up else down

/-- The working entries after step 1; a symbol of weight 0 has frequency 0 (41_frequency_model.md R104, R105). -/
def roundedEntries (s : State) : List WorkEntry :=
  (List.range 256).map fun i =>
    let w := (readWgt s i).toNat
    { sym := i, weight := w, freq := if w = 0 then 0 else roundedFreq s.params.M (weightTotal s) w }

/-- Step 2, the correction `d0 = M - sum of c` (41_frequency_model.md R106). -/
def correction (total : Nat) (es : List WorkEntry) : Int := (total : Int) - ((es.map (·.freq)).sum : Int)

/-- A frequency after the move: up by one or down by one (41_frequency_model.md R107). -/
def movedFreq (up : Bool) (c : Nat) : Nat := if up then c + 1 else c - 1

/-- `cost(a, δ) < cost(b, δ)`, exactly (41_frequency_model.md R107). -/
def costLt (up : Bool) (a b : WorkEntry) : Bool :=
  decide (a.freq ^ a.weight * movedFreq up b.freq ^ b.weight < b.freq ^ b.weight * movedFreq up a.freq ^ a.weight)

/-- The candidates `E`: every symbol of `Z` for an increment, those with `c >= 2` for a decrement
(41_frequency_model.md R108). -/
def candidates (up : Bool) (es : List WorkEntry) : List WorkEntry :=
  es.filter fun e => decide (e.weight ≠ 0) && (up || decide (2 ≤ e.freq))

/-- `s*`: the least candidate whose cost no candidate's is below (41_frequency_model.md R108). -/
def cheapest (up : Bool) (es : List WorkEntry) : Option WorkEntry :=
  (candidates up es).find? fun a => (candidates up es).all fun b => !costLt up b a

/-- `c[s*] <- c[s*] + δ` (41_frequency_model.md R108). -/
def applyMove (up : Bool) (sym : Nat) (es : List WorkEntry) : List WorkEntry :=
  es.map fun e => if e.sym = sym then { e with freq := movedFreq up e.freq } else e

/-- Step 3: as many passes as `|d|`; `none` when a pass has no candidate (41_frequency_model.md R108). -/
def refine (up : Bool) : Nat → List WorkEntry → Option (List WorkEntry)
  | 0, es => some es
  | n + 1, es =>
    match cheapest up es with
    | none => none
    | some a => refine up n (applyMove up a.sym es)

/-- BUILD's initial correction `d0` (41_frequency_model.md R106). -/
def buildCorrection (s : State) : Int := correction s.params.M (roundedEntries s)

/-- BUILD's final frequencies, `none` for DEGENERATE_DISTRIBUTION (41_frequency_model.md R108). -/
def buildEntries (s : State) : Option (List WorkEntry) :=
  refine (decide (0 < buildCorrection s)) (buildCorrection s).natAbs (roundedEntries s)

/-- `acc`, `acc + c[0]`, `acc + c[0] + c[1]`, ... (41_frequency_model.md R109). -/
def prefixSums (acc : Nat) : List Nat → List Nat
  | [] => [acc]
  | c :: cs => acc :: prefixSums (acc + c) cs

/-- Step 4: all 257 entries of CUM (41_frequency_model.md R109). -/
def writeTable (es : List WorkEntry) (s : State) : State :=
  { s with cum := Memory.ofValues 0 (prefixSums 0 (es.map (·.freq))) }

/-- BUILD (41_frequency_model.md R110). -/
def execBuild (s : State) : Host.Outcome State Fault Refusal :=
  .next (match buildEntries s with
    | none => raise .degenerateDistribution s
    | some es => respond .ok (sext64 (buildCorrection s)) (setTv true (writeTable es s)))

/-! ### CHKTAB and table access -/

/-- CHKTAB (41_frequency_model.md R112). -/
def execChktab (s : State) : Host.Outcome State Fault Refusal :=
  .next (if tableValid s then respond .ok 0#64 (setTv true s) else raise .tableInvalid (setTv false s))

/-- WRWGT (41_frequency_model.md R113). -/
def execWrwgt (sym : Byte) (d : Word) (s : State) : Host.Outcome State Fault Refusal :=
  .next (if weightOk d then respond .ok 0#64 (writeWgt sym.toNat (d.setWidth 32) s) else raise .badOperand s)

/-- RDWGT (41_frequency_model.md R114). -/
def execRdwgt (sym : Byte) (s : State) : Host.Outcome State Fault Refusal :=
  .next (respond .ok ((readWgt s sym.toNat).setWidth 64) s)

/-- WRCUM (41_frequency_model.md R115). -/
def execWrcum (i : BitVec 16) (d : Word) (s : State) : Host.Outcome State Fault Refusal :=
  .next (if cumIndexOk i && cumValueOk s.params d then
      respond .ok 0#64 (setTv false (writeCum i.toNat d.toNat s))
    else raise .badOperand s)

/-- RDCUM (41_frequency_model.md R116). -/
def execRdcum (i : BitVec 16) (s : State) : Host.Outcome State Fault Refusal :=
  .next (if cumIndexOk i then respond .ok (zext64 (readCum s i.toNat)) s else raise .badOperand s)

end Sys2Proof.Machine
end

