-- ==== Sys2Proof/Machine/HostAccess.lean ====
section
/-! DEFINITION. The host access commands (45_host_access.md): NOP, SRST, RDREG, WRREG, PUSHB, POPB, RDSTK, WRSTK. -/

namespace Sys2Proof.Machine

/-- NOP (45_host_access.md R210). -/
def execNop (s : State) : Host.Outcome State Fault Refusal := .next (respond .ok 0#64 s)

/-- SRST (45_host_access.md R211). -/
def execSrst (s : State) : Host.Outcome State Fault Refusal := .next (respond .ok 0#64 (resetRegisters s))

/-- RDREG (45_host_access.md R212). -/
def execRdreg (r : Byte) (s : State) : Host.Outcome State Fault Refusal :=
  .next (match registerOf r with
    | none => raise .badOperand s
    | some reg => respond .ok (readReg s reg) s)

/-- WRREG (45_host_access.md R213). -/
def execWrreg (r : Byte) (d : Word) (s : State) : Host.Outcome State Fault Refusal :=
  .next (match (registerOf r).bind (writeReg s d) with
    | none => raise .badOperand s
    | some t => respond .ok 0#64 t)

/-- PUSHB (45_host_access.md R214). -/
def execPushb (b : Byte) (s : State) : Host.Outcome State Fault Refusal :=
  .next (if s.params.stackDepth ≤ s.sp then raise .stackOverflow s else respond .ok 0#64 (push b s))

/-- POPB (45_host_access.md R215). -/
def execPopb (s : State) : Host.Outcome State Fault Refusal :=
  .next (if s.sp = 0 then raise .stackUnderflow s else respond .ok ((topByte s).setWidth 64) (dropTop s))

/-- RDSTK (45_host_access.md R216). -/
def execRdstk (i : BitVec 16) (s : State) : Host.Outcome State Fault Refusal :=
  .next (if stkIndexOk s.params i then respond .ok ((readStk s i.toNat).setWidth 64) s else raise .badOperand s)

/-- WRSTK (45_host_access.md R217). -/
def execWrstk (b : Byte) (i : BitVec 16) (s : State) : Host.Outcome State Fault Refusal :=
  .next (if stkIndexOk s.params i then respond .ok 0#64 (writeStk i.toNat b s) else raise .badOperand s)

end Sys2Proof.Machine
end

