-- ==== Sys2Proof/Machine/Dispatch.lean ====
section
/-! DEFINITION. Dispatch: one arm per command, each a call of its meaning. -/

namespace Sys2Proof.Machine

def exec (i : Instr) (s : State) : Host.Outcome State Fault Refusal :=
  match i with
  | .nop => Sys2Proof.Machine.execNop s
  | .srst => Sys2Proof.Machine.execSrst s
  | .rdreg r => Sys2Proof.Machine.execRdreg r s
  | .wrreg r d => Sys2Proof.Machine.execWrreg r d s
  | .wrwgt sym d => Sys2Proof.Machine.execWrwgt sym d s
  | .rdwgt sym => Sys2Proof.Machine.execRdwgt sym s
  | .wrcum idx d => Sys2Proof.Machine.execWrcum idx d s
  | .rdcum idx => Sys2Proof.Machine.execRdcum idx s
  | .build => Sys2Proof.Machine.execBuild s
  | .chktab => Sys2Proof.Machine.execChktab s
  | .pushb b => Sys2Proof.Machine.execPushb b s
  | .popb => Sys2Proof.Machine.execPopb s
  | .rdstk idx => Sys2Proof.Machine.execRdstk idx s
  | .wrstk b idx => Sys2Proof.Machine.execWrstk b idx s
  | .encinit d => Sys2Proof.Machine.execEncinit d s
  | .enc sym => Sys2Proof.Machine.execEnc sym s
  | .encflush => Sys2Proof.Machine.execEncflush s
  | .decinit d => Sys2Proof.Machine.execDecinit d s
  | .dec => Sys2Proof.Machine.execDec s
  | .divp d => Sys2Proof.Machine.execDivp d s
  | .divq d => Sys2Proof.Machine.execDivq d s

end Sys2Proof.Machine
end

