-- ==== Sys2Proof/Machine/Step.lean ====
section
/-! DEFINITION. The step: the block takes the host's next operation, a reset or a command, and makes the one atomic
transition it stands for (20_memory.md R60; 70_reset_and_hazards.md R285); with nothing issued it is idle (60_exceptions.md
R263). -/

namespace Sys2Proof.Machine

/-- One command `(H, D)`: ILLEGAL_COMMAND where the header is none, before anything else (60_exceptions.md R242, R254). -/
def runCommand (c : Command) (s : State) : Host.Outcome State Fault Refusal :=
  match decode c.header c.payload with
  | .ok i => exec i s
  | .error _ => .next (raise .illegalCommand s)

/-- One step of the block. -/
def step (s : State) : Host.Outcome State Fault Refusal :=
  match takeInput s with
  | none => .next s
  | some (.reset, t) => .next (resetEvent t)
  | some (.command c, t) => runCommand c t

/-- The state in which the host issues, next, the command with these bits (log 4, log 6). -/
def State.withFetchWord (s : State) (nbits w : Nat) : State := placeCommand (tableCommand nbits w) s

end Sys2Proof.Machine
end

