-- ==== Sys2Proof/Assembly.lean ====
section
/-! DEFINITION. The assembler text of a command (30_encoding.md R90), its hex form, and the pseudo-instructions with their
expansions (30_encoding.md R91). Of the operand forms R90 allows, the text uses one: a defined register by its name, every
other operand in decimal (log 12). -/

namespace Sys2Proof

/-- The register names of the assembler, by number (30_encoding.md R90). -/
def registerNames : List String :=
  ["ID", "STATUS", "ERRCODE", "ENC_STATE", "DEC_STATE", "SP", "DEC_SYM", "BONUS", "DEC_REMAIN", "DIVF", "DIVSH", "DIVMUL"]

/-- The operand `<reg>`: a name for 0 to 11, the number otherwise (30_encoding.md R90). -/
def asmReg (r : Byte) : String := (registerNames[r.toNat]?).getD (toString r.toNat)

/-- One line of assembler text (30_encoding.md R90). -/
def asmLine : Instr → String
  | .nop => "NOP"
  | .srst => "SRST"
  | .rdreg r => "RDREG " ++ asmReg r
  | .wrreg r d => "WRREG " ++ asmReg r ++ ", " ++ toString d.toNat
  | .wrwgt s d => "WRWGT " ++ toString s.toNat ++ ", " ++ toString d.toNat
  | .rdwgt s => "RDWGT " ++ toString s.toNat
  | .wrcum i d => "WRCUM " ++ toString i.toNat ++ ", " ++ toString d.toNat
  | .rdcum i => "RDCUM " ++ toString i.toNat
  | .build => "BUILD"
  | .chktab => "CHKTAB"
  | .pushb b => "PUSHB " ++ toString b.toNat
  | .popb => "POPB"
  | .rdstk i => "RDSTK " ++ toString i.toNat
  | .wrstk b i => "WRSTK " ++ toString i.toNat ++ ", " ++ toString b.toNat
  | .encinit d => "ENCINIT " ++ toString d.toNat
  | .enc s => "ENC " ++ toString s.toNat
  | .encflush => "ENCFLUSH"
  | .decinit d => "DECINIT " ++ toString d.toNat
  | .dec => "DEC"
  | .divp d => "DIVP " ++ toString d.toNat
  | .divq d => "DIVQ " ++ toString d.toNat

/-- `n` hex digits of a number, most significant first, in capitals. -/
def hexDigits : Nat → Nat → List Char
  | 0, _ => []
  | n + 1, v => hexDigits n (v / 16) ++ [("0123456789ABCDEF".toList)[v % 16]?.getD '0']

/-- `HHHHHHHH:DDDDDDDDDDDDDDDD` (30_encoding.md R90). -/
def hexLine (c : Command) : String :=
  String.ofList (hexDigits 8 c.header.toNat ++ ':' :: hexDigits 16 c.payload.toNat)

/-- The pseudo-instructions; a text is its bytes (30_encoding.md R91). -/
inductive Pseudo where
  | clrerr
  | setsp (n : Word)
  | ldhist (text : List Byte)
  | encseq (symbols : List Byte)
  | encstr (text : List Byte)
  | decn (n : Word)
deriving DecidableEq, Repr

/-- The commands a pseudo-instruction stands for, in order (30_encoding.md R91). -/
def Pseudo.expand : Pseudo → List Instr
  | .clrerr => [.wrreg 1#8 1#64]
  | .setsp n => [.wrreg 5#8 n]
  | .ldhist text => (List.range 256).map fun s => .wrwgt (BitVec.ofNat 8 s) (BitVec.ofNat 64 (text.count (BitVec.ofNat 8 s)))
  | .encseq symbols => symbols.reverse.map .enc
  | .encstr text => text.reverse.map .enc
  | .decn n => .wrreg 8#8 n :: List.replicate (n.toNat + 1) .dec

end Sys2Proof
end

