-- ==== Sys2Proof/Safety.lean ====
section
/-! DEFINITION. What counts as a safe run: a step goes on (it answers a next state), and the invariant that the spec's rules
keep: every register within its width (00_scope.md R9, 10_state.md R20), the divider's registers a consistent triple
(42_fast_divider.md R136), ERRCODE 0 exactly when ERR is 0 (10_state.md R23), memories in canonical form within their index
ranges (20_memory.md R50), a valid table whenever TV = 1 (10_state.md R22), and BONUS the residual of DEC_STATE while EOS = 1
(44_decoder.md R183). -/

namespace Sys2Proof.Machine

/-- The machine goes on: it neither faults nor refuses. -/
def Continues (o : Host.Outcome State Fault Refusal) : Prop := ∃ t, o = .next t

/-- The invariant of the block. -/
structure State.Inv (s : State) : Prop where
  /-- ENC_STATE fits N bits (10_state.md R24) -/
  encState_lt : s.encState < s.params.BL
  /-- DEC_STATE fits N bits (10_state.md R25) -/
  decState_lt : s.decState < s.params.BL
  /-- `0 <= SP <= STACK_DEPTH` (10_state.md R26) -/
  sp_le : s.sp ≤ s.params.stackDepth
  /-- DEC_REMAIN fits 32 bits (10_state.md R29) -/
  decRemain_lt : s.decRemain < 2 ^ 32
  /-- `1 <= DIVF <= M` (10_state.md R30) -/
  divf_range : 1 ≤ s.divf ∧ s.divf ≤ s.params.M
  /-- DIVSH is the shift for DIVF (10_state.md R31) -/
  divsh_eq : s.divsh = divShift s.params s.divf
  /-- DIVMUL is the multiplier for DIVF (10_state.md R32) -/
  divmul_eq : s.divmul = divMult s.params s.divf
  /-- ERRCODE holds an error's code while ERR = 1 and 0 otherwise (10_state.md R23) -/
  errcode_eq : if s.err then ∃ e, s.errcode = errorCodeBits e else s.errcode = 0#4
  /-- WGT is in canonical form -/
  wgt_wf : Memory.wf s.wgt
  /-- WGT has indexes 0 to 255 -/
  wgt_index : ∀ e ∈ s.wgt, e.1 < 256
  /-- CUM is in canonical form -/
  cum_wf : Memory.wf s.cum
  /-- CUM has indexes 0 to 256 and values of M_BITS + 1 bits -/
  cum_index : ∀ e ∈ s.cum, e.1 ≤ 256 ∧ e.2 < cumBound s.params
  /-- STK is in canonical form -/
  stk_wf : Memory.wf s.stk
  /-- STK has indexes 0 to STACK_DEPTH - 1 -/
  stk_index : ∀ e ∈ s.stk, e.1 < s.params.stackDepth
  /-- TV = 1 means that CUM satisfies the table invariants (10_state.md R22; 41_frequency_model.md R117) -/
  tv_valid : s.tv = true → tableValid s = true
  /-- while EOS = 1, DEC_STATE is the residual that BONUS reports (44_decoder.md R183) -/
  eos_bonus : s.eos = true → s.decState < s.params.L ∧ s.bonus = bonusOf s

end Sys2Proof.Machine
end

