-- ==== Sys2Proof/Certificates/Slice0/Obligations.lean ====
section
/-! DEFINITION. The statements for the provers. `raise e s` and `respond st r s` are the two shared operations of
Machine/Ops.lean; ErrorEffectIsErrErrcodeResponse writes both out. A statement of the form `t = { s with f := t.f }` says that
nothing but the named fields changed. -/

open Sys2Proof Sys2Proof.Machine

/-! ### The step, decoding and encoding -/

/-- A step takes the host's next command and runs the instruction its words decode to, on the state in which that command
has been taken from the port, and does nothing else; whatever the words, the step is `runCommand`, which depends on them
alone; with nothing issued the block is idle. The port is the model's convention (log 4). -/
def Obligations.StepRunsTheDecodedCommand : Prop :=
  (∀ (s : State) (c : Command) (rest : List HostOp) (i : Instr),
    s.input = .command c :: rest → decode c.header c.payload = .ok i → step s = exec i { s with input := rest }) ∧
  (∀ (s : State) (c : Command) (rest : List HostOp),
    s.input = .command c :: rest → step s = runCommand c { s with input := rest }) ∧
  (∀ (s : State) (c : Command) (i : Instr), decode c.header c.payload = .ok i → runCommand c s = exec i s) ∧
  (∀ s : State, s.input = [] → step s = .next s)

/-- A header that no row of the opcode map selects is ILLEGAL_COMMAND: ERR, ERRCODE = 2, response `R = 0`, nothing else, whatever
the payload (60_exceptions.md R242). -/
def Obligations.IllegalHeaderOnlySetsErrAndErrcode : Prop :=
  ∀ (s : State) (c : Command), (∀ row ∈ opcodeTable, c.header &&& row.mask ≠ row.matchBits) →
    runCommand c s = .next { s with
      err := true, errcode := 2#4, responses := s.responses ++ [⟨.error .illegalCommand, 0#64⟩] }

/-- Every header is exactly one row of the opcode map, or illegal; and the decoder answers that row's command
(30_encoding.md R88). -/
def Obligations.HeaderIsOneRowOrIllegal : Prop :=
  (∀ h : Header, ∀ r₁ ∈ opcodeTable, ∀ r₂ ∈ opcodeTable,
      h &&& r₁.mask = r₁.matchBits → h &&& r₂.mask = r₂.matchBits → r₁ = r₂) ∧
  (∀ (h : Header) (d : Word),
      (∀ i, decode h d = .ok i → ∃ r ∈ opcodeTable, h &&& r.mask = r.matchBits ∧ r.mnemonic = mnemonicOf i.opcode) ∧
      (∀ e, decode h d = .error e → ∀ r ∈ opcodeTable, h &&& r.mask ≠ r.matchBits))

/-- The unassigned OPC ranges of 30_encoding.md R86, and a non-zero field that the opcode does not use, decode to no
command; every other header decodes. -/
def Obligations.ReservedEncodingsAreRejected : Prop :=
  ∀ (h : Header) (d : Word),
    let opc := (h.extractLsb' 24 8).toNat
    let a := h.extractLsb' 16 8
    let b := h.extractLsb' 0 16
    (opc ∈ Finset.Icc 0x04 0x0F ∪ Finset.Icc 0x16 0x1F ∪ Finset.Icc 0x24 0x2F ∪ Finset.Icc 0x33 0x37 ∪
        Finset.Icc 0x3A 0x3F ∪ Finset.Icc 0x42 0xFF →
      decode h d = .error (.unassignedOpcode (h.extractLsb' 24 8))) ∧
    (opc ∈ [0x00, 0x01, 0x14, 0x15, 0x21, 0x30, 0x32, 0x38, 0x39, 0x40, 0x41] →
      ((∃ i, decode h d = .ok i) ↔ a = 0#8 ∧ b = 0#16)) ∧
    (opc ∈ [0x02, 0x03, 0x10, 0x11, 0x20, 0x31] → ((∃ i, decode h d = .ok i) ↔ b = 0#16)) ∧
    (opc ∈ [0x12, 0x13, 0x22] → ((∃ i, decode h d = .ok i) ↔ a = 0#8)) ∧
    (opc = 0x23 → ∃ i, decode h d = .ok i)

/-- Words written out from the encodings of the spec decode to the commands they stand for (spec/95_test_vectors.md). -/
def Obligations.SpecWordsDecode : Prop :=
  decode 0x00000000#32 0xFFFFFFFFFFFFFFFF#64 = .ok .nop ∧
  decode 0x03010000#32 1#64 = .ok (.wrreg 1#8 1#64) ∧
  decode 0x106C0000#32 3#64 = .ok (.wrwgt 0x6C#8 3#64) ∧
  decode 0x12000100#32 0x10000#64 = .ok (.wrcum 256#16 65536#64) ∧
  decode 0x23AB0003#32 0#64 = .ok (.wrstk 0xAB#8 3#16) ∧
  decode 0x31680000#32 0#64 = .ok (.enc 0x68#8) ∧
  decode 0x39000000#32 0#64 = .ok .dec ∧
  decode 0x40000000#32 3#64 = .ok (.divp 3#64) ∧
  decode 0x04000000#32 0#64 = .error (.unassignedOpcode 4#8) ∧
  decode 0x39000001#32 0#64 = .error (.reservedField 0x39#8)

/-- Decoding the words of a command gives the command back, with every operand at every value its field admits. -/
def Obligations.DecodeOfEncodeIsTheInstruction : Prop :=
  ∀ i : Instr, decode (encode i).header (encode i).payload = .ok i

/-- Encoding what a command decodes to gives its header back, and its payload unless the command ignores the payload, in
which case every payload decodes alike. -/
def Obligations.EncodeOfDecodeIsTheCommand : Prop :=
  ∀ (h : Header) (d : Word) (i : Instr), decode h d = .ok i →
    (encode i).header = h ∧ ((encode i).payload = d ∨ ∀ d' : Word, decode h d' = .ok i)

/-! ### Errors and responses -/

/-- The error effect, written out: ERR <- 1, ERRCODE <- the code of 60_exceptions.md R241, the response, no other write;
and a plain response changes nothing but the responses. -/
def Obligations.ErrorEffectIsErrErrcodeResponse : Prop :=
  ∀ (s : State) (r : Word),
    (∀ e c, (e, c) ∈ [(ErrorCode.illegalCommand, 2#4), (.badOperand, 3#4), (.degenerateDistribution, 4#4),
        (.invalidSymbol, 5#4), (.streamUnderflow, 6#4), (.divMismatch, 7#4), (.tableInvalid, 8#4), (.stackOverflow, 9#4),
        (.stackUnderflow, 10#4), (.stateRange, 11#4)] →
      raiseWith e r s = { s with err := true, errcode := c, responses := s.responses ++ [⟨.error e, r⟩] } ∧
      raise e s = { s with err := true, errcode := c, responses := s.responses ++ [⟨.error e, 0#64⟩] } ∧
      statusBits (.error e) = c) ∧
    statusBits .ok = 0#4 ∧ statusBits .endOfStream = 1#4 ∧
    (∀ st, respond st r s = { s with responses := s.responses ++ [⟨st, r⟩] })

/-- Every command, illegal ones too, gets exactly one response, and on an error status `R` is 0 except for STREAM_UNDERFLOW
(30_encoding.md R83). -/
def Obligations.EveryCommandGetsOneResponse : Prop :=
  ∀ (s : State) (c : Command), s.Inv →
    ∃ t st r, runCommand c s = .next t ∧ t.responses = s.responses ++ [⟨st, r⟩] ∧
      (∀ e, st = .error e → e ≠ .streamUnderflow → r = 0#64)

/-- A failed command, illegal ones too, keeps every register but ERR and ERRCODE and all of WGT, CUM and STK; for
STREAM_UNDERFLOW the refill, BONUS and EOS are kept as well (60_exceptions.md R252, R253). -/
def Obligations.FailedCommandChangesOnlyErrAndErrcode : Prop :=
  ∀ (c : Command) (s t : State) (e : ErrorCode) (r : Word), s.Inv →
    runCommand c s = .next t → t.responses = s.responses ++ [⟨.error e, r⟩] →
    t.err = true ∧ t.errcode = errorCodeBits e ∧
    (e ≠ .streamUnderflow →
      t = { s with err := t.err, errcode := t.errcode, responses := s.responses ++ [⟨.error e, 0#64⟩] }) ∧
    (e = .streamUnderflow → decode c.header c.payload = .ok .dec ∧ t.eos = true ∧ t.bonus = r ∧ r = bonusOf t ∧
      t.decState = (refill s).decState ∧ t.sp = (refill s).sp ∧
      t = { s with err := t.err, errcode := t.errcode, decState := t.decState, sp := t.sp, bonus := t.bonus,
                   eos := t.eos, responses := t.responses })

/-- The statuses each command can return besides OK (60_exceptions.md R265). -/
def Obligations.CommandStatusesAreThoseListed : Prop :=
  ∀ (i : Instr) (s t : State) (st : Status) (r : Word),
    exec i s = .next t → t.responses = s.responses ++ [⟨st, r⟩] →
    st = .ok ∨ st ∈ (match i with
      | .nop | .srst | .rdwgt _ => []
      | .rdreg _ | .wrreg _ _ | .wrwgt _ _ | .wrcum _ _ | .rdcum _ | .rdstk _ | .wrstk _ _ | .encinit _ | .decinit _
      | .divp _ => [.error .badOperand]
      | .build => [.error .degenerateDistribution]
      | .chktab => [.error .tableInvalid]
      | .pushb _ | .encflush => [.error .stackOverflow]
      | .popb => [.error .stackUnderflow]
      | .enc _ => [.error .tableInvalid, .error .invalidSymbol, .error .stateRange, .error .stackOverflow,
          .error .divMismatch]
      | .dec => [.error .tableInvalid, .endOfStream, .error .streamUnderflow]
      | .divq _ => [.error .badOperand, .error .divMismatch] : List Status)

/-- DIV_MISMATCH never occurs: the fast division agrees with the true one in ENC and in DIVQ (60_exceptions.md R250). -/
def Obligations.DivMismatchNeverOccurs : Prop :=
  ∀ (i : Instr) (s t : State), s.Inv → exec i s = .next t →
    ∀ r, t.responses ≠ s.responses ++ [⟨.error .divMismatch, r⟩]

/-- ERR is sticky: only WRREG STATUS with `D[0] = 1` and SRST clear it; a successful command leaves ERR and ERRCODE, and a
failed one, illegal ones too, sets ERRCODE to its own code (60_exceptions.md R258, R255). -/
def Obligations.ErrIsSticky : Prop :=
  ∀ (c : Command) (s t : State) (st : Status) (r : Word),
    runCommand c s = .next t → t.responses = s.responses ++ [⟨st, r⟩] →
    decode c.header c.payload ≠ .ok .srst →
    (∀ d : Word, d.getLsbD 0 = true → decode c.header c.payload ≠ .ok (.wrreg 1#8 d)) →
    (s.err = true → t.err = true) ∧
    (∀ e, st = .error e → t.err = true ∧ t.errcode = errorCodeBits e) ∧
    ((∀ e, st ≠ .error e) → t.err = s.err ∧ t.errcode = s.errcode)

/-- ERR does not block: whatever ERR and ERRCODE hold, a command that does not read them has the same effect and the same
response (60_exceptions.md R255). -/
def Obligations.ErrNeverChangesWhatACommandDoes : Prop :=
  ∀ (i : Instr) (s t : State) (e : Bool) (c : BitVec 4),
    i ≠ .rdreg 1#8 → i ≠ .rdreg 2#8 → exec i s = .next t →
    ∃ u, exec i { s with err := e, errcode := c } = .next u ∧ { u with err := t.err, errcode := t.errcode } = t

/-! ### Reset and the host access commands -/

/-- The registers after reset, for every legal parameter triple; every memory entry reads as its free draw, a value of the
entry's width; and the reset event gives that state whatever state it meets (70_reset_and_hazards.md R270, 20_memory.md R68).
The form of the draw, that the next reset sees the next draw, and that pending host operations stay are the model's
conventions (log 2, log 5). -/
def Obligations.ResetSetsEveryRegister : Prop :=
  (∀ p : Params,
    (State.resetWith p).params = p ∧
    readReg (State.resetWith p) .id = BitVec.ofNat 64 (p.mBits + p.lBits * 2 ^ 8 + p.sdBits * 2 ^ 16 + 2 ^ 24) ∧
    (∀ reg v, (reg, v) ∈ [(Reg.status, 0), (.errcode, 0), (.encState, 0), (.decState, 0), (.sp, 0), (.decSym, 0),
        (.bonus, 0), (.decRemain, 0), (.divf, 1), (.divsh, p.lBits + 8), (.divmul, 2 ^ (p.lBits + 8))] →
      readReg (State.resetWith p) reg = BitVec.ofNat 64 v)) ∧
  readReg State.reset .id = 0x01101810#64 ∧
  (∀ (p : Params) (i : Nat),
    readWgt (State.resetWith p) i = Config.wgtDraw 0 i ∧
    readStk (State.resetWith p) i = Config.stkDraw 0 i ∧
    readCum (State.resetWith p) i = (Config.cumDraw 0 i).toNat % 2 ^ (p.mBits + 1)) ∧
  (∀ (s : State) (rest : List HostOp), s.input = .reset :: rest →
    step s = .next { State.resetWith s.params with resets := s.resets + 1, input := rest })

/-- NOP does nothing; `00000000` is its only header, with any payload (45_host_access.md R210). -/
def Obligations.NopDoesNothing : Prop :=
  (∀ d : Word, decode 0x00000000#32 d = .ok .nop) ∧
  (∀ (h : Header) (d : Word), decode h d = .ok .nop → h = 0x00000000#32) ∧
  (∀ s : State, exec .nop s = .next { s with responses := s.responses ++ [⟨.ok, 0#64⟩] })

/-- SRST sets every register to its reset value and keeps WGT, CUM and STK (45_host_access.md R211). -/
def Obligations.SrstResetsRegistersKeepsMemories : Prop :=
  (∀ d : Word, decode 0x01000000#32 d = .ok .srst) ∧
  (∀ s : State, exec .srst s = .next { State.resetWith s.params with
    resets := s.resets, wgt := s.wgt, cum := s.cum, stk := s.stk, input := s.input,
    responses := s.responses ++ [⟨.ok, 0#64⟩] })

/-- RDREG returns the register zero-extended, BONUS its 64-bit signed pattern, and fails for numbers 12 to 255; it changes
nothing (45_host_access.md R212). -/
def Obligations.RdregReturnsTheRegister : Prop :=
  (∀ (a : Byte) (d : Word), decode (0x02#8 ++ a ++ 0#16) d = .ok (.rdreg a)) ∧
  (∀ (s : State) (r : Byte) (v : Word),
    (r.toNat, v) ∈ [
      (0, BitVec.ofNat 64 (s.params.mBits + s.params.lBits * 2 ^ 8 + s.params.sdBits * 2 ^ 16 + 2 ^ 24)),
      (1, BitVec.ofNat 64 (s.err.toNat + 2 * s.eos.toNat + 4 * s.tv.toNat + 8 * s.low.toNat)),
      (2, BitVec.ofNat 64 s.errcode.toNat), (3, BitVec.ofNat 64 s.encState), (4, BitVec.ofNat 64 s.decState),
      (5, BitVec.ofNat 64 s.sp), (6, BitVec.ofNat 64 s.decSym.toNat), (7, s.bonus), (8, BitVec.ofNat 64 s.decRemain),
      (9, BitVec.ofNat 64 s.divf), (10, BitVec.ofNat 64 s.divsh), (11, BitVec.ofNat 64 s.divmul)] →
    exec (.rdreg r) s = .next { s with responses := s.responses ++ [⟨.ok, v⟩] }) ∧
  (∀ (s : State) (r : Byte), 12 ≤ r.toNat → exec (.rdreg r) s = .next (raise .badOperand s))

/-- WRREG, register by register (45_host_access.md R213). -/
def Obligations.WrregWritesTheWritableRegisters : Prop :=
  (∀ (a : Byte) (d : Word), decode (0x03#8 ++ a ++ 0#16) d = .ok (.wrreg a d)) ∧
  (∀ (s : State) (r : Byte) (d : Word), r.toNat ∈ [0, 2, 6, 7, 9, 10, 11] ∨ 12 ≤ r.toNat →
    exec (.wrreg r d) s = .next (raise .badOperand s)) ∧
  (∀ (s : State) (d : Word),
    (d.getLsbD 0 = true → exec (.wrreg 1#8 d) s = .next (respond .ok 0#64 { s with err := false, errcode := 0#4 })) ∧
    (d.getLsbD 0 = false → exec (.wrreg 1#8 d) s = .next (respond .ok 0#64 s)) ∧
    (d.toNat < 2 ^ (s.params.lBits + 8) →
      exec (.wrreg 3#8 d) s = .next (respond .ok 0#64 { s with encState := d.toNat, low := false }) ∧
      exec (.wrreg 4#8 d) s = .next (respond .ok 0#64 { s with decState := d.toNat, eos := false })) ∧
    (2 ^ (s.params.lBits + 8) ≤ d.toNat →
      exec (.wrreg 3#8 d) s = .next (raise .badOperand s) ∧ exec (.wrreg 4#8 d) s = .next (raise .badOperand s)) ∧
    (d.toNat ≤ 2 ^ s.params.sdBits → exec (.wrreg 5#8 d) s = .next (respond .ok 0#64 { s with sp := d.toNat })) ∧
    (2 ^ s.params.sdBits < d.toNat → exec (.wrreg 5#8 d) s = .next (raise .badOperand s)) ∧
    (d.toNat < 2 ^ 32 → exec (.wrreg 8#8 d) s = .next (respond .ok 0#64 { s with decRemain := d.toNat })) ∧
    (2 ^ 32 ≤ d.toNat → exec (.wrreg 8#8 d) s = .next (raise .badOperand s)))

/-- PUSHB writes its byte at index SP, advances SP and changes no other entry; a full stack is STACK_OVERFLOW with STK and SP
unchanged (45_host_access.md R214). -/
def Obligations.PushbPushesOneByte : Prop :=
  (∀ (a : Byte) (d : Word), decode (0x20#8 ++ a ++ 0#16) d = .ok (.pushb a)) ∧
  (∀ (s : State) (b : Byte),
    (s.sp < 2 ^ s.params.sdBits → ∃ t, exec (.pushb b) s = .next t ∧
      t = { s with stk := t.stk, sp := s.sp + 1, responses := s.responses ++ [⟨.ok, 0#64⟩] } ∧
      readStk t s.sp = b ∧ ∀ j, j ≠ s.sp → readStk t j = readStk s j) ∧
    (s.sp = 2 ^ s.params.sdBits → exec (.pushb b) s = .next (raise .stackOverflow s)))

/-- POPB answers the top byte and lowers SP; every entry keeps its value; an empty stack is STACK_UNDERFLOW
(45_host_access.md R215). -/
def Obligations.PopbPopsOneByte : Prop :=
  (∀ d : Word, decode 0x21000000#32 d = .ok .popb) ∧
  (∀ s : State,
    (∀ n, s.sp = n + 1 → exec .popb s =
      .next { s with sp := n, responses := s.responses ++ [⟨.ok, (readStk s n).setWidth 64⟩] }) ∧
    (s.sp = 0 → exec .popb s = .next (raise .stackUnderflow s)))

/-- RDSTK answers the entry, whether or not its index is below SP, and changes nothing; an index of STACK_DEPTH or more is
BAD_OPERAND (45_host_access.md R216). -/
def Obligations.RdstkReadsByIndex : Prop :=
  (∀ (b : BitVec 16) (d : Word), decode (0x22#8 ++ 0#8 ++ b) d = .ok (.rdstk b)) ∧
  (∀ (s : State) (i : BitVec 16),
    (i.toNat < 2 ^ s.params.sdBits → exec (.rdstk i) s =
      .next { s with responses := s.responses ++ [⟨.ok, (readStk s i.toNat).setWidth 64⟩] }) ∧
    (2 ^ s.params.sdBits ≤ i.toNat → exec (.rdstk i) s = .next (raise .badOperand s)))

/-- WRSTK writes its byte at its index and no other entry, and leaves SP; an index of STACK_DEPTH or more is BAD_OPERAND
(45_host_access.md R217). -/
def Obligations.WrstkWritesByIndex : Prop :=
  (∀ (a : Byte) (b : BitVec 16) (d : Word), decode (0x23#8 ++ a ++ b) d = .ok (.wrstk a b)) ∧
  (∀ (s : State) (b : Byte) (i : BitVec 16),
    (i.toNat < 2 ^ s.params.sdBits → ∃ t, exec (.wrstk b i) s = .next t ∧
      t = { s with stk := t.stk, responses := s.responses ++ [⟨.ok, 0#64⟩] } ∧
      readStk t i.toNat = b ∧ ∀ j, j ≠ i.toNat → readStk t j = readStk s j) ∧
    (2 ^ s.params.sdBits ≤ i.toNat → exec (.wrstk b i) s = .next (raise .badOperand s)))

/-! ### The frequency model -/

/-- WRWGT writes one weight and no other, and does not touch TV; `D >= 2^32` is BAD_OPERAND (41_frequency_model.md R113). -/
def Obligations.WrwgtWritesOneWeight : Prop :=
  (∀ (a : Byte) (d : Word), decode (0x10#8 ++ a ++ 0#16) d = .ok (.wrwgt a d)) ∧
  (∀ (s : State) (sym : Byte) (d : Word),
    (d.toNat < 2 ^ 32 → ∃ t, exec (.wrwgt sym d) s = .next t ∧
      t = { s with wgt := t.wgt, responses := s.responses ++ [⟨.ok, 0#64⟩] } ∧
      (readWgt t sym.toNat).toNat = d.toNat ∧ ∀ j, j ≠ sym.toNat → readWgt t j = readWgt s j) ∧
    (2 ^ 32 ≤ d.toNat → exec (.wrwgt sym d) s = .next (raise .badOperand s)))

/-- RDWGT answers the weight and changes nothing (41_frequency_model.md R114). -/
def Obligations.RdwgtReadsOneWeight : Prop :=
  (∀ (a : Byte) (d : Word), decode (0x11#8 ++ a ++ 0#16) d = .ok (.rdwgt a)) ∧
  (∀ (s : State) (sym : Byte), exec (.rdwgt sym) s =
    .next { s with responses := s.responses ++ [⟨.ok, BitVec.ofNat 64 (readWgt s sym.toNat).toNat⟩] })

/-- WRCUM writes one entry and no other and clears TV, even if the value is the old one; an index above 256 or a value of
`2^(M_BITS+1)` or more is BAD_OPERAND with CUM and TV unchanged (41_frequency_model.md R115). -/
def Obligations.WrcumWritesOneEntryClearsTv : Prop :=
  (∀ (b : BitVec 16) (d : Word), decode (0x12#8 ++ 0#8 ++ b) d = .ok (.wrcum b d)) ∧
  (∀ (s : State) (i : BitVec 16) (d : Word),
    (i.toNat ≤ 256 → d.toNat < 2 ^ (s.params.mBits + 1) → ∃ t, exec (.wrcum i d) s = .next t ∧
      t = { s with cum := t.cum, tv := false, responses := s.responses ++ [⟨.ok, 0#64⟩] } ∧
      readCum t i.toNat = d.toNat ∧ ∀ j, j ≠ i.toNat → readCum t j = readCum s j) ∧
    (256 < i.toNat ∨ 2 ^ (s.params.mBits + 1) ≤ d.toNat → exec (.wrcum i d) s = .next (raise .badOperand s)))

/-- RDCUM answers the entry and changes nothing; an index above 256 is BAD_OPERAND (41_frequency_model.md R116). -/
def Obligations.RdcumReadsOneEntry : Prop :=
  (∀ (b : BitVec 16) (d : Word), decode (0x13#8 ++ 0#8 ++ b) d = .ok (.rdcum b)) ∧
  (∀ (s : State) (i : BitVec 16),
    (i.toNat ≤ 256 → exec (.rdcum i) s =
      .next { s with responses := s.responses ++ [⟨.ok, BitVec.ofNat 64 (readCum s i.toNat)⟩] }) ∧
    (256 < i.toNat → exec (.rdcum i) s = .next (raise .badOperand s)))

/-- CHKTAB sets TV exactly when the three table invariants hold; otherwise it raises TABLE_INVALID with TV = 0, which on
every state of the invariant is the value TV has already (41_frequency_model.md R112). -/
def Obligations.ChktabValidatesTheTable : Prop :=
  (∀ d : Word, decode 0x15000000#32 d = .ok .chktab) ∧
  (∀ s : State,
    (readCum s 0 = 0 ∧ readCum s 256 = 2 ^ s.params.mBits ∧ (∀ i, i ≤ 255 → readCum s i ≤ readCum s (i + 1)) →
      exec .chktab s = .next { s with tv := true, responses := s.responses ++ [⟨.ok, 0#64⟩] }) ∧
    (¬(readCum s 0 = 0 ∧ readCum s 256 = 2 ^ s.params.mBits ∧ (∀ i, i ≤ 255 → readCum s i ≤ readCum s (i + 1))) →
      exec .chktab s = .next (raise .tableInvalid { s with tv := false }) ∧ (s.Inv → s.tv = false)))

/-- In a valid table every frequency is at most M and the 256 frequencies sum to M (41_frequency_model.md R101). -/
def Obligations.ValidTableFrequenciesSumToM : Prop :=
  ∀ s : State, readCum s 0 = 0 → (∀ i < 256, readCum s i ≤ readCum s (i + 1)) → readCum s 256 = s.params.M →
    (∀ sym < 256, (freq s sym : Int) = (readCum s (sym + 1) : Int) - readCum s sym ∧ freq s sym ≤ s.params.M) ∧
    ∑ sym ∈ Finset.range 256, freq s sym = s.params.M

/-- TV through every command: only BUILD, CHKTAB, WRCUM and SRST change it, and a table that is valid whenever TV = 1 stays so
(41_frequency_model.md R117). -/
def Obligations.TvLifeCycle : Prop :=
  (∀ p : Params, (State.resetWith p).tv = false) ∧
  (∀ (i : Instr) (s t : State) (st : Status) (r : Word),
    exec i s = .next t → t.responses = s.responses ++ [⟨st, r⟩] →
    (i = .srst → t.tv = false) ∧
    (i = .build ∨ i = .chktab → st = .ok → t.tv = true) ∧
    (i = .build → st ≠ .ok → t.tv = s.tv) ∧
    (i = .chktab → st ≠ .ok → t.tv = false) ∧
    ((∃ a d, i = .wrcum a d) → st = .ok → t.tv = false) ∧
    ((∃ a d, i = .wrcum a d) → st ≠ .ok → t.tv = s.tv) ∧
    (i ≠ .srst → i ≠ .build → i ≠ .chktab → (∀ a d, i ≠ .wrcum a d) → t.tv = s.tv) ∧
    ((s.tv = true → tableValid s = true) → t.tv = true → tableValid t = true))

/-- The rounding of BUILD: with `scaled < 1` the frequency is 1, with `scaled` an integer it is `scaled`, and always it is
`down` or `down + 1`, the latter exactly when `scaled^2 >= down * up` (41_frequency_model.md R105). -/
def Obligations.RoundingChoosesDownOrUp : Prop :=
  ∀ total sum w : Nat, 0 < sum → 0 < w → 0 < total →
    let scaled : ℚ := (w : ℚ) * total / sum
    let down := ⌊scaled⌋₊
    roundedFreq total sum w = (if scaled ^ 2 ≥ (down : ℚ) * (down + 1) then down + 1 else down) ∧
    (scaled < 1 → roundedFreq total sum w = 1) ∧ (∀ n : Nat, scaled = n → roundedFreq total sum w = n)

/-- The model's comparison of costs is the comparison of the real numbers `p * log2(c / (c + δ))`
(41_frequency_model.md R107). -/
def Obligations.CostComparisonIsExact : Prop :=
  ∀ (up : Bool) (a b : WorkEntry) (T : Nat), 0 < T → 0 < a.weight → 0 < b.weight →
    (if up then 1 ≤ a.freq ∧ 1 ≤ b.freq else 2 ≤ a.freq ∧ 2 ≤ b.freq) →
    let δ : ℝ := if up then 1 else -1
    (costLt up a b = true ↔
      (a.weight / T : ℝ) * Real.logb 2 (a.freq / (a.freq + δ)) < (b.weight / T : ℝ) * Real.logb 2 (b.freq / (b.freq + δ)))

/-- BUILD succeeds exactly when `1 <= K <= M`, with K the number of non-zero weights, and raises DEGENERATE_DISTRIBUTION
otherwise. On success CUM is a valid table with frequency at least 1 exactly for the non-zero weights, TV = 1, the response is
a signed number in `[-256, 256)`, whose value BuildFollowsTheGreedyRules gives, and nothing else changes
(41_frequency_model.md R110, R111). -/
def Obligations.BuildMakesAValidTableOrFails : Prop :=
  (∀ d : Word, decode 0x14000000#32 d = .ok .build) ∧
  (∀ s : State,
    let K := ((Finset.range 256).filter fun i => readWgt s i ≠ 0#32).card
    (K = 0 ∨ 2 ^ s.params.mBits < K → exec .build s = .next (raise .degenerateDistribution s)) ∧
    (1 ≤ K → K ≤ 2 ^ s.params.mBits → ∃ (t : State) (d0 : Int),
      exec .build s = .next t ∧ -256 ≤ d0 ∧ d0 < 256 ∧
      t = { s with cum := t.cum, tv := true, responses := s.responses ++ [⟨.ok, BitVec.ofInt 64 d0⟩] } ∧
      tableValid t = true ∧ ∀ i < 256, (1 ≤ freq t i ↔ readWgt s i ≠ 0#32)))

/-- BUILD's table is the one the rules fix: the rounded frequencies, then one pass for each unit of the correction, each moving
by one the least symbol of least cost among the candidates, costs compared as real numbers; then the prefix sums. The
response is the correction (41_frequency_model.md R104 to R109). -/
def Obligations.BuildFollowsTheGreedyRules : Prop :=
  ∀ s t : State, exec .build s = .next t → (∃ r, t.responses = s.responses ++ [⟨.ok, r⟩]) →
    let M : Nat := 2 ^ s.params.mBits
    let w : Nat → Nat := fun i => (readWgt s i).toNat
    let T := ∑ i ∈ Finset.range 256, w i
    ∃ c : Nat → Nat → Nat,
      let d0 : Int := (M : Int) - ∑ i ∈ Finset.range 256, (c 0 i : Int)
      let δ : Int := if 0 < d0 then 1 else -1
      let cost : Nat → Nat → ℝ := fun k q => (w q / T : ℝ) * Real.logb 2 ((c k q : ℝ) / ((c k q : ℝ) + (δ : ℝ)))
      let cand : Nat → Nat → Prop := fun k q => q < 256 ∧ w q ≠ 0 ∧ (δ = -1 → 2 ≤ c k q)
      (∀ i < 256, c 0 i = if w i = 0 then 0 else
        if (w i * M) ^ 2 ≥ (w i * M / T) * (w i * M / T + 1) * T ^ 2 then w i * M / T + 1 else w i * M / T) ∧
      (∀ k < d0.natAbs, ∃ p, cand k p ∧ (∀ q, cand k q → cost k p ≤ cost k q) ∧
        (∀ q < p, cand k q → cost k p < cost k q) ∧
        ∀ i < 256, (c (k + 1) i : Int) = c k i + if i = p then δ else 0) ∧
      (∀ i ≤ 256, readCum t i = ∑ j ∈ Finset.range i, c d0.natAbs j) ∧ t.tv = true ∧
      t.responses = s.responses ++ [⟨.ok, BitVec.ofInt 64 d0⟩]

/-! ### The fast divider -/

/-- The construction is exact: for every divisor from 1 to M and every dividend below `2^N`, multiply and shift is the floor
quotient (42_fast_divider.md R132). -/
def Obligations.FastDivisionIsExact : Prop :=
  ∀ (p : Params) (x f : Nat), 1 ≤ f → f ≤ p.M → x < 2 ^ p.N → (x * divMult p f) / 2 ^ divShift p f = x / f

/-- The shift is the least one at or above N with `f <= 2^(shift - N)`, at most N + M_BITS, and the multiplier the ceiling of `2^shift / f`
(42_fast_divider.md R130, R131). -/
def Obligations.DividerParametersAreTheConstruction : Prop :=
  ∀ (p : Params) (f : Nat), 1 ≤ f → f ≤ p.M →
    IsLeast { sh : Nat | p.N ≤ sh ∧ f ≤ 2 ^ (sh - p.N) } (divShift p f) ∧
    p.N ≤ divShift p f ∧ divShift p f ≤ p.N + p.mBits ∧
    (divMult p f : Int) = ⌈(2 ^ divShift p f : ℚ) / f⌉

/-- The multiplier needs N + 1 bits, its lower bound is reached exactly by the powers of two, the product needs at most 2N + 1
bits, and the shift is at most N + M_BITS (42_fast_divider.md R133). -/
def Obligations.DividerWidths : Prop :=
  ∀ (p : Params) (f : Nat), 1 ≤ f → f ≤ p.M →
    2 ^ p.N ≤ divMult p f ∧ divMult p f ≤ 2 ^ (p.N + 1) - 1 ∧
    (divMult p f = 2 ^ p.N ↔ ∃ k, f = 2 ^ k) ∧
    (∀ x < 2 ^ p.N, x * divMult p f < 2 ^ (2 * p.N + 1)) ∧
    p.N ≤ divShift p f ∧ divShift p f ≤ p.N + p.mBits

/-- DIVP latches the divisor, its shift and its multiplier and answers the multiplier; a divisor outside `[1, M]` is
BAD_OPERAND with all three unchanged (42_fast_divider.md R135). -/
def Obligations.DivpLatchesTheParameters : Prop :=
  (∀ d : Word, decode 0x40000000#32 d = .ok (.divp d)) ∧
  (∀ (s : State) (d : Word),
    (1 ≤ d.toNat → d.toNat ≤ 2 ^ s.params.mBits → exec (.divp d) s =
      .next { s with divf := d.toNat, divsh := divShift s.params d.toNat, divmul := divMult s.params d.toNat,
                     responses := s.responses ++ [⟨.ok, BitVec.ofNat 64 (divMult s.params d.toNat)⟩] }) ∧
    (d.toNat = 0 ∨ 2 ^ s.params.mBits < d.toNat → exec (.divp d) s = .next (raise .badOperand s)))

/-- DIVQ answers the true quotient by the latched divisor and changes nothing; a dividend of `2^N` or more is BAD_OPERAND
(42_fast_divider.md R136). -/
def Obligations.DivqDividesByTheLatchedDivisor : Prop :=
  (∀ d : Word, decode 0x41000000#32 d = .ok (.divq d)) ∧
  (∀ (s : State) (d : Word),
    (s.Inv → d.toNat < 2 ^ (s.params.lBits + 8) → exec (.divq d) s =
      .next { s with responses := s.responses ++ [⟨.ok, BitVec.ofNat 64 (d.toNat / s.divf)⟩] }) ∧
    (d.toNat < 2 ^ (s.params.lBits + 8) → d.toNat * s.divmul / 2 ^ s.divsh ≠ d.toNat / s.divf →
      exec (.divq d) s = .next (raise .divMismatch s)) ∧
    (2 ^ (s.params.lBits + 8) ≤ d.toNat → exec (.divq d) s = .next (raise .badOperand s)))

/-! ### The encoder -/

/-- ENCINIT seeds the encoder with HALF + bonus and empties the stack pointer; a bonus of HALF or more is BAD_OPERAND. The
seed lies in `[HALF, L)` (43_encoder.md R151). -/
def Obligations.EncinitSeedsTheEncoder : Prop :=
  (∀ d : Word, decode 0x30000000#32 d = .ok (.encinit d)) ∧
  (∀ (s : State) (d : Word),
    let half := 2 ^ (s.params.lBits - 1)
    (d.toNat < half → exec (.encinit d) s =
        .next { s with encState := half + d.toNat, sp := 0, low := false, responses := s.responses ++ [⟨.ok, 0#64⟩] } ∧
      half ≤ half + d.toNat ∧ half + d.toNat < 2 ^ s.params.lBits) ∧
    (half ≤ d.toNat → exec (.encinit d) s = .next (raise .badOperand s)))

/-- The operand checks of ENC, in their order: TV, the frequency, the state (43_encoder.md R152). -/
def Obligations.EncChecksInOrder : Prop :=
  ∀ (s : State) (sym : Byte),
    (s.tv = false → exec (.enc sym) s = .next (raise .tableInvalid s)) ∧
    (s.tv = true → freq s sym.toNat = 0 → exec (.enc sym) s = .next (raise .invalidSymbol s)) ∧
    (s.tv = true → freq s sym.toNat ≠ 0 → s.encState < 2 ^ (s.params.lBits - 1) →
      exec (.enc sym) s = .next (raise .stateRange s))

/-- ENC of a symbol of non-zero frequency: `n` is the least number of bytes after which the state is below
`2^(8 + L_BITS - M_BITS) * count`; those bytes go on the stack least significant first; the new state is
`(x div count) * M + CUM[s] + x mod count` by true division; LOW is set if it is below L; the response is `n`. If the
bytes do not fit, STACK_OVERFLOW with nothing pushed (43_encoder.md R153 to R155). -/
def Obligations.EncEncodesOneSymbol : Prop :=
  (∀ (a : Byte) (d : Word), decode (0x31#8 ++ a ++ 0#16) d = .ok (.enc a)) ∧
  (∀ (s : State) (sym : Byte) (n : Nat), s.Inv → s.tv = true → freq s sym.toNat ≠ 0 →
    2 ^ (s.params.lBits - 1) ≤ s.encState →
    let count := freq s sym.toNat
    let xmax := 2 ^ (8 + s.params.lBits - s.params.mBits) * count
    s.encState / 256 ^ n < xmax → (∀ k < n, xmax ≤ s.encState / 256 ^ k) →
    (s.sp + n ≤ 2 ^ s.params.sdBits → ∃ t, exec (.enc sym) s = .next t ∧
      t = { s with encState := t.encState, sp := s.sp + n, stk := t.stk, low := t.low,
                   responses := s.responses ++ [⟨.ok, BitVec.ofNat 64 n⟩] } ∧
      t.encState = s.encState / 256 ^ n / count * 2 ^ s.params.mBits + readCum s sym.toNat + s.encState / 256 ^ n % count ∧
      (t.low = true ↔ s.low = true ∨ t.encState < 2 ^ s.params.lBits) ∧
      (∀ k < n, (readStk t (s.sp + k)).toNat = s.encState / 256 ^ k % 256) ∧
      (∀ j, j < s.sp ∨ s.sp + n ≤ j → readStk t j = readStk s j)) ∧
    (2 ^ s.params.sdBits < s.sp + n → exec (.enc sym) s = .next (raise .stackOverflow s)))

/-- ENC pushes at most `ceil(M_BITS / 8)` bytes, and no more than the state has (43_encoder.md R153; 20_memory.md R65). -/
def Obligations.EncPushesAtMostCeilMBitsOver8 : Prop :=
  ∀ (s t : State) (sym : Byte), s.Inv → exec (.enc sym) s = .next t →
    t.sp ≤ s.sp + (s.params.mBits + 7) / 8 ∧ t.sp ≤ s.sp + byteLen s.encState

/-- Every successful ENC leaves a state below `B * L = 2^N` (43_encoder.md R156). -/
def Obligations.EncStateStaysBelowBL : Prop :=
  ∀ (s t : State) (sym : Byte) (r : Word), s.Inv → exec (.enc sym) s = .next t →
    t.responses = s.responses ++ [⟨.ok, r⟩] → t.encState < 2 ^ (s.params.lBits + 8)

/-- After a successful ENC the state is at least L exactly when the renormalized state is at least `K_LM * count`; and this
holds when the input was at least L, when at least one byte was pushed, and when `count <= M / 2` (43_encoder.md R157). -/
def Obligations.EncStateAboveLExactlyWhen : Prop :=
  ∀ (s t : State) (sym : Byte) (n : Nat), s.Inv → exec (.enc sym) s = .next t →
    t.responses = s.responses ++ [⟨.ok, BitVec.ofNat 64 n⟩] → t.sp = s.sp + n →
    let count := freq s sym.toNat
    let kLM := 2 ^ (s.params.lBits - s.params.mBits)
    (s.params.L ≤ t.encState ↔ kLM * count ≤ s.encState / 256 ^ n) ∧
    (s.params.L ≤ s.encState → s.params.L ≤ t.encState) ∧
    (1 ≤ n → s.params.L ≤ t.encState) ∧
    (kLM * count ≤ s.encState → s.params.L ≤ t.encState) ∧
    (2 * count ≤ s.params.M → s.params.L ≤ t.encState)

/-- ENC reads exactly `CUM[s]` and `CUM[s+1]`: two states that differ in the other entries of CUM, in WGT, in the decoder's
registers or in the divider's registers encode alike, and those are left as they were (43_encoder.md R159). -/
def Obligations.EncReadsOnlyTwoTableEntries : Prop :=
  ∀ (s t : State) (sym : Byte) (c : Memory Nat) (w : Memory (BitVec 32)) (f sh m ds dr : Nat) (dy : Byte) (bo : Word),
    readCum { s with cum := c } sym.toNat = readCum s sym.toNat →
    readCum { s with cum := c } (sym.toNat + 1) = readCum s (sym.toNat + 1) →
    exec (.enc sym) s = .next t →
    exec (.enc sym) { s with cum := c, wgt := w, divf := f, divsh := sh, divmul := m, decState := ds, decRemain := dr,
                             decSym := dy, bonus := bo } =
      .next { t with cum := c, wgt := w, divf := f, divsh := sh, divmul := m, decState := ds, decRemain := dr,
                     decSym := dy, bonus := bo }

/-- ENCFLUSH pushes the `n` bytes of the state, least significant first, where `n` is the number of bytes the state has
without leading zero bytes; it clears the state and leaves LOW; if the bytes do not fit, STACK_OVERFLOW with nothing pushed
(43_encoder.md R160). -/
def Obligations.EncflushPushesTheState : Prop :=
  (∀ d : Word, decode 0x32000000#32 d = .ok .encflush) ∧
  (∀ (s : State) (n : Nat), s.encState < 256 ^ n → (∀ k < n, 256 ^ k ≤ s.encState) →
    (s.sp + n ≤ 2 ^ s.params.sdBits → ∃ t, exec .encflush s = .next t ∧
      t = { s with encState := 0, sp := s.sp + n, stk := t.stk, responses := s.responses ++ [⟨.ok, BitVec.ofNat 64 n⟩] } ∧
      (∀ k < n, (readStk t (s.sp + k)).toNat = s.encState / 256 ^ k % 256) ∧
      (∀ j, j < s.sp ∨ s.sp + n ≤ j → readStk t j = readStk s j)) ∧
    (2 ^ s.params.sdBits < s.sp + n → exec .encflush s = .next (raise .stackOverflow s)))

/-! ### The decoder -/

/-- DECINIT loads the decoder state and clears EOS and changes nothing else; a state of `2^N` or more is BAD_OPERAND
(44_decoder.md R181). -/
def Obligations.DecinitLoadsTheState : Prop :=
  (∀ d : Word, decode 0x38000000#32 d = .ok (.decinit d)) ∧
  (∀ (s : State) (d : Word),
    (d.toNat < 2 ^ (s.params.lBits + 8) → exec (.decinit d) s =
      .next { s with decState := d.toNat, eos := false, responses := s.responses ++ [⟨.ok, 0#64⟩] }) ∧
    (2 ^ (s.params.lBits + 8) ≤ d.toNat → exec (.decinit d) s = .next (raise .badOperand s)))

/-- DEC. With TV = 0 it raises TABLE_INVALID before the refill. Otherwise `y` is the sequence of states the refill folds bytes
into, from the top of the stack, and `k` the number of bytes it pops: it stops at the first state of L or more, or when the
stack is empty. Below L the stream has ended: BONUS, EOS, and END or STREAM_UNDERFLOW by DEC_REMAIN. At L or more the symbol is
the one whose interval holds `y k mod M`, and the state, DEC_SYM, EOS and DEC_REMAIN are updated (44_decoder.md R182 to R187).
For a state 0 and a top byte 0 this is the loop of R182 whatever the number of its pops, not the bound `ceil(N / 8)` on them that
R182 and 70_reset_and_hazards.md R283 give: the model's reading (log 11). -/
def Obligations.DecDecodesOneSymbolOrEnds : Prop :=
  (∀ d : Word, decode 0x39000000#32 d = .ok .dec) ∧
  (∀ s : State, s.tv = false → exec .dec s = .next (raise .tableInvalid s)) ∧
  (∀ (s : State) (y : Nat → Nat) (k : Nat), s.Inv → s.tv = true →
    y 0 = s.decState → (∀ j < s.sp, y (j + 1) = y j * 256 + (readStk s (s.sp - 1 - j)).toNat) →
    k ≤ s.sp → (∀ j < k, y j < s.params.L) → (s.params.L ≤ y k ∨ k = s.sp) →
    let bonus := BitVec.ofInt 64 ((y k : Int) - 2 ^ (s.params.lBits - 1))
    (y k < s.params.L → s.decRemain = 0 → exec .dec s =
      .next { s with decState := y k, sp := s.sp - k, bonus := bonus, eos := true,
                     responses := s.responses ++ [⟨.endOfStream, bonus⟩] }) ∧
    (y k < s.params.L → s.decRemain ≠ 0 → exec .dec s =
      .next { s with decState := y k, sp := s.sp - k, bonus := bonus, eos := true, err := true, errcode := 6#4,
                     responses := s.responses ++ [⟨.error .streamUnderflow, bonus⟩] }) ∧
    (s.params.L ≤ y k → ∃ sym : Byte,
      readCum s sym.toNat ≤ y k % s.params.M ∧ y k % s.params.M < readCum s (sym.toNat + 1) ∧
      exec .dec s =
        .next { s with decState := y k / s.params.M * (readCum s (sym.toNat + 1) - readCum s sym.toNat) +
                                     (y k % s.params.M - readCum s sym.toNat),
                       sp := s.sp - k, decSym := sym, eos := false, decRemain := s.decRemain - 1,
                       responses := s.responses ++ [⟨.ok, BitVec.ofNat 64 sym.toNat⟩] }))

/-- In a valid table exactly one symbol's interval holds a slot below M, and its frequency is at least 1
(44_decoder.md R184). -/
def Obligations.SlotHasOneSymbol : Prop :=
  ∀ (s : State) (v : Nat), tableValid s = true → v < s.params.M →
    ∃! sym : Nat, sym < 256 ∧ readCum s sym ≤ v ∧ v < readCum s (sym + 1) ∧ 1 ≤ freq s sym

/-- End-of-stream is stable: after END, a further DEC answers END with the same bonus and changes nothing; after
STREAM_UNDERFLOW, a further DEC answers STREAM_UNDERFLOW with the same bonus and changes nothing; EOS stays 1
(70_reset_and_hazards.md R280). -/
def Obligations.EndOfStreamIsStable : Prop :=
  ∀ (s t : State) (st : Status) (r : Word), exec .dec s = .next t → t.responses = s.responses ++ [⟨st, r⟩] →
    st = .endOfStream ∨ st = .error .streamUnderflow →
    exec .dec t = .next { t with responses := t.responses ++ [⟨st, r⟩] } ∧ t.eos = true ∧ t.bonus = r

/-- The bytes one command moves: ENCFLUSH pushes at most `ceil(N / 8)`; DEC pops at most `ceil(N / 8)`, and fewer from a state
other than 0, unless its state is 0 and the top byte is 0 (44_decoder.md R182; 70_reset_and_hazards.md R283). A state 0 pops every
zero byte on top of the stack, however many there are: there the model follows the loop of R182 and not the bound (log 11). -/
def Obligations.BytesMovedByFlushAndRefill : Prop :=
  ∀ s t : State, s.Inv →
    (exec .encflush s = .next t → s.sp ≤ t.sp ∧ t.sp ≤ s.sp + (s.params.N + 7) / 8) ∧
    (exec .dec s = .next t → t.sp ≤ s.sp ∧
      (s.decState ≠ 0 → s.sp < t.sp + (s.params.N + 7) / 8) ∧
      (s.sp = 0 ∨ readStk s (s.sp - 1) ≠ 0#8 → s.sp ≤ t.sp + (s.params.N + 7) / 8) ∧
      (∀ k ≤ s.sp, s.tv = true → s.decState = 0 → (∀ j < k, readStk s (s.sp - 1 - j) = 0#8) → t.sp + k ≤ s.sp))

/-- DEC reads neither WGT nor the encoder's nor the divider's registers, and leaves them (44_decoder.md R188). -/
def Obligations.DecIgnoresEncoderAndDivider : Prop :=
  ∀ (s t : State) (w : Memory (BitVec 32)) (es f sh m : Nat), exec .dec s = .next t →
    exec .dec { s with wgt := w, encState := es, divf := f, divsh := sh, divmul := m } =
      .next { t with wgt := w, encState := es, divf := f, divsh := sh, divmul := m }

/-- DEC undoes ENC, one symbol: where an ENC succeeded and left a state of L or more, a DEC from that state yields its symbol,
and the refill of the DEC after it restores the state and the stack height before the ENC, provided that state was at least
L or the stack was empty (44_decoder.md R189). -/
def Obligations.DecUndoesEnc : Prop :=
  ∀ (s t : State) (sym : Byte) (r : Word), s.Inv → exec (.enc sym) s = .next t →
    t.responses = s.responses ++ [⟨.ok, r⟩] → s.params.L ≤ t.encState →
    (s.params.L ≤ s.encState ∨ s.sp = 0) →
    ∃ u, exec .dec { t with decState := t.encState } = .next u ∧
      u.responses = t.responses ++ [⟨.ok, BitVec.ofNat 64 sym.toNat⟩] ∧
      (refill u).decState = s.encState ∧ (refill u).sp = s.sp

/-- The round trip. With DEC_REMAIN = 0 and room on the stack for every byte the commands can push, over a valid table, encode a sequence of symbols of non-zero frequency in reverse with bonus `b`, flush, and
decode with one DEC more than there are symbols. The run goes on to its end, and the decoder's responses are the symbols in
forward order and then END with the bonus, if and only if the sequence is empty or `HALF + b >= K_LM * freq` of its last
symbol; and this is so exactly when LOW is 0 (44_decoder.md R189, R190). The run takes the commands from the list of the
host's pending operations, the model's convention (log 4). -/
def Obligations.RoundTripExactlyWhen : Prop :=
  ∀ (s : State) (b : Word) (symbols : List Byte), s.Inv → s.tv = true → s.decRemain = 0 →
    b.toNat < s.params.half → (∀ x ∈ symbols, freq s x.toNat ≠ 0) →
    symbols.length * ((s.params.mBits + 7) / 8) + (s.params.N + 7) / 8 ≤ s.params.stackDepth →
    let commands : List Instr := .encinit b :: symbols.reverse.map .enc ++ [.encflush, .decinit 0#64] ++
      List.replicate (symbols.length + 1) .dec
    s.input = commands.map (fun i => HostOp.command (encode i)) →
    let condition := ∀ x ∈ symbols.getLast?, s.params.kLM * freq s x.toNat ≤ s.params.half + b.toNat
    ∃ t, Host.Core.run core commands.length s = .next t ∧
      (t.responses.drop (s.responses.length + symbols.length + 3) =
          symbols.map (fun x => Response.mk .ok (BitVec.ofNat 64 x.toNat)) ++ [⟨.endOfStream, b⟩] ↔ condition) ∧
      (t.low = false ↔ condition) ∧ (condition → t.bonus = b)

/-! ### Memories and whole-machine rules -/

/-- Which commands can change which register, flag or memory, over all commands (10_state.md R22 to R34, R38): nothing else
writes it. -/
def Obligations.OnlyTheListedCommandsWrite : Prop :=
  ∀ (i : Instr) (s t : State), exec i s = .next t →
    t.params = s.params ∧ t.resets = s.resets ∧ t.input = s.input ∧
    (t.eos = s.eos ∨ i = .dec ∨ i = .srst ∨ ∃ d, i = .decinit d ∨ i = .wrreg 4#8 d) ∧
    (t.tv = s.tv ∨ i = .build ∨ i = .chktab ∨ i = .srst ∨ ∃ a d, i = .wrcum a d) ∧
    (t.low = s.low ∨ i = .srst ∨ ∃ a d, i = .enc a ∨ i = .encinit d ∨ i = .wrreg 3#8 d) ∧
    (t.encState = s.encState ∨ i = .encflush ∨ i = .srst ∨ ∃ a d, i = .enc a ∨ i = .encinit d ∨ i = .wrreg 3#8 d) ∧
    (t.decState = s.decState ∨ i = .dec ∨ i = .srst ∨ ∃ d, i = .decinit d ∨ i = .wrreg 4#8 d) ∧
    (t.sp = s.sp ∨ i = .popb ∨ i = .encflush ∨ i = .dec ∨ i = .srst ∨
      ∃ a d, i = .pushb a ∨ i = .enc a ∨ i = .encinit d ∨ i = .wrreg 5#8 d) ∧
    (t.decSym = s.decSym ∨ i = .dec ∨ i = .srst) ∧
    (t.bonus = s.bonus ∨ i = .dec ∨ i = .srst) ∧
    (t.decRemain = s.decRemain ∨ i = .dec ∨ i = .srst ∨ ∃ d, i = .wrreg 8#8 d) ∧
    ((t.divf = s.divf ∧ t.divsh = s.divsh ∧ t.divmul = s.divmul) ∨ i = .srst ∨ ∃ d, i = .divp d) ∧
    (t.wgt = s.wgt ∨ ∃ a d, i = .wrwgt a d) ∧
    (t.cum = s.cum ∨ i = .build ∨ ∃ a d, i = .wrcum a d) ∧
    (t.stk = s.stk ∨ i = .encflush ∨ ∃ a b, i = .pushb a ∨ i = .enc a ∨ i = .wrstk a b)

/-- Every register fits the width the register table gives it, in every state of the invariant (10_state.md R20, R31, R32). -/
def Obligations.RegistersFitTheirWidths : Prop :=
  ∀ s : State, s.Inv →
    s.encState < 2 ^ s.params.N ∧ s.decState < 2 ^ s.params.N ∧ s.sp < 2 ^ (s.params.sdBits + 1) ∧
    s.decRemain < 2 ^ 32 ∧ s.divf < 2 ^ (s.params.mBits + 1) ∧
    (s.params.N ≤ s.divsh ∧ s.divsh ≤ s.params.N + s.params.mBits ∧ s.divsh ≤ 118) ∧
    (2 ^ s.params.N ≤ s.divmul ∧ s.divmul < 2 ^ (s.params.N + 1)) ∧
    (∀ i, readCum s i < 2 ^ (s.params.mBits + 1))

/-- The invariant holds after reset, for every legal parameter triple and so for the machine's own reset state. -/
def Obligations.InvariantHoldsAfterReset : Prop := (∀ p : Params, (State.resetWith p).Inv) ∧ State.reset.Inv

/-- Every step keeps the invariant, from every state that has it. -/
def Obligations.StepKeepsTheInvariant : Prop := ∀ s t : State, s.Inv → step s = .next t → t.Inv

/-- The block never halts on its own: from every state of the invariant a step answers a next state, whatever the host
issued (70_reset_and_hazards.md R284). -/
def Obligations.BlockNeverHalts : Prop :=
  ∀ s : State, s.Inv → Continues (step s) ∧ ∀ i : Instr, Continues (exec i s)
end

