-- ==== Sys2Proof/Laws/Arith.lean ====
section
/-! SUPPORT. The number functions of 00_scope.md R12 and the constants of R7: what each equals, as inequalities between
powers. -/

namespace Sys2Proof

theorem Params.one_le_mBits (p : Params) : 1 ≤ p.mBits := p.legal.1
theorem Params.mBits_le_lBits (p : Params) : p.mBits ≤ p.lBits := p.legal.2.1
theorem Params.lBits_le (p : Params) : p.lBits ≤ 55 := p.legal.2.2.1
theorem Params.sdBits_le (p : Params) : p.sdBits ≤ 16 := p.legal.2.2.2

theorem Params.M_pos (p : Params) : 0 < p.M := Nat.two_pow_pos _
theorem Params.L_pos (p : Params) : 0 < p.L := Nat.two_pow_pos _
theorem Params.kLM_pos (p : Params) : 0 < p.kLM := Nat.two_pow_pos _
theorem Params.half_pos (p : Params) : 0 < p.half := Nat.two_pow_pos _

/-- `K_LM * M = L` (00_scope.md R7). -/
theorem Params.kLM_mul_M (p : Params) : p.kLM * p.M = p.L := by
  rw [Params.kLM, Params.M, Params.L, ← pow_add]
  congr 1
  have := p.mBits_le_lBits
  omega

/-- `BL = 256 * L` (00_scope.md R7). -/
theorem Params.BL_eq (p : Params) : p.BL = 256 * p.L := by
  rw [Params.BL, Params.N, Params.L, pow_add, mul_comm]; norm_num

/-- `L = 2 * HALF` (00_scope.md R7). -/
theorem Params.two_mul_half (p : Params) : 2 * p.half = p.L := by
  rw [Params.half, Params.L, ← pow_succ']
  congr 1
  have := p.one_le_mBits
  have := p.mBits_le_lBits
  omega

theorem Params.half_lt_L (p : Params) : p.half < p.L := by
  have := p.two_mul_half
  have := p.half_pos
  omega

theorem Params.M_le_L (p : Params) : p.M ≤ p.L := Nat.pow_le_pow_right (by norm_num) p.mBits_le_lBits

theorem Params.L_lt_BL (p : Params) : p.L < p.BL := by
  have := p.BL_eq
  have := p.L_pos
  omega

theorem Params.BL_le (p : Params) : p.BL ≤ 2 ^ 63 :=
  Nat.pow_le_pow_right (by norm_num) (by have := p.lBits_le; simp only [Params.N]; omega)

theorem Params.M_le (p : Params) : p.M ≤ 2 ^ 55 :=
  Nat.pow_le_pow_right (by norm_num) (p.mBits_le_lBits.trans p.lBits_le)

theorem Params.stackDepth_le (p : Params) : p.stackDepth ≤ 2 ^ 16 :=
  Nat.pow_le_pow_right (by norm_num) p.sdBits_le

namespace Machine

/-- `bitlen(v)` is the least `k` with `v < 2^k`. -/
theorem bitLen_le_iff (v k : Nat) : bitLen v ≤ k ↔ v < 2 ^ k := by
  rw [bitLen]
  split
  · next h => simp [h]
  · next h =>
    rw [Nat.add_one_le_iff, Nat.log2_lt h]

/-- `bytelen(v)` is the least `k` with `v < 256^k`. -/
theorem byteLen_le_iff (v k : Nat) : byteLen v ≤ k ↔ v < 256 ^ k := by
  have h : (256 : Nat) ^ k = 2 ^ (8 * k) := by rw [pow_mul]; norm_num
  rw [h, ← bitLen_le_iff, byteLen]
  omega

theorem lt_pow_byteLen (v : Nat) : v < 256 ^ byteLen v := (byteLen_le_iff v _).1 le_rfl

theorem pow_le_of_lt_byteLen {v k : Nat} (h : k < byteLen v) : 256 ^ k ≤ v := by
  by_contra hc
  have := (byteLen_le_iff v k).2 (not_le.1 hc)
  omega

/-- `clog2(f)` is the least `k` with `f <= 2^k`. -/
theorem clog2_le_iff {f : Nat} (hf : 1 ≤ f) (k : Nat) : clog2 f ≤ k ↔ f ≤ 2 ^ k := by
  rw [clog2, bitLen_le_iff]
  omega

theorem le_pow_clog2 {f : Nat} (hf : 1 ≤ f) : f ≤ 2 ^ clog2 f := (clog2_le_iff hf _).1 le_rfl

theorem clog2_le_mBits {p : Params} {f : Nat} (hf : 1 ≤ f) (hM : f ≤ p.M) : clog2 f ≤ p.mBits := (clog2_le_iff hf _).2 hM

/-- The multiplier is the ceiling: `2^shift <= mult * f < 2^shift + f` (42_fast_divider.md R131). -/
theorem divMult_bounds {p : Params} {f : Nat} (hf : 1 ≤ f) :
    2 ^ divShift p f ≤ divMult p f * f ∧ divMult p f * f < 2 ^ divShift p f + f := by
  have h := Nat.div_add_mod (2 ^ divShift p f + f - 1) f
  have h2 := Nat.mod_lt (2 ^ divShift p f + f - 1) hf
  have : 1 ≤ 2 ^ divShift p f := Nat.one_le_two_pow
  rw [← divMult, mul_comm] at h
  omega

end Machine

end Sys2Proof
end

