-- ==== Sys2Proof/Laws/State.lean ====
section
/-! SUPPORT. One lemma per field per update, and per memory read per update that does not touch the memory: what each shared
operation does to each part of State, true by rfl, so that no later proof unfolds a record update. -/

namespace Sys2Proof.Machine

/-! ### respond -/

@[simp] theorem respond_params (st : Status) (r : Word) (s : State) : (respond st r s).params = s.params := rfl
@[simp] theorem respond_resets (st : Status) (r : Word) (s : State) : (respond st r s).resets = s.resets := rfl
@[simp] theorem respond_err (st : Status) (r : Word) (s : State) : (respond st r s).err = s.err := rfl
@[simp] theorem respond_eos (st : Status) (r : Word) (s : State) : (respond st r s).eos = s.eos := rfl
@[simp] theorem respond_tv (st : Status) (r : Word) (s : State) : (respond st r s).tv = s.tv := rfl
@[simp] theorem respond_low (st : Status) (r : Word) (s : State) : (respond st r s).low = s.low := rfl
@[simp] theorem respond_errcode (st : Status) (r : Word) (s : State) : (respond st r s).errcode = s.errcode := rfl
@[simp] theorem respond_encState (st : Status) (r : Word) (s : State) : (respond st r s).encState = s.encState := rfl
@[simp] theorem respond_decState (st : Status) (r : Word) (s : State) : (respond st r s).decState = s.decState := rfl
@[simp] theorem respond_sp (st : Status) (r : Word) (s : State) : (respond st r s).sp = s.sp := rfl
@[simp] theorem respond_decSym (st : Status) (r : Word) (s : State) : (respond st r s).decSym = s.decSym := rfl
@[simp] theorem respond_bonus (st : Status) (r : Word) (s : State) : (respond st r s).bonus = s.bonus := rfl
@[simp] theorem respond_decRemain (st : Status) (r : Word) (s : State) : (respond st r s).decRemain = s.decRemain := rfl
@[simp] theorem respond_divf (st : Status) (r : Word) (s : State) : (respond st r s).divf = s.divf := rfl
@[simp] theorem respond_divsh (st : Status) (r : Word) (s : State) : (respond st r s).divsh = s.divsh := rfl
@[simp] theorem respond_divmul (st : Status) (r : Word) (s : State) : (respond st r s).divmul = s.divmul := rfl
@[simp] theorem respond_wgt (st : Status) (r : Word) (s : State) : (respond st r s).wgt = s.wgt := rfl
@[simp] theorem respond_cum (st : Status) (r : Word) (s : State) : (respond st r s).cum = s.cum := rfl
@[simp] theorem respond_stk (st : Status) (r : Word) (s : State) : (respond st r s).stk = s.stk := rfl
@[simp] theorem respond_input (st : Status) (r : Word) (s : State) : (respond st r s).input = s.input := rfl
@[simp] theorem respond_responses (st : Status) (r : Word) (s : State) : (respond st r s).responses = s.responses ++ [⟨st, r⟩] := rfl
@[simp] theorem readWgt_respond (st : Status) (r : Word) (s : State) (j : Nat) : readWgt (respond st r s) j = readWgt s j := rfl
@[simp] theorem readCum_respond (st : Status) (r : Word) (s : State) (j : Nat) : readCum (respond st r s) j = readCum s j := rfl
@[simp] theorem readStk_respond (st : Status) (r : Word) (s : State) (j : Nat) : readStk (respond st r s) j = readStk s j := rfl
@[simp] theorem freq_respond (st : Status) (r : Word) (s : State) (j : Nat) : freq (respond st r s) j = freq s j := rfl
@[simp] theorem tableValid_respond (st : Status) (r : Word) (s : State) : tableValid (respond st r s) = tableValid s := rfl

/-! ### setError -/

@[simp] theorem setError_params (e : ErrorCode) (s : State) : (setError e s).params = s.params := rfl
@[simp] theorem setError_resets (e : ErrorCode) (s : State) : (setError e s).resets = s.resets := rfl
@[simp] theorem setError_err (e : ErrorCode) (s : State) : (setError e s).err = true := rfl
@[simp] theorem setError_eos (e : ErrorCode) (s : State) : (setError e s).eos = s.eos := rfl
@[simp] theorem setError_tv (e : ErrorCode) (s : State) : (setError e s).tv = s.tv := rfl
@[simp] theorem setError_low (e : ErrorCode) (s : State) : (setError e s).low = s.low := rfl
@[simp] theorem setError_errcode (e : ErrorCode) (s : State) : (setError e s).errcode = errorCodeBits e := rfl
@[simp] theorem setError_encState (e : ErrorCode) (s : State) : (setError e s).encState = s.encState := rfl
@[simp] theorem setError_decState (e : ErrorCode) (s : State) : (setError e s).decState = s.decState := rfl
@[simp] theorem setError_sp (e : ErrorCode) (s : State) : (setError e s).sp = s.sp := rfl
@[simp] theorem setError_decSym (e : ErrorCode) (s : State) : (setError e s).decSym = s.decSym := rfl
@[simp] theorem setError_bonus (e : ErrorCode) (s : State) : (setError e s).bonus = s.bonus := rfl
@[simp] theorem setError_decRemain (e : ErrorCode) (s : State) : (setError e s).decRemain = s.decRemain := rfl
@[simp] theorem setError_divf (e : ErrorCode) (s : State) : (setError e s).divf = s.divf := rfl
@[simp] theorem setError_divsh (e : ErrorCode) (s : State) : (setError e s).divsh = s.divsh := rfl
@[simp] theorem setError_divmul (e : ErrorCode) (s : State) : (setError e s).divmul = s.divmul := rfl
@[simp] theorem setError_wgt (e : ErrorCode) (s : State) : (setError e s).wgt = s.wgt := rfl
@[simp] theorem setError_cum (e : ErrorCode) (s : State) : (setError e s).cum = s.cum := rfl
@[simp] theorem setError_stk (e : ErrorCode) (s : State) : (setError e s).stk = s.stk := rfl
@[simp] theorem setError_input (e : ErrorCode) (s : State) : (setError e s).input = s.input := rfl
@[simp] theorem setError_responses (e : ErrorCode) (s : State) : (setError e s).responses = s.responses := rfl
@[simp] theorem readWgt_setError (e : ErrorCode) (s : State) (j : Nat) : readWgt (setError e s) j = readWgt s j := rfl
@[simp] theorem readCum_setError (e : ErrorCode) (s : State) (j : Nat) : readCum (setError e s) j = readCum s j := rfl
@[simp] theorem readStk_setError (e : ErrorCode) (s : State) (j : Nat) : readStk (setError e s) j = readStk s j := rfl
@[simp] theorem freq_setError (e : ErrorCode) (s : State) (j : Nat) : freq (setError e s) j = freq s j := rfl
@[simp] theorem tableValid_setError (e : ErrorCode) (s : State) : tableValid (setError e s) = tableValid s := rfl

/-! ### raiseWith -/

@[simp] theorem raiseWith_params (e : ErrorCode) (r : Word) (s : State) : (raiseWith e r s).params = s.params := rfl
@[simp] theorem raiseWith_resets (e : ErrorCode) (r : Word) (s : State) : (raiseWith e r s).resets = s.resets := rfl
@[simp] theorem raiseWith_err (e : ErrorCode) (r : Word) (s : State) : (raiseWith e r s).err = true := rfl
@[simp] theorem raiseWith_eos (e : ErrorCode) (r : Word) (s : State) : (raiseWith e r s).eos = s.eos := rfl
@[simp] theorem raiseWith_tv (e : ErrorCode) (r : Word) (s : State) : (raiseWith e r s).tv = s.tv := rfl
@[simp] theorem raiseWith_low (e : ErrorCode) (r : Word) (s : State) : (raiseWith e r s).low = s.low := rfl
@[simp] theorem raiseWith_errcode (e : ErrorCode) (r : Word) (s : State) : (raiseWith e r s).errcode = errorCodeBits e := rfl
@[simp] theorem raiseWith_encState (e : ErrorCode) (r : Word) (s : State) : (raiseWith e r s).encState = s.encState := rfl
@[simp] theorem raiseWith_decState (e : ErrorCode) (r : Word) (s : State) : (raiseWith e r s).decState = s.decState := rfl
@[simp] theorem raiseWith_sp (e : ErrorCode) (r : Word) (s : State) : (raiseWith e r s).sp = s.sp := rfl
@[simp] theorem raiseWith_decSym (e : ErrorCode) (r : Word) (s : State) : (raiseWith e r s).decSym = s.decSym := rfl
@[simp] theorem raiseWith_bonus (e : ErrorCode) (r : Word) (s : State) : (raiseWith e r s).bonus = s.bonus := rfl
@[simp] theorem raiseWith_decRemain (e : ErrorCode) (r : Word) (s : State) : (raiseWith e r s).decRemain = s.decRemain := rfl
@[simp] theorem raiseWith_divf (e : ErrorCode) (r : Word) (s : State) : (raiseWith e r s).divf = s.divf := rfl
@[simp] theorem raiseWith_divsh (e : ErrorCode) (r : Word) (s : State) : (raiseWith e r s).divsh = s.divsh := rfl
@[simp] theorem raiseWith_divmul (e : ErrorCode) (r : Word) (s : State) : (raiseWith e r s).divmul = s.divmul := rfl
@[simp] theorem raiseWith_wgt (e : ErrorCode) (r : Word) (s : State) : (raiseWith e r s).wgt = s.wgt := rfl
@[simp] theorem raiseWith_cum (e : ErrorCode) (r : Word) (s : State) : (raiseWith e r s).cum = s.cum := rfl
@[simp] theorem raiseWith_stk (e : ErrorCode) (r : Word) (s : State) : (raiseWith e r s).stk = s.stk := rfl
@[simp] theorem raiseWith_input (e : ErrorCode) (r : Word) (s : State) : (raiseWith e r s).input = s.input := rfl
@[simp] theorem raiseWith_responses (e : ErrorCode) (r : Word) (s : State) : (raiseWith e r s).responses = s.responses ++ [⟨.error e, r⟩] := rfl
@[simp] theorem readWgt_raiseWith (e : ErrorCode) (r : Word) (s : State) (j : Nat) : readWgt (raiseWith e r s) j = readWgt s j := rfl
@[simp] theorem readCum_raiseWith (e : ErrorCode) (r : Word) (s : State) (j : Nat) : readCum (raiseWith e r s) j = readCum s j := rfl
@[simp] theorem readStk_raiseWith (e : ErrorCode) (r : Word) (s : State) (j : Nat) : readStk (raiseWith e r s) j = readStk s j := rfl
@[simp] theorem freq_raiseWith (e : ErrorCode) (r : Word) (s : State) (j : Nat) : freq (raiseWith e r s) j = freq s j := rfl
@[simp] theorem tableValid_raiseWith (e : ErrorCode) (r : Word) (s : State) : tableValid (raiseWith e r s) = tableValid s := rfl

/-! ### raise -/

@[simp] theorem raise_params (e : ErrorCode) (s : State) : (raise e s).params = s.params := rfl
@[simp] theorem raise_resets (e : ErrorCode) (s : State) : (raise e s).resets = s.resets := rfl
@[simp] theorem raise_err (e : ErrorCode) (s : State) : (raise e s).err = true := rfl
@[simp] theorem raise_eos (e : ErrorCode) (s : State) : (raise e s).eos = s.eos := rfl
@[simp] theorem raise_tv (e : ErrorCode) (s : State) : (raise e s).tv = s.tv := rfl
@[simp] theorem raise_low (e : ErrorCode) (s : State) : (raise e s).low = s.low := rfl
@[simp] theorem raise_errcode (e : ErrorCode) (s : State) : (raise e s).errcode = errorCodeBits e := rfl
@[simp] theorem raise_encState (e : ErrorCode) (s : State) : (raise e s).encState = s.encState := rfl
@[simp] theorem raise_decState (e : ErrorCode) (s : State) : (raise e s).decState = s.decState := rfl
@[simp] theorem raise_sp (e : ErrorCode) (s : State) : (raise e s).sp = s.sp := rfl
@[simp] theorem raise_decSym (e : ErrorCode) (s : State) : (raise e s).decSym = s.decSym := rfl
@[simp] theorem raise_bonus (e : ErrorCode) (s : State) : (raise e s).bonus = s.bonus := rfl
@[simp] theorem raise_decRemain (e : ErrorCode) (s : State) : (raise e s).decRemain = s.decRemain := rfl
@[simp] theorem raise_divf (e : ErrorCode) (s : State) : (raise e s).divf = s.divf := rfl
@[simp] theorem raise_divsh (e : ErrorCode) (s : State) : (raise e s).divsh = s.divsh := rfl
@[simp] theorem raise_divmul (e : ErrorCode) (s : State) : (raise e s).divmul = s.divmul := rfl
@[simp] theorem raise_wgt (e : ErrorCode) (s : State) : (raise e s).wgt = s.wgt := rfl
@[simp] theorem raise_cum (e : ErrorCode) (s : State) : (raise e s).cum = s.cum := rfl
@[simp] theorem raise_stk (e : ErrorCode) (s : State) : (raise e s).stk = s.stk := rfl
@[simp] theorem raise_input (e : ErrorCode) (s : State) : (raise e s).input = s.input := rfl
@[simp] theorem raise_responses (e : ErrorCode) (s : State) : (raise e s).responses = s.responses ++ [⟨.error e, 0#64⟩] := rfl
@[simp] theorem readWgt_raise (e : ErrorCode) (s : State) (j : Nat) : readWgt (raise e s) j = readWgt s j := rfl
@[simp] theorem readCum_raise (e : ErrorCode) (s : State) (j : Nat) : readCum (raise e s) j = readCum s j := rfl
@[simp] theorem readStk_raise (e : ErrorCode) (s : State) (j : Nat) : readStk (raise e s) j = readStk s j := rfl
@[simp] theorem freq_raise (e : ErrorCode) (s : State) (j : Nat) : freq (raise e s) j = freq s j := rfl
@[simp] theorem tableValid_raise (e : ErrorCode) (s : State) : tableValid (raise e s) = tableValid s := rfl

/-! ### clearError -/

@[simp] theorem clearError_params (s : State) : (clearError s).params = s.params := rfl
@[simp] theorem clearError_resets (s : State) : (clearError s).resets = s.resets := rfl
@[simp] theorem clearError_err (s : State) : (clearError s).err = false := rfl
@[simp] theorem clearError_eos (s : State) : (clearError s).eos = s.eos := rfl
@[simp] theorem clearError_tv (s : State) : (clearError s).tv = s.tv := rfl
@[simp] theorem clearError_low (s : State) : (clearError s).low = s.low := rfl
@[simp] theorem clearError_errcode (s : State) : (clearError s).errcode = 0#4 := rfl
@[simp] theorem clearError_encState (s : State) : (clearError s).encState = s.encState := rfl
@[simp] theorem clearError_decState (s : State) : (clearError s).decState = s.decState := rfl
@[simp] theorem clearError_sp (s : State) : (clearError s).sp = s.sp := rfl
@[simp] theorem clearError_decSym (s : State) : (clearError s).decSym = s.decSym := rfl
@[simp] theorem clearError_bonus (s : State) : (clearError s).bonus = s.bonus := rfl
@[simp] theorem clearError_decRemain (s : State) : (clearError s).decRemain = s.decRemain := rfl
@[simp] theorem clearError_divf (s : State) : (clearError s).divf = s.divf := rfl
@[simp] theorem clearError_divsh (s : State) : (clearError s).divsh = s.divsh := rfl
@[simp] theorem clearError_divmul (s : State) : (clearError s).divmul = s.divmul := rfl
@[simp] theorem clearError_wgt (s : State) : (clearError s).wgt = s.wgt := rfl
@[simp] theorem clearError_cum (s : State) : (clearError s).cum = s.cum := rfl
@[simp] theorem clearError_stk (s : State) : (clearError s).stk = s.stk := rfl
@[simp] theorem clearError_input (s : State) : (clearError s).input = s.input := rfl
@[simp] theorem clearError_responses (s : State) : (clearError s).responses = s.responses := rfl
@[simp] theorem readWgt_clearError (s : State) (j : Nat) : readWgt (clearError s) j = readWgt s j := rfl
@[simp] theorem readCum_clearError (s : State) (j : Nat) : readCum (clearError s) j = readCum s j := rfl
@[simp] theorem readStk_clearError (s : State) (j : Nat) : readStk (clearError s) j = readStk s j := rfl
@[simp] theorem freq_clearError (s : State) (j : Nat) : freq (clearError s) j = freq s j := rfl
@[simp] theorem tableValid_clearError (s : State) : tableValid (clearError s) = tableValid s := rfl

/-! ### setEos -/

@[simp] theorem setEos_params (v : Bool) (s : State) : (setEos v s).params = s.params := rfl
@[simp] theorem setEos_resets (v : Bool) (s : State) : (setEos v s).resets = s.resets := rfl
@[simp] theorem setEos_err (v : Bool) (s : State) : (setEos v s).err = s.err := rfl
@[simp] theorem setEos_eos (v : Bool) (s : State) : (setEos v s).eos = v := rfl
@[simp] theorem setEos_tv (v : Bool) (s : State) : (setEos v s).tv = s.tv := rfl
@[simp] theorem setEos_low (v : Bool) (s : State) : (setEos v s).low = s.low := rfl
@[simp] theorem setEos_errcode (v : Bool) (s : State) : (setEos v s).errcode = s.errcode := rfl
@[simp] theorem setEos_encState (v : Bool) (s : State) : (setEos v s).encState = s.encState := rfl
@[simp] theorem setEos_decState (v : Bool) (s : State) : (setEos v s).decState = s.decState := rfl
@[simp] theorem setEos_sp (v : Bool) (s : State) : (setEos v s).sp = s.sp := rfl
@[simp] theorem setEos_decSym (v : Bool) (s : State) : (setEos v s).decSym = s.decSym := rfl
@[simp] theorem setEos_bonus (v : Bool) (s : State) : (setEos v s).bonus = s.bonus := rfl
@[simp] theorem setEos_decRemain (v : Bool) (s : State) : (setEos v s).decRemain = s.decRemain := rfl
@[simp] theorem setEos_divf (v : Bool) (s : State) : (setEos v s).divf = s.divf := rfl
@[simp] theorem setEos_divsh (v : Bool) (s : State) : (setEos v s).divsh = s.divsh := rfl
@[simp] theorem setEos_divmul (v : Bool) (s : State) : (setEos v s).divmul = s.divmul := rfl
@[simp] theorem setEos_wgt (v : Bool) (s : State) : (setEos v s).wgt = s.wgt := rfl
@[simp] theorem setEos_cum (v : Bool) (s : State) : (setEos v s).cum = s.cum := rfl
@[simp] theorem setEos_stk (v : Bool) (s : State) : (setEos v s).stk = s.stk := rfl
@[simp] theorem setEos_input (v : Bool) (s : State) : (setEos v s).input = s.input := rfl
@[simp] theorem setEos_responses (v : Bool) (s : State) : (setEos v s).responses = s.responses := rfl
@[simp] theorem readWgt_setEos (v : Bool) (s : State) (j : Nat) : readWgt (setEos v s) j = readWgt s j := rfl
@[simp] theorem readCum_setEos (v : Bool) (s : State) (j : Nat) : readCum (setEos v s) j = readCum s j := rfl
@[simp] theorem readStk_setEos (v : Bool) (s : State) (j : Nat) : readStk (setEos v s) j = readStk s j := rfl
@[simp] theorem freq_setEos (v : Bool) (s : State) (j : Nat) : freq (setEos v s) j = freq s j := rfl
@[simp] theorem tableValid_setEos (v : Bool) (s : State) : tableValid (setEos v s) = tableValid s := rfl

/-! ### setTv -/

@[simp] theorem setTv_params (v : Bool) (s : State) : (setTv v s).params = s.params := rfl
@[simp] theorem setTv_resets (v : Bool) (s : State) : (setTv v s).resets = s.resets := rfl
@[simp] theorem setTv_err (v : Bool) (s : State) : (setTv v s).err = s.err := rfl
@[simp] theorem setTv_eos (v : Bool) (s : State) : (setTv v s).eos = s.eos := rfl
@[simp] theorem setTv_tv (v : Bool) (s : State) : (setTv v s).tv = v := rfl
@[simp] theorem setTv_low (v : Bool) (s : State) : (setTv v s).low = s.low := rfl
@[simp] theorem setTv_errcode (v : Bool) (s : State) : (setTv v s).errcode = s.errcode := rfl
@[simp] theorem setTv_encState (v : Bool) (s : State) : (setTv v s).encState = s.encState := rfl
@[simp] theorem setTv_decState (v : Bool) (s : State) : (setTv v s).decState = s.decState := rfl
@[simp] theorem setTv_sp (v : Bool) (s : State) : (setTv v s).sp = s.sp := rfl
@[simp] theorem setTv_decSym (v : Bool) (s : State) : (setTv v s).decSym = s.decSym := rfl
@[simp] theorem setTv_bonus (v : Bool) (s : State) : (setTv v s).bonus = s.bonus := rfl
@[simp] theorem setTv_decRemain (v : Bool) (s : State) : (setTv v s).decRemain = s.decRemain := rfl
@[simp] theorem setTv_divf (v : Bool) (s : State) : (setTv v s).divf = s.divf := rfl
@[simp] theorem setTv_divsh (v : Bool) (s : State) : (setTv v s).divsh = s.divsh := rfl
@[simp] theorem setTv_divmul (v : Bool) (s : State) : (setTv v s).divmul = s.divmul := rfl
@[simp] theorem setTv_wgt (v : Bool) (s : State) : (setTv v s).wgt = s.wgt := rfl
@[simp] theorem setTv_cum (v : Bool) (s : State) : (setTv v s).cum = s.cum := rfl
@[simp] theorem setTv_stk (v : Bool) (s : State) : (setTv v s).stk = s.stk := rfl
@[simp] theorem setTv_input (v : Bool) (s : State) : (setTv v s).input = s.input := rfl
@[simp] theorem setTv_responses (v : Bool) (s : State) : (setTv v s).responses = s.responses := rfl
@[simp] theorem readWgt_setTv (v : Bool) (s : State) (j : Nat) : readWgt (setTv v s) j = readWgt s j := rfl
@[simp] theorem readCum_setTv (v : Bool) (s : State) (j : Nat) : readCum (setTv v s) j = readCum s j := rfl
@[simp] theorem readStk_setTv (v : Bool) (s : State) (j : Nat) : readStk (setTv v s) j = readStk s j := rfl
@[simp] theorem freq_setTv (v : Bool) (s : State) (j : Nat) : freq (setTv v s) j = freq s j := rfl
@[simp] theorem tableValid_setTv (v : Bool) (s : State) : tableValid (setTv v s) = tableValid s := rfl

/-! ### clearLow -/

@[simp] theorem clearLow_params (s : State) : (clearLow s).params = s.params := rfl
@[simp] theorem clearLow_resets (s : State) : (clearLow s).resets = s.resets := rfl
@[simp] theorem clearLow_err (s : State) : (clearLow s).err = s.err := rfl
@[simp] theorem clearLow_eos (s : State) : (clearLow s).eos = s.eos := rfl
@[simp] theorem clearLow_tv (s : State) : (clearLow s).tv = s.tv := rfl
@[simp] theorem clearLow_low (s : State) : (clearLow s).low = false := rfl
@[simp] theorem clearLow_errcode (s : State) : (clearLow s).errcode = s.errcode := rfl
@[simp] theorem clearLow_encState (s : State) : (clearLow s).encState = s.encState := rfl
@[simp] theorem clearLow_decState (s : State) : (clearLow s).decState = s.decState := rfl
@[simp] theorem clearLow_sp (s : State) : (clearLow s).sp = s.sp := rfl
@[simp] theorem clearLow_decSym (s : State) : (clearLow s).decSym = s.decSym := rfl
@[simp] theorem clearLow_bonus (s : State) : (clearLow s).bonus = s.bonus := rfl
@[simp] theorem clearLow_decRemain (s : State) : (clearLow s).decRemain = s.decRemain := rfl
@[simp] theorem clearLow_divf (s : State) : (clearLow s).divf = s.divf := rfl
@[simp] theorem clearLow_divsh (s : State) : (clearLow s).divsh = s.divsh := rfl
@[simp] theorem clearLow_divmul (s : State) : (clearLow s).divmul = s.divmul := rfl
@[simp] theorem clearLow_wgt (s : State) : (clearLow s).wgt = s.wgt := rfl
@[simp] theorem clearLow_cum (s : State) : (clearLow s).cum = s.cum := rfl
@[simp] theorem clearLow_stk (s : State) : (clearLow s).stk = s.stk := rfl
@[simp] theorem clearLow_input (s : State) : (clearLow s).input = s.input := rfl
@[simp] theorem clearLow_responses (s : State) : (clearLow s).responses = s.responses := rfl
@[simp] theorem readWgt_clearLow (s : State) (j : Nat) : readWgt (clearLow s) j = readWgt s j := rfl
@[simp] theorem readCum_clearLow (s : State) (j : Nat) : readCum (clearLow s) j = readCum s j := rfl
@[simp] theorem readStk_clearLow (s : State) (j : Nat) : readStk (clearLow s) j = readStk s j := rfl
@[simp] theorem freq_clearLow (s : State) (j : Nat) : freq (clearLow s) j = freq s j := rfl
@[simp] theorem tableValid_clearLow (s : State) : tableValid (clearLow s) = tableValid s := rfl

/-! ### noteLow -/

@[simp] theorem noteLow_params (s : State) : (noteLow s).params = s.params := rfl
@[simp] theorem noteLow_resets (s : State) : (noteLow s).resets = s.resets := rfl
@[simp] theorem noteLow_err (s : State) : (noteLow s).err = s.err := rfl
@[simp] theorem noteLow_eos (s : State) : (noteLow s).eos = s.eos := rfl
@[simp] theorem noteLow_tv (s : State) : (noteLow s).tv = s.tv := rfl
@[simp] theorem noteLow_low (s : State) : (noteLow s).low = (s.low || decide (s.encState < s.params.L)) := rfl
@[simp] theorem noteLow_errcode (s : State) : (noteLow s).errcode = s.errcode := rfl
@[simp] theorem noteLow_encState (s : State) : (noteLow s).encState = s.encState := rfl
@[simp] theorem noteLow_decState (s : State) : (noteLow s).decState = s.decState := rfl
@[simp] theorem noteLow_sp (s : State) : (noteLow s).sp = s.sp := rfl
@[simp] theorem noteLow_decSym (s : State) : (noteLow s).decSym = s.decSym := rfl
@[simp] theorem noteLow_bonus (s : State) : (noteLow s).bonus = s.bonus := rfl
@[simp] theorem noteLow_decRemain (s : State) : (noteLow s).decRemain = s.decRemain := rfl
@[simp] theorem noteLow_divf (s : State) : (noteLow s).divf = s.divf := rfl
@[simp] theorem noteLow_divsh (s : State) : (noteLow s).divsh = s.divsh := rfl
@[simp] theorem noteLow_divmul (s : State) : (noteLow s).divmul = s.divmul := rfl
@[simp] theorem noteLow_wgt (s : State) : (noteLow s).wgt = s.wgt := rfl
@[simp] theorem noteLow_cum (s : State) : (noteLow s).cum = s.cum := rfl
@[simp] theorem noteLow_stk (s : State) : (noteLow s).stk = s.stk := rfl
@[simp] theorem noteLow_input (s : State) : (noteLow s).input = s.input := rfl
@[simp] theorem noteLow_responses (s : State) : (noteLow s).responses = s.responses := rfl
@[simp] theorem readWgt_noteLow (s : State) (j : Nat) : readWgt (noteLow s) j = readWgt s j := rfl
@[simp] theorem readCum_noteLow (s : State) (j : Nat) : readCum (noteLow s) j = readCum s j := rfl
@[simp] theorem readStk_noteLow (s : State) (j : Nat) : readStk (noteLow s) j = readStk s j := rfl
@[simp] theorem freq_noteLow (s : State) (j : Nat) : freq (noteLow s) j = freq s j := rfl
@[simp] theorem tableValid_noteLow (s : State) : tableValid (noteLow s) = tableValid s := rfl

/-! ### writeWgt -/

@[simp] theorem writeWgt_params (i : Nat) (v : BitVec 32) (s : State) : (writeWgt i v s).params = s.params := rfl
@[simp] theorem writeWgt_resets (i : Nat) (v : BitVec 32) (s : State) : (writeWgt i v s).resets = s.resets := rfl
@[simp] theorem writeWgt_err (i : Nat) (v : BitVec 32) (s : State) : (writeWgt i v s).err = s.err := rfl
@[simp] theorem writeWgt_eos (i : Nat) (v : BitVec 32) (s : State) : (writeWgt i v s).eos = s.eos := rfl
@[simp] theorem writeWgt_tv (i : Nat) (v : BitVec 32) (s : State) : (writeWgt i v s).tv = s.tv := rfl
@[simp] theorem writeWgt_low (i : Nat) (v : BitVec 32) (s : State) : (writeWgt i v s).low = s.low := rfl
@[simp] theorem writeWgt_errcode (i : Nat) (v : BitVec 32) (s : State) : (writeWgt i v s).errcode = s.errcode := rfl
@[simp] theorem writeWgt_encState (i : Nat) (v : BitVec 32) (s : State) : (writeWgt i v s).encState = s.encState := rfl
@[simp] theorem writeWgt_decState (i : Nat) (v : BitVec 32) (s : State) : (writeWgt i v s).decState = s.decState := rfl
@[simp] theorem writeWgt_sp (i : Nat) (v : BitVec 32) (s : State) : (writeWgt i v s).sp = s.sp := rfl
@[simp] theorem writeWgt_decSym (i : Nat) (v : BitVec 32) (s : State) : (writeWgt i v s).decSym = s.decSym := rfl
@[simp] theorem writeWgt_bonus (i : Nat) (v : BitVec 32) (s : State) : (writeWgt i v s).bonus = s.bonus := rfl
@[simp] theorem writeWgt_decRemain (i : Nat) (v : BitVec 32) (s : State) : (writeWgt i v s).decRemain = s.decRemain := rfl
@[simp] theorem writeWgt_divf (i : Nat) (v : BitVec 32) (s : State) : (writeWgt i v s).divf = s.divf := rfl
@[simp] theorem writeWgt_divsh (i : Nat) (v : BitVec 32) (s : State) : (writeWgt i v s).divsh = s.divsh := rfl
@[simp] theorem writeWgt_divmul (i : Nat) (v : BitVec 32) (s : State) : (writeWgt i v s).divmul = s.divmul := rfl
@[simp] theorem writeWgt_wgt (i : Nat) (v : BitVec 32) (s : State) : (writeWgt i v s).wgt = s.wgt.write i v := rfl
@[simp] theorem writeWgt_cum (i : Nat) (v : BitVec 32) (s : State) : (writeWgt i v s).cum = s.cum := rfl
@[simp] theorem writeWgt_stk (i : Nat) (v : BitVec 32) (s : State) : (writeWgt i v s).stk = s.stk := rfl
@[simp] theorem writeWgt_input (i : Nat) (v : BitVec 32) (s : State) : (writeWgt i v s).input = s.input := rfl
@[simp] theorem writeWgt_responses (i : Nat) (v : BitVec 32) (s : State) : (writeWgt i v s).responses = s.responses := rfl
@[simp] theorem readCum_writeWgt (i : Nat) (v : BitVec 32) (s : State) (j : Nat) : readCum (writeWgt i v s) j = readCum s j := rfl
@[simp] theorem readStk_writeWgt (i : Nat) (v : BitVec 32) (s : State) (j : Nat) : readStk (writeWgt i v s) j = readStk s j := rfl
@[simp] theorem freq_writeWgt (i : Nat) (v : BitVec 32) (s : State) (j : Nat) : freq (writeWgt i v s) j = freq s j := rfl
@[simp] theorem tableValid_writeWgt (i : Nat) (v : BitVec 32) (s : State) : tableValid (writeWgt i v s) = tableValid s := rfl

/-! ### writeCum -/

@[simp] theorem writeCum_params (i v : Nat) (s : State) : (writeCum i v s).params = s.params := rfl
@[simp] theorem writeCum_resets (i v : Nat) (s : State) : (writeCum i v s).resets = s.resets := rfl
@[simp] theorem writeCum_err (i v : Nat) (s : State) : (writeCum i v s).err = s.err := rfl
@[simp] theorem writeCum_eos (i v : Nat) (s : State) : (writeCum i v s).eos = s.eos := rfl
@[simp] theorem writeCum_tv (i v : Nat) (s : State) : (writeCum i v s).tv = s.tv := rfl
@[simp] theorem writeCum_low (i v : Nat) (s : State) : (writeCum i v s).low = s.low := rfl
@[simp] theorem writeCum_errcode (i v : Nat) (s : State) : (writeCum i v s).errcode = s.errcode := rfl
@[simp] theorem writeCum_encState (i v : Nat) (s : State) : (writeCum i v s).encState = s.encState := rfl
@[simp] theorem writeCum_decState (i v : Nat) (s : State) : (writeCum i v s).decState = s.decState := rfl
@[simp] theorem writeCum_sp (i v : Nat) (s : State) : (writeCum i v s).sp = s.sp := rfl
@[simp] theorem writeCum_decSym (i v : Nat) (s : State) : (writeCum i v s).decSym = s.decSym := rfl
@[simp] theorem writeCum_bonus (i v : Nat) (s : State) : (writeCum i v s).bonus = s.bonus := rfl
@[simp] theorem writeCum_decRemain (i v : Nat) (s : State) : (writeCum i v s).decRemain = s.decRemain := rfl
@[simp] theorem writeCum_divf (i v : Nat) (s : State) : (writeCum i v s).divf = s.divf := rfl
@[simp] theorem writeCum_divsh (i v : Nat) (s : State) : (writeCum i v s).divsh = s.divsh := rfl
@[simp] theorem writeCum_divmul (i v : Nat) (s : State) : (writeCum i v s).divmul = s.divmul := rfl
@[simp] theorem writeCum_wgt (i v : Nat) (s : State) : (writeCum i v s).wgt = s.wgt := rfl
@[simp] theorem writeCum_cum (i v : Nat) (s : State) : (writeCum i v s).cum = s.cum.write i v := rfl
@[simp] theorem writeCum_stk (i v : Nat) (s : State) : (writeCum i v s).stk = s.stk := rfl
@[simp] theorem writeCum_input (i v : Nat) (s : State) : (writeCum i v s).input = s.input := rfl
@[simp] theorem writeCum_responses (i v : Nat) (s : State) : (writeCum i v s).responses = s.responses := rfl
@[simp] theorem readWgt_writeCum (i v : Nat) (s : State) (j : Nat) : readWgt (writeCum i v s) j = readWgt s j := rfl
@[simp] theorem readStk_writeCum (i v : Nat) (s : State) (j : Nat) : readStk (writeCum i v s) j = readStk s j := rfl

/-! ### writeStk -/

@[simp] theorem writeStk_params (i : Nat) (v : Byte) (s : State) : (writeStk i v s).params = s.params := rfl
@[simp] theorem writeStk_resets (i : Nat) (v : Byte) (s : State) : (writeStk i v s).resets = s.resets := rfl
@[simp] theorem writeStk_err (i : Nat) (v : Byte) (s : State) : (writeStk i v s).err = s.err := rfl
@[simp] theorem writeStk_eos (i : Nat) (v : Byte) (s : State) : (writeStk i v s).eos = s.eos := rfl
@[simp] theorem writeStk_tv (i : Nat) (v : Byte) (s : State) : (writeStk i v s).tv = s.tv := rfl
@[simp] theorem writeStk_low (i : Nat) (v : Byte) (s : State) : (writeStk i v s).low = s.low := rfl
@[simp] theorem writeStk_errcode (i : Nat) (v : Byte) (s : State) : (writeStk i v s).errcode = s.errcode := rfl
@[simp] theorem writeStk_encState (i : Nat) (v : Byte) (s : State) : (writeStk i v s).encState = s.encState := rfl
@[simp] theorem writeStk_decState (i : Nat) (v : Byte) (s : State) : (writeStk i v s).decState = s.decState := rfl
@[simp] theorem writeStk_sp (i : Nat) (v : Byte) (s : State) : (writeStk i v s).sp = s.sp := rfl
@[simp] theorem writeStk_decSym (i : Nat) (v : Byte) (s : State) : (writeStk i v s).decSym = s.decSym := rfl
@[simp] theorem writeStk_bonus (i : Nat) (v : Byte) (s : State) : (writeStk i v s).bonus = s.bonus := rfl
@[simp] theorem writeStk_decRemain (i : Nat) (v : Byte) (s : State) : (writeStk i v s).decRemain = s.decRemain := rfl
@[simp] theorem writeStk_divf (i : Nat) (v : Byte) (s : State) : (writeStk i v s).divf = s.divf := rfl
@[simp] theorem writeStk_divsh (i : Nat) (v : Byte) (s : State) : (writeStk i v s).divsh = s.divsh := rfl
@[simp] theorem writeStk_divmul (i : Nat) (v : Byte) (s : State) : (writeStk i v s).divmul = s.divmul := rfl
@[simp] theorem writeStk_wgt (i : Nat) (v : Byte) (s : State) : (writeStk i v s).wgt = s.wgt := rfl
@[simp] theorem writeStk_cum (i : Nat) (v : Byte) (s : State) : (writeStk i v s).cum = s.cum := rfl
@[simp] theorem writeStk_stk (i : Nat) (v : Byte) (s : State) : (writeStk i v s).stk = s.stk.write i v := rfl
@[simp] theorem writeStk_input (i : Nat) (v : Byte) (s : State) : (writeStk i v s).input = s.input := rfl
@[simp] theorem writeStk_responses (i : Nat) (v : Byte) (s : State) : (writeStk i v s).responses = s.responses := rfl
@[simp] theorem readWgt_writeStk (i : Nat) (v : Byte) (s : State) (j : Nat) : readWgt (writeStk i v s) j = readWgt s j := rfl
@[simp] theorem readCum_writeStk (i : Nat) (v : Byte) (s : State) (j : Nat) : readCum (writeStk i v s) j = readCum s j := rfl
@[simp] theorem freq_writeStk (i : Nat) (v : Byte) (s : State) (j : Nat) : freq (writeStk i v s) j = freq s j := rfl
@[simp] theorem tableValid_writeStk (i : Nat) (v : Byte) (s : State) : tableValid (writeStk i v s) = tableValid s := rfl

/-! ### push -/

@[simp] theorem push_params (b : Byte) (s : State) : (push b s).params = s.params := rfl
@[simp] theorem push_resets (b : Byte) (s : State) : (push b s).resets = s.resets := rfl
@[simp] theorem push_err (b : Byte) (s : State) : (push b s).err = s.err := rfl
@[simp] theorem push_eos (b : Byte) (s : State) : (push b s).eos = s.eos := rfl
@[simp] theorem push_tv (b : Byte) (s : State) : (push b s).tv = s.tv := rfl
@[simp] theorem push_low (b : Byte) (s : State) : (push b s).low = s.low := rfl
@[simp] theorem push_errcode (b : Byte) (s : State) : (push b s).errcode = s.errcode := rfl
@[simp] theorem push_encState (b : Byte) (s : State) : (push b s).encState = s.encState := rfl
@[simp] theorem push_decState (b : Byte) (s : State) : (push b s).decState = s.decState := rfl
@[simp] theorem push_sp (b : Byte) (s : State) : (push b s).sp = s.sp + 1 := rfl
@[simp] theorem push_decSym (b : Byte) (s : State) : (push b s).decSym = s.decSym := rfl
@[simp] theorem push_bonus (b : Byte) (s : State) : (push b s).bonus = s.bonus := rfl
@[simp] theorem push_decRemain (b : Byte) (s : State) : (push b s).decRemain = s.decRemain := rfl
@[simp] theorem push_divf (b : Byte) (s : State) : (push b s).divf = s.divf := rfl
@[simp] theorem push_divsh (b : Byte) (s : State) : (push b s).divsh = s.divsh := rfl
@[simp] theorem push_divmul (b : Byte) (s : State) : (push b s).divmul = s.divmul := rfl
@[simp] theorem push_wgt (b : Byte) (s : State) : (push b s).wgt = s.wgt := rfl
@[simp] theorem push_cum (b : Byte) (s : State) : (push b s).cum = s.cum := rfl
@[simp] theorem push_stk (b : Byte) (s : State) : (push b s).stk = s.stk.write s.sp b := rfl
@[simp] theorem push_input (b : Byte) (s : State) : (push b s).input = s.input := rfl
@[simp] theorem push_responses (b : Byte) (s : State) : (push b s).responses = s.responses := rfl
@[simp] theorem readWgt_push (b : Byte) (s : State) (j : Nat) : readWgt (push b s) j = readWgt s j := rfl
@[simp] theorem readCum_push (b : Byte) (s : State) (j : Nat) : readCum (push b s) j = readCum s j := rfl
@[simp] theorem freq_push (b : Byte) (s : State) (j : Nat) : freq (push b s) j = freq s j := rfl
@[simp] theorem tableValid_push (b : Byte) (s : State) : tableValid (push b s) = tableValid s := rfl

/-! ### dropTop -/

@[simp] theorem dropTop_params (s : State) : (dropTop s).params = s.params := rfl
@[simp] theorem dropTop_resets (s : State) : (dropTop s).resets = s.resets := rfl
@[simp] theorem dropTop_err (s : State) : (dropTop s).err = s.err := rfl
@[simp] theorem dropTop_eos (s : State) : (dropTop s).eos = s.eos := rfl
@[simp] theorem dropTop_tv (s : State) : (dropTop s).tv = s.tv := rfl
@[simp] theorem dropTop_low (s : State) : (dropTop s).low = s.low := rfl
@[simp] theorem dropTop_errcode (s : State) : (dropTop s).errcode = s.errcode := rfl
@[simp] theorem dropTop_encState (s : State) : (dropTop s).encState = s.encState := rfl
@[simp] theorem dropTop_decState (s : State) : (dropTop s).decState = s.decState := rfl
@[simp] theorem dropTop_sp (s : State) : (dropTop s).sp = s.sp - 1 := rfl
@[simp] theorem dropTop_decSym (s : State) : (dropTop s).decSym = s.decSym := rfl
@[simp] theorem dropTop_bonus (s : State) : (dropTop s).bonus = s.bonus := rfl
@[simp] theorem dropTop_decRemain (s : State) : (dropTop s).decRemain = s.decRemain := rfl
@[simp] theorem dropTop_divf (s : State) : (dropTop s).divf = s.divf := rfl
@[simp] theorem dropTop_divsh (s : State) : (dropTop s).divsh = s.divsh := rfl
@[simp] theorem dropTop_divmul (s : State) : (dropTop s).divmul = s.divmul := rfl
@[simp] theorem dropTop_wgt (s : State) : (dropTop s).wgt = s.wgt := rfl
@[simp] theorem dropTop_cum (s : State) : (dropTop s).cum = s.cum := rfl
@[simp] theorem dropTop_stk (s : State) : (dropTop s).stk = s.stk := rfl
@[simp] theorem dropTop_input (s : State) : (dropTop s).input = s.input := rfl
@[simp] theorem dropTop_responses (s : State) : (dropTop s).responses = s.responses := rfl
@[simp] theorem readWgt_dropTop (s : State) (j : Nat) : readWgt (dropTop s) j = readWgt s j := rfl
@[simp] theorem readCum_dropTop (s : State) (j : Nat) : readCum (dropTop s) j = readCum s j := rfl
@[simp] theorem readStk_dropTop (s : State) (j : Nat) : readStk (dropTop s) j = readStk s j := rfl
@[simp] theorem freq_dropTop (s : State) (j : Nat) : freq (dropTop s) j = freq s j := rfl
@[simp] theorem tableValid_dropTop (s : State) : tableValid (dropTop s) = tableValid s := rfl

/-! ### latchDivisor -/

@[simp] theorem latchDivisor_params (f : Nat) (s : State) : (latchDivisor f s).params = s.params := rfl
@[simp] theorem latchDivisor_resets (f : Nat) (s : State) : (latchDivisor f s).resets = s.resets := rfl
@[simp] theorem latchDivisor_err (f : Nat) (s : State) : (latchDivisor f s).err = s.err := rfl
@[simp] theorem latchDivisor_eos (f : Nat) (s : State) : (latchDivisor f s).eos = s.eos := rfl
@[simp] theorem latchDivisor_tv (f : Nat) (s : State) : (latchDivisor f s).tv = s.tv := rfl
@[simp] theorem latchDivisor_low (f : Nat) (s : State) : (latchDivisor f s).low = s.low := rfl
@[simp] theorem latchDivisor_errcode (f : Nat) (s : State) : (latchDivisor f s).errcode = s.errcode := rfl
@[simp] theorem latchDivisor_encState (f : Nat) (s : State) : (latchDivisor f s).encState = s.encState := rfl
@[simp] theorem latchDivisor_decState (f : Nat) (s : State) : (latchDivisor f s).decState = s.decState := rfl
@[simp] theorem latchDivisor_sp (f : Nat) (s : State) : (latchDivisor f s).sp = s.sp := rfl
@[simp] theorem latchDivisor_decSym (f : Nat) (s : State) : (latchDivisor f s).decSym = s.decSym := rfl
@[simp] theorem latchDivisor_bonus (f : Nat) (s : State) : (latchDivisor f s).bonus = s.bonus := rfl
@[simp] theorem latchDivisor_decRemain (f : Nat) (s : State) : (latchDivisor f s).decRemain = s.decRemain := rfl
@[simp] theorem latchDivisor_divf (f : Nat) (s : State) : (latchDivisor f s).divf = f := rfl
@[simp] theorem latchDivisor_divsh (f : Nat) (s : State) : (latchDivisor f s).divsh = divShift s.params f := rfl
@[simp] theorem latchDivisor_divmul (f : Nat) (s : State) : (latchDivisor f s).divmul = divMult s.params f := rfl
@[simp] theorem latchDivisor_wgt (f : Nat) (s : State) : (latchDivisor f s).wgt = s.wgt := rfl
@[simp] theorem latchDivisor_cum (f : Nat) (s : State) : (latchDivisor f s).cum = s.cum := rfl
@[simp] theorem latchDivisor_stk (f : Nat) (s : State) : (latchDivisor f s).stk = s.stk := rfl
@[simp] theorem latchDivisor_input (f : Nat) (s : State) : (latchDivisor f s).input = s.input := rfl
@[simp] theorem latchDivisor_responses (f : Nat) (s : State) : (latchDivisor f s).responses = s.responses := rfl
@[simp] theorem readWgt_latchDivisor (f : Nat) (s : State) (j : Nat) : readWgt (latchDivisor f s) j = readWgt s j := rfl
@[simp] theorem readCum_latchDivisor (f : Nat) (s : State) (j : Nat) : readCum (latchDivisor f s) j = readCum s j := rfl
@[simp] theorem readStk_latchDivisor (f : Nat) (s : State) (j : Nat) : readStk (latchDivisor f s) j = readStk s j := rfl
@[simp] theorem freq_latchDivisor (f : Nat) (s : State) (j : Nat) : freq (latchDivisor f s) j = freq s j := rfl
@[simp] theorem tableValid_latchDivisor (f : Nat) (s : State) : tableValid (latchDivisor f s) = tableValid s := rfl

/-! ### resetRegisters -/

@[simp] theorem resetRegisters_params (s : State) : (resetRegisters s).params = s.params := rfl
@[simp] theorem resetRegisters_resets (s : State) : (resetRegisters s).resets = s.resets := rfl
@[simp] theorem resetRegisters_err (s : State) : (resetRegisters s).err = false := rfl
@[simp] theorem resetRegisters_eos (s : State) : (resetRegisters s).eos = false := rfl
@[simp] theorem resetRegisters_tv (s : State) : (resetRegisters s).tv = false := rfl
@[simp] theorem resetRegisters_low (s : State) : (resetRegisters s).low = false := rfl
@[simp] theorem resetRegisters_errcode (s : State) : (resetRegisters s).errcode = 0#4 := rfl
@[simp] theorem resetRegisters_encState (s : State) : (resetRegisters s).encState = 0 := rfl
@[simp] theorem resetRegisters_decState (s : State) : (resetRegisters s).decState = 0 := rfl
@[simp] theorem resetRegisters_sp (s : State) : (resetRegisters s).sp = 0 := rfl
@[simp] theorem resetRegisters_decSym (s : State) : (resetRegisters s).decSym = 0#8 := rfl
@[simp] theorem resetRegisters_bonus (s : State) : (resetRegisters s).bonus = 0#64 := rfl
@[simp] theorem resetRegisters_decRemain (s : State) : (resetRegisters s).decRemain = 0 := rfl
@[simp] theorem resetRegisters_divf (s : State) : (resetRegisters s).divf = 1 := rfl
@[simp] theorem resetRegisters_divsh (s : State) : (resetRegisters s).divsh = s.params.N := rfl
@[simp] theorem resetRegisters_divmul (s : State) : (resetRegisters s).divmul = 2 ^ s.params.N := rfl
@[simp] theorem resetRegisters_wgt (s : State) : (resetRegisters s).wgt = s.wgt := rfl
@[simp] theorem resetRegisters_cum (s : State) : (resetRegisters s).cum = s.cum := rfl
@[simp] theorem resetRegisters_stk (s : State) : (resetRegisters s).stk = s.stk := rfl
@[simp] theorem resetRegisters_input (s : State) : (resetRegisters s).input = s.input := rfl
@[simp] theorem resetRegisters_responses (s : State) : (resetRegisters s).responses = s.responses := rfl
@[simp] theorem readWgt_resetRegisters (s : State) (j : Nat) : readWgt (resetRegisters s) j = readWgt s j := rfl
@[simp] theorem readCum_resetRegisters (s : State) (j : Nat) : readCum (resetRegisters s) j = readCum s j := rfl
@[simp] theorem readStk_resetRegisters (s : State) (j : Nat) : readStk (resetRegisters s) j = readStk s j := rfl
@[simp] theorem freq_resetRegisters (s : State) (j : Nat) : freq (resetRegisters s) j = freq s j := rfl
@[simp] theorem tableValid_resetRegisters (s : State) : tableValid (resetRegisters s) = tableValid s := rfl

/-! ### refill -/

@[simp] theorem refill_params (s : State) : (refill s).params = s.params := rfl
@[simp] theorem refill_resets (s : State) : (refill s).resets = s.resets := rfl
@[simp] theorem refill_err (s : State) : (refill s).err = s.err := rfl
@[simp] theorem refill_eos (s : State) : (refill s).eos = s.eos := rfl
@[simp] theorem refill_tv (s : State) : (refill s).tv = s.tv := rfl
@[simp] theorem refill_low (s : State) : (refill s).low = s.low := rfl
@[simp] theorem refill_errcode (s : State) : (refill s).errcode = s.errcode := rfl
@[simp] theorem refill_encState (s : State) : (refill s).encState = s.encState := rfl
@[simp] theorem refill_decState (s : State) : (refill s).decState = (refillFrom s.params.L (readStk s) s.sp s.decState).1 := rfl
@[simp] theorem refill_sp (s : State) : (refill s).sp = (refillFrom s.params.L (readStk s) s.sp s.decState).2 := rfl
@[simp] theorem refill_decSym (s : State) : (refill s).decSym = s.decSym := rfl
@[simp] theorem refill_bonus (s : State) : (refill s).bonus = s.bonus := rfl
@[simp] theorem refill_decRemain (s : State) : (refill s).decRemain = s.decRemain := rfl
@[simp] theorem refill_divf (s : State) : (refill s).divf = s.divf := rfl
@[simp] theorem refill_divsh (s : State) : (refill s).divsh = s.divsh := rfl
@[simp] theorem refill_divmul (s : State) : (refill s).divmul = s.divmul := rfl
@[simp] theorem refill_wgt (s : State) : (refill s).wgt = s.wgt := rfl
@[simp] theorem refill_cum (s : State) : (refill s).cum = s.cum := rfl
@[simp] theorem refill_stk (s : State) : (refill s).stk = s.stk := rfl
@[simp] theorem refill_input (s : State) : (refill s).input = s.input := rfl
@[simp] theorem refill_responses (s : State) : (refill s).responses = s.responses := rfl
@[simp] theorem readWgt_refill (s : State) (j : Nat) : readWgt (refill s) j = readWgt s j := rfl
@[simp] theorem readCum_refill (s : State) (j : Nat) : readCum (refill s) j = readCum s j := rfl
@[simp] theorem readStk_refill (s : State) (j : Nat) : readStk (refill s) j = readStk s j := rfl
@[simp] theorem freq_refill (s : State) (j : Nat) : freq (refill s) j = freq s j := rfl
@[simp] theorem tableValid_refill (s : State) : tableValid (refill s) = tableValid s := rfl

/-! ### yieldSymbol -/

@[simp] theorem yieldSymbol_params (sym : Nat) (s : State) : (yieldSymbol sym s).params = s.params := rfl
@[simp] theorem yieldSymbol_resets (sym : Nat) (s : State) : (yieldSymbol sym s).resets = s.resets := rfl
@[simp] theorem yieldSymbol_err (sym : Nat) (s : State) : (yieldSymbol sym s).err = s.err := rfl
@[simp] theorem yieldSymbol_eos (sym : Nat) (s : State) : (yieldSymbol sym s).eos = false := rfl
@[simp] theorem yieldSymbol_tv (sym : Nat) (s : State) : (yieldSymbol sym s).tv = s.tv := rfl
@[simp] theorem yieldSymbol_low (sym : Nat) (s : State) : (yieldSymbol sym s).low = s.low := rfl
@[simp] theorem yieldSymbol_errcode (sym : Nat) (s : State) : (yieldSymbol sym s).errcode = s.errcode := rfl
@[simp] theorem yieldSymbol_encState (sym : Nat) (s : State) : (yieldSymbol sym s).encState = s.encState := rfl
@[simp] theorem yieldSymbol_decState (sym : Nat) (s : State) : (yieldSymbol sym s).decState = s.decState / s.params.M * freq s sym + slotOf s - readCum s sym := rfl
@[simp] theorem yieldSymbol_sp (sym : Nat) (s : State) : (yieldSymbol sym s).sp = s.sp := rfl
@[simp] theorem yieldSymbol_decSym (sym : Nat) (s : State) : (yieldSymbol sym s).decSym = BitVec.ofNat 8 sym := rfl
@[simp] theorem yieldSymbol_bonus (sym : Nat) (s : State) : (yieldSymbol sym s).bonus = s.bonus := rfl
@[simp] theorem yieldSymbol_decRemain (sym : Nat) (s : State) : (yieldSymbol sym s).decRemain = s.decRemain - 1 := rfl
@[simp] theorem yieldSymbol_divf (sym : Nat) (s : State) : (yieldSymbol sym s).divf = s.divf := rfl
@[simp] theorem yieldSymbol_divsh (sym : Nat) (s : State) : (yieldSymbol sym s).divsh = s.divsh := rfl
@[simp] theorem yieldSymbol_divmul (sym : Nat) (s : State) : (yieldSymbol sym s).divmul = s.divmul := rfl
@[simp] theorem yieldSymbol_wgt (sym : Nat) (s : State) : (yieldSymbol sym s).wgt = s.wgt := rfl
@[simp] theorem yieldSymbol_cum (sym : Nat) (s : State) : (yieldSymbol sym s).cum = s.cum := rfl
@[simp] theorem yieldSymbol_stk (sym : Nat) (s : State) : (yieldSymbol sym s).stk = s.stk := rfl
@[simp] theorem yieldSymbol_input (sym : Nat) (s : State) : (yieldSymbol sym s).input = s.input := rfl
@[simp] theorem yieldSymbol_responses (sym : Nat) (s : State) : (yieldSymbol sym s).responses = s.responses ++ [⟨.ok, zext64 sym⟩] := rfl
@[simp] theorem readWgt_yieldSymbol (sym : Nat) (s : State) (j : Nat) : readWgt (yieldSymbol sym s) j = readWgt s j := rfl
@[simp] theorem readCum_yieldSymbol (sym : Nat) (s : State) (j : Nat) : readCum (yieldSymbol sym s) j = readCum s j := rfl
@[simp] theorem readStk_yieldSymbol (sym : Nat) (s : State) (j : Nat) : readStk (yieldSymbol sym s) j = readStk s j := rfl
@[simp] theorem freq_yieldSymbol (sym : Nat) (s : State) (j : Nat) : freq (yieldSymbol sym s) j = freq s j := rfl
@[simp] theorem tableValid_yieldSymbol (sym : Nat) (s : State) : tableValid (yieldSymbol sym s) = tableValid s := rfl

/-! ### writeTable -/

@[simp] theorem writeTable_params (es : List WorkEntry) (s : State) : (writeTable es s).params = s.params := rfl
@[simp] theorem writeTable_resets (es : List WorkEntry) (s : State) : (writeTable es s).resets = s.resets := rfl
@[simp] theorem writeTable_err (es : List WorkEntry) (s : State) : (writeTable es s).err = s.err := rfl
@[simp] theorem writeTable_eos (es : List WorkEntry) (s : State) : (writeTable es s).eos = s.eos := rfl
@[simp] theorem writeTable_tv (es : List WorkEntry) (s : State) : (writeTable es s).tv = s.tv := rfl
@[simp] theorem writeTable_low (es : List WorkEntry) (s : State) : (writeTable es s).low = s.low := rfl
@[simp] theorem writeTable_errcode (es : List WorkEntry) (s : State) : (writeTable es s).errcode = s.errcode := rfl
@[simp] theorem writeTable_encState (es : List WorkEntry) (s : State) : (writeTable es s).encState = s.encState := rfl
@[simp] theorem writeTable_decState (es : List WorkEntry) (s : State) : (writeTable es s).decState = s.decState := rfl
@[simp] theorem writeTable_sp (es : List WorkEntry) (s : State) : (writeTable es s).sp = s.sp := rfl
@[simp] theorem writeTable_decSym (es : List WorkEntry) (s : State) : (writeTable es s).decSym = s.decSym := rfl
@[simp] theorem writeTable_bonus (es : List WorkEntry) (s : State) : (writeTable es s).bonus = s.bonus := rfl
@[simp] theorem writeTable_decRemain (es : List WorkEntry) (s : State) : (writeTable es s).decRemain = s.decRemain := rfl
@[simp] theorem writeTable_divf (es : List WorkEntry) (s : State) : (writeTable es s).divf = s.divf := rfl
@[simp] theorem writeTable_divsh (es : List WorkEntry) (s : State) : (writeTable es s).divsh = s.divsh := rfl
@[simp] theorem writeTable_divmul (es : List WorkEntry) (s : State) : (writeTable es s).divmul = s.divmul := rfl
@[simp] theorem writeTable_wgt (es : List WorkEntry) (s : State) : (writeTable es s).wgt = s.wgt := rfl
@[simp] theorem writeTable_cum (es : List WorkEntry) (s : State) : (writeTable es s).cum = Memory.ofValues 0 (prefixSums 0 (es.map (·.freq))) := rfl
@[simp] theorem writeTable_stk (es : List WorkEntry) (s : State) : (writeTable es s).stk = s.stk := rfl
@[simp] theorem writeTable_input (es : List WorkEntry) (s : State) : (writeTable es s).input = s.input := rfl
@[simp] theorem writeTable_responses (es : List WorkEntry) (s : State) : (writeTable es s).responses = s.responses := rfl
@[simp] theorem readWgt_writeTable (es : List WorkEntry) (s : State) (j : Nat) : readWgt (writeTable es s) j = readWgt s j := rfl
@[simp] theorem readStk_writeTable (es : List WorkEntry) (s : State) (j : Nat) : readStk (writeTable es s) j = readStk s j := rfl

end Sys2Proof.Machine
end

