-- ==== Sys2Proof/Laws/Memory.lean ====
section
/-! SUPPORT. The laws of the three memories: a read after a write, every operation keeps the canonical form and the index
range, equal look-ups mean equal data, and the same at the level of the reads of State. -/

namespace Sys2Proof.Machine

@[simp] theorem Memory.get?_nil {α : Type} (i : Nat) : Memory.get? ([] : Memory α) i = none := rfl

theorem Memory.get?_cons {α : Type} (k : Nat) (v : α) (m : Memory α) (i : Nat) :
    Memory.get? ((k, v) :: m) i = if k = i then some v else m.get? i := rfl

theorem Memory.get?_write {α : Type} (m : Memory α) (i j : Nat) (v : α) :
    (m.write i v).get? j = if j = i then some v else m.get? j := by
  induction m with
  | nil => simp [Memory.write, Memory.get?_cons, eq_comm]
  | cons e m ih =>
    obtain ⟨k, w⟩ := e
    simp only [Memory.write]
    split
    · simp only [Memory.get?_cons, eq_comm]
    · split
      · next h => subst h; simp only [Memory.get?_cons]; split <;> simp_all [eq_comm]
      · next h =>
        simp only [Memory.get?_cons, ih]
        by_cases hk : k = j
        · subst hk; simp [Ne.symm h]
        · simp [hk]

theorem Memory.mem_write {α : Type} {m : Memory α} {i : Nat} {v : α} {e : Nat × α} (h : e ∈ m.write i v) :
    e = (i, v) ∨ e ∈ m := by
  induction m with
  | nil => simpa [Memory.write] using h
  | cons c m ih =>
    obtain ⟨k, w⟩ := c
    simp only [Memory.write] at h
    split at h
    · simpa using h
    · split at h
      · rcases List.mem_cons.1 h with h | h
        · exact .inl h
        · exact .inr (List.mem_cons_of_mem _ h)
      · rcases List.mem_cons.1 h with h | h
        · exact .inr (h ▸ List.mem_cons_self)
        · exact (ih h).imp_right (List.mem_cons_of_mem _)

/-- A write keeps the canonical form. -/
theorem Memory.wf_write {α : Type} {m : Memory α} (h : m.wf) (i : Nat) (v : α) : (m.write i v).wf := by
  induction m with
  | nil => simp [Memory.write, Memory.wf]
  | cons c m ih =>
    obtain ⟨k, w⟩ := c
    obtain ⟨hk, hm⟩ := List.pairwise_cons.1 h
    simp only [Memory.write]
    split
    · next hik =>
      refine List.pairwise_cons.2 ⟨fun e he => ?_, h⟩
      rcases List.mem_cons.1 he with rfl | he
      · exact hik
      · exact lt_trans hik (hk e he)
    · split
      · next hik => exact List.pairwise_cons.2 ⟨fun e he => hik ▸ hk e he, hm⟩
      · next h1 h2 =>
        refine List.pairwise_cons.2 ⟨fun e he => ?_, ih hm⟩
        rcases Memory.mem_write he with rfl | he
        · exact lt_of_le_of_ne (not_lt.1 h1) (Ne.symm h2)
        · exact hk e he

theorem Memory.get?_ofValues {α : Type} (k : Nat) (vs : List α) (i : Nat) :
    (Memory.ofValues k vs).get? (k + i) = vs[i]? := by
  induction vs generalizing k i with
  | nil => simp [Memory.ofValues]
  | cons v vs ih =>
    cases i with
    | zero => simp [Memory.ofValues, Memory.get?_cons]
    | succ i =>
      have := ih (k + 1) i
      simp only [Memory.ofValues, Memory.get?_cons, List.getElem?_cons_succ]
      rw [if_neg (by omega), ← this]
      congr 1
      omega

theorem Memory.mem_ofValues {α : Type} {k : Nat} {vs : List α} {e : Nat × α} (h : e ∈ Memory.ofValues k vs) :
    k ≤ e.1 ∧ e.1 < k + vs.length ∧ e.2 ∈ vs := by
  induction vs generalizing k with
  | nil => simp [Memory.ofValues] at h
  | cons v vs ih =>
    rcases List.mem_cons.1 h with rfl | h
    · simp
    · obtain ⟨h1, h2, h3⟩ := ih h
      simp only [List.length_cons, List.mem_cons]
      exact ⟨by omega, by omega, .inr h3⟩

/-- Listing all entries of a range gives the canonical form. -/
theorem Memory.wf_ofValues {α : Type} (k : Nat) (vs : List α) : (Memory.ofValues k vs).wf := by
  induction vs generalizing k with
  | nil => simp [Memory.ofValues, Memory.wf]
  | cons v vs ih =>
    exact List.pairwise_cons.2 ⟨fun e he => by have := (Memory.mem_ofValues he).1; exact this, ih (k + 1)⟩

theorem Memory.get?_eq_none_of_lt {α : Type} {m : Memory α} {i : Nat} (h : ∀ e ∈ m, i < e.1) : m.get? i = none := by
  induction m with
  | nil => rfl
  | cons c m ih =>
    obtain ⟨k, w⟩ := c
    have hk : i < k := h (k, w) List.mem_cons_self
    rw [Memory.get?_cons, if_neg (by omega)]
    exact ih fun e he => h e (List.mem_cons_of_mem _ he)

theorem Memory.mem_of_get? {α : Type} {m : Memory α} {i : Nat} {v : α} (h : m.get? i = some v) : (i, v) ∈ m := by
  induction m with
  | nil => simp at h
  | cons c m ih =>
    obtain ⟨k, w⟩ := c
    rw [Memory.get?_cons] at h
    split at h
    · next hk => simp_all
    · exact List.mem_cons_of_mem _ (ih h)

/-- Canonical memories that answer every look-up alike are one list. -/
theorem Memory.ext_of_wf {α : Type} {m m' : Memory α} (h : m.wf) (h' : m'.wf) (hg : ∀ i, m.get? i = m'.get? i) :
    m = m' := by
  induction m generalizing m' with
  | nil =>
    cases m' with
    | nil => rfl
    | cons c _ => obtain ⟨k, w⟩ := c; have := hg k; simp [Memory.get?_cons] at this
  | cons c m ih =>
    obtain ⟨k, w⟩ := c
    obtain ⟨hk, hm⟩ := List.pairwise_cons.1 h
    cases m' with
    | nil => have := hg k; simp [Memory.get?_cons] at this
    | cons c' m' =>
      obtain ⟨k', w'⟩ := c'
      obtain ⟨hk', hm'⟩ := List.pairwise_cons.1 h'
      have hkk : k = k' := by
        rcases lt_trichotomy k k' with hlt | heq | hgt
        · have h1 := hg k
          rw [Memory.get?_cons, if_pos rfl, Memory.get?_cons, if_neg (by omega),
            Memory.get?_eq_none_of_lt fun e he => lt_trans hlt (hk' e he)] at h1
          simp at h1
        · exact heq
        · have h1 := hg k'
          rw [Memory.get?_cons, if_neg (by omega), Memory.get?_cons, if_pos rfl,
            Memory.get?_eq_none_of_lt fun e he => lt_trans hgt (hk e he)] at h1
          simp at h1
      subst hkk
      have hw : w = w' := by simpa [Memory.get?_cons] using hg k
      subst hw
      congr 1
      refine ih hm hm' fun i => ?_
      by_cases hi : k = i
      · subst hi
        rw [Memory.get?_eq_none_of_lt hk, Memory.get?_eq_none_of_lt hk']
      · simpa [Memory.get?_cons, hi] using hg i

/-- The memories after reset are in canonical form. -/
theorem State.resetWith_memories_wf (p : Params) : Memory.wf (State.resetWith p).wgt ∧ Memory.wf (State.resetWith p).cum ∧
    Memory.wf (State.resetWith p).stk := ⟨.nil, .nil, .nil⟩

/-! ### Reads of State -/

theorem readWgt_writeWgt (i j : Nat) (v : BitVec 32) (s : State) :
    readWgt (writeWgt i v s) j = if j = i then v else readWgt s j := by
  simp only [readWgt, writeWgt, Memory.get?_write]
  split <;> rfl

theorem readCum_writeCum (i j v : Nat) (s : State) :
    readCum (writeCum i v s) j = if j = i then v else readCum s j := by
  simp only [readCum, writeCum, Memory.get?_write]
  split <;> rfl

theorem readStk_writeStk (i j : Nat) (v : Byte) (s : State) :
    readStk (writeStk i v s) j = if j = i then v else readStk s j := by
  simp only [readStk, writeStk, Memory.get?_write]
  split <;> rfl

theorem readStk_push (b : Byte) (s : State) (j : Nat) :
    readStk (push b s) j = if j = s.sp then b else readStk s j := readStk_writeStk s.sp j b s

end Sys2Proof.Machine
end

