-- ==== Sys2Proof/Laws/Ops.lean ====
section
/-! SUPPORT. What each shared operation can do, said once: the pushes of a command, the renormalization and flush loops of the
encoder, the refill loop of the decoder, the table check, the prefix sums of BUILD, and the outcome of each command as a
case split. -/

namespace Sys2Proof.Machine

/-! ### Pushes -/

@[simp] theorem pushAll_nil (s : State) : pushAll [] s = s := rfl

@[simp] theorem pushAll_cons (b : Byte) (bs : List Byte) (s : State) :
    pushAll (b :: bs) s = pushAll bs (push b s) := rfl

/-- The pushes change STK and SP and nothing else. -/
theorem pushAll_eq (bs : List Byte) (s : State) :
    pushAll bs s = { s with stk := (pushAll bs s).stk, sp := s.sp + bs.length } := by
  induction bs generalizing s with
  | nil => rfl
  | cons b bs ih =>
    rw [pushAll_cons, ih (push b s)]
    simp [push, writeStk, Nat.add_assoc, Nat.add_comm 1]

@[simp] theorem pushAll_sp (bs : List Byte) (s : State) : (pushAll bs s).sp = s.sp + bs.length := by rw [pushAll_eq]

@[simp] theorem pushAll_params (bs : List Byte) (s : State) : (pushAll bs s).params = s.params := by rw [pushAll_eq]
@[simp] theorem pushAll_resets (bs : List Byte) (s : State) : (pushAll bs s).resets = s.resets := by rw [pushAll_eq]
@[simp] theorem pushAll_err (bs : List Byte) (s : State) : (pushAll bs s).err = s.err := by rw [pushAll_eq]
@[simp] theorem pushAll_eos (bs : List Byte) (s : State) : (pushAll bs s).eos = s.eos := by rw [pushAll_eq]
@[simp] theorem pushAll_tv (bs : List Byte) (s : State) : (pushAll bs s).tv = s.tv := by rw [pushAll_eq]
@[simp] theorem pushAll_low (bs : List Byte) (s : State) : (pushAll bs s).low = s.low := by rw [pushAll_eq]
@[simp] theorem pushAll_errcode (bs : List Byte) (s : State) : (pushAll bs s).errcode = s.errcode := by rw [pushAll_eq]
@[simp] theorem pushAll_encState (bs : List Byte) (s : State) : (pushAll bs s).encState = s.encState := by rw [pushAll_eq]
@[simp] theorem pushAll_decState (bs : List Byte) (s : State) : (pushAll bs s).decState = s.decState := by rw [pushAll_eq]
@[simp] theorem pushAll_decSym (bs : List Byte) (s : State) : (pushAll bs s).decSym = s.decSym := by rw [pushAll_eq]
@[simp] theorem pushAll_bonus (bs : List Byte) (s : State) : (pushAll bs s).bonus = s.bonus := by rw [pushAll_eq]
@[simp] theorem pushAll_decRemain (bs : List Byte) (s : State) : (pushAll bs s).decRemain = s.decRemain := by rw [pushAll_eq]
@[simp] theorem pushAll_divf (bs : List Byte) (s : State) : (pushAll bs s).divf = s.divf := by rw [pushAll_eq]
@[simp] theorem pushAll_divsh (bs : List Byte) (s : State) : (pushAll bs s).divsh = s.divsh := by rw [pushAll_eq]
@[simp] theorem pushAll_divmul (bs : List Byte) (s : State) : (pushAll bs s).divmul = s.divmul := by rw [pushAll_eq]
@[simp] theorem pushAll_wgt (bs : List Byte) (s : State) : (pushAll bs s).wgt = s.wgt := by rw [pushAll_eq]
@[simp] theorem pushAll_cum (bs : List Byte) (s : State) : (pushAll bs s).cum = s.cum := by rw [pushAll_eq]
@[simp] theorem pushAll_input (bs : List Byte) (s : State) : (pushAll bs s).input = s.input := by rw [pushAll_eq]
@[simp] theorem pushAll_responses (bs : List Byte) (s : State) : (pushAll bs s).responses = s.responses := by rw [pushAll_eq]

/-- Byte `k` of the pushes lands at index `SP + k`; every other entry is as before. -/
theorem readStk_pushAll (bs : List Byte) (s : State) (j : Nat) :
    readStk (pushAll bs s) j = if s.sp ≤ j then (bs[j - s.sp]?).getD (readStk s j) else readStk s j := by
  induction bs generalizing s with
  | nil => simp
  | cons b bs ih =>
    rw [pushAll_cons, ih, readStk_push, push_sp]
    rcases lt_trichotomy j s.sp with h | h | h
    · rw [if_neg (by omega), if_neg (by omega), if_neg (by omega)]
    · subst h
      rw [if_neg (by omega), if_pos rfl, if_pos le_rfl]
      simp
    · obtain ⟨k, rfl⟩ : ∃ k, j = s.sp + 1 + k := ⟨j - (s.sp + 1), by omega⟩
      rw [if_pos (by omega), if_neg (by omega), if_pos (by omega),
        show s.sp + 1 + k - s.sp = k + 1 by omega, show s.sp + 1 + k - (s.sp + 1) = k by omega,
        List.getElem?_cons_succ]

/-- The pushes keep the canonical form of STK. -/
theorem wf_pushAll {s : State} (h : Memory.wf s.stk) (bs : List Byte) : Memory.wf (pushAll bs s).stk := by
  induction bs generalizing s with
  | nil => exact h
  | cons b bs ih => exact ih (s := push b s) (Memory.wf_write h _ _)

/-- The pushes write only indexes below the height they leave. -/
theorem mem_pushAll {s : State} {bs : List Byte} {e : Nat × Byte} (he : e ∈ (pushAll bs s).stk) :
    e ∈ s.stk ∨ e.1 < s.sp + bs.length := by
  induction bs generalizing s with
  | nil => exact .inl he
  | cons b bs ih =>
    rw [pushAll_cons] at he
    rcases ih he with h | h
    · rcases Memory.mem_write (m := s.stk) h with rfl | h
      · exact .inr (by simp)
      · exact .inl h
    · refine .inr (lt_of_lt_of_eq h ?_)
      simp only [push_sp, List.length_cons]
      omega

/-! ### The encoder's loops -/

@[simp] theorem lowBytes_length (n x : Nat) : (lowBytes n x).length = n := by
  induction n generalizing x with
  | zero => rfl
  | succ n ih => simp [lowBytes, ih]

theorem getElem?_lowBytes {n k : Nat} (h : k < n) (x : Nat) :
    (lowBytes n x)[k]? = some (BitVec.ofNat 8 (x / 256 ^ k % 256)) := by
  induction n generalizing x k with
  | zero => omega
  | succ n ih =>
    cases k with
    | zero => simp [lowBytes]
    | succ k =>
      simp only [lowBytes, List.getElem?_cons_succ]
      rw [ih (by omega), Nat.div_div_eq_div_mul, ← pow_succ']

/-- The renormalization loop pushes the `n` low bytes and leaves `x / 256^n`, where `n` is the least number of bytes after
which the state is below the bound (43_encoder.md R153). -/
theorem renormalize_eq {xmax n : Nat} : ∀ {fuel x : Nat}, n ≤ fuel → x / 256 ^ n < xmax →
    (∀ k < n, xmax ≤ x / 256 ^ k) → renormalize xmax fuel x = (lowBytes n x, x / 256 ^ n) := by
  induction n with
  | zero =>
    intro fuel x _ h _
    cases fuel with
    | zero => simp [renormalize, lowBytes]
    | succ f => rw [renormalize, if_neg (by simpa using h)]; simp [lowBytes]
  | succ n ih =>
    intro fuel x hf h hk
    obtain ⟨f, rfl⟩ : ∃ f, fuel = f + 1 := ⟨fuel - 1, by omega⟩
    have h0 : xmax ≤ x := by simpa using hk 0 (by omega)
    have hd : ∀ k, x / 256 / 256 ^ k = x / 256 ^ (k + 1) := fun k => by
      rw [Nat.div_div_eq_div_mul, ← pow_succ']
    have := ih (fuel := f) (x := x / 256) (by omega) (by rw [hd]; exact h)
      (fun k hk' => by rw [hd]; exact hk (k + 1) (by omega))
    rw [renormalize, if_pos h0, this, hd]
    rfl

/-- For a positive bound there is such an `n`, and it is at most `bytelen(x)`. -/
theorem exists_renormalize_count {xmax : Nat} (hx : 0 < xmax) (x : Nat) :
    ∃ n, n ≤ byteLen x ∧ x / 256 ^ n < xmax ∧ ∀ k < n, xmax ≤ x / 256 ^ k := by
  have hex : ∃ n, x / 256 ^ n < xmax := ⟨byteLen x, by rw [Nat.div_eq_of_lt (lt_pow_byteLen x)]; exact hx⟩
  classical
  refine ⟨Nat.find hex, Nat.find_min' hex ?_, Nat.find_spec hex, fun k hk => not_lt.1 (Nat.find_min hex hk)⟩
  rw [Nat.div_eq_of_lt (lt_pow_byteLen x)]
  exact hx

/-! ### The decoder's refill -/

/-- The refill loop stops after `k` pops with the `k`-th folded state, where `k` is the first count at which the state is at
least the floor or the stack is empty (44_decoder.md R182). -/
theorem refillFrom_eq {floor : Nat} {byteAt : Nat → Byte} : ∀ {h k : Nat} {y : Nat → Nat},
    (∀ j < h, y (j + 1) = y j * 256 + (byteAt (h - 1 - j)).toNat) → k ≤ h → (∀ j < k, y j < floor) →
    (floor ≤ y k ∨ k = h) → refillFrom floor byteAt h (y 0) = (y k, h - k) := by
  intro h
  induction h with
  | zero =>
    intro k y _ hk _ _
    obtain rfl : k = 0 := by omega
    rfl
  | succ h ih =>
    intro k y hy hk hlt hstop
    cases k with
    | zero =>
      have : floor ≤ y 0 := by rcases hstop with h' | h' <;> [exact h'; omega]
      rw [refillFrom, if_neg (by omega)]
      rfl
    | succ k =>
      have h0 := hlt 0 (by omega)
      rw [refillFrom, if_pos h0]
      have h1 := hy 0 (by omega)
      simp only [Nat.add_sub_cancel, Nat.sub_zero, Nat.zero_add] at h1
      have := ih (k := k) (y := fun j => y (j + 1))
        (fun j hj => by
          have := hy (j + 1) (by omega)
          rw [show h + 1 - 1 - (j + 1) = h - 1 - j by omega] at this
          exact this)
        (by omega) (fun j hj => hlt (j + 1) (by omega)) (by rcases hstop with h' | h' <;> [exact .inl h'; exact .inr (by omega)])
      rw [← h1]
      simpa using this

/-- What the refill leaves: a height no larger, and either a state at or above the floor or an empty stack; a state below
`256 * floor` stays so. -/
theorem refillFrom_spec (floor : Nat) (byteAt : Nat → Byte) (h x : Nat) :
    (refillFrom floor byteAt h x).2 ≤ h ∧
    (floor ≤ (refillFrom floor byteAt h x).1 ∨ (refillFrom floor byteAt h x).2 = 0) ∧
    (x < 256 * floor → (refillFrom floor byteAt h x).1 < 256 * floor) := by
  induction h generalizing x with
  | zero => simp [refillFrom]
  | succ h ih =>
    rw [refillFrom]
    split
    · next hx =>
      obtain ⟨h1, h2, h3⟩ := ih (x * 256 + (byteAt h).toNat)
      refine ⟨by omega, h2, fun _ => h3 ?_⟩
      have := (byteAt h).isLt
      omega
    · next hx => exact ⟨le_rfl, .inl (by simpa using hx), fun h => h⟩

/-- From a state other than 0 the refill pops at most `k` bytes where `floor ≤ 256^k`: each fold multiplies the state by 256. -/
theorem refillFrom_pops_le {floor k : Nat} (byteAt : Nat → Byte) (hk : floor ≤ 256 ^ k) : ∀ {h i x : Nat}, i ≤ k →
    256 ^ i ≤ x → h ≤ (refillFrom floor byteAt h x).2 + (k - i) := by
  intro h
  induction h with
  | zero => intros; omega
  | succ h ih =>
    intro i x hi hx
    rw [refillFrom]
    split
    · next hlt =>
      have hik : i < k := lt_of_le_of_ne hi fun e => by subst e; omega
      have := ih (i := i + 1) (x := x * 256 + (byteAt h).toNat) hik (by rw [pow_succ]; omega)
      omega
    · exact Nat.le_add_right _ _

/-- From the state 0 the refill pops every zero byte on top of the stack (44_decoder.md R182; log 11). -/
theorem refillFrom_pops_zeros {floor : Nat} (hf : 0 < floor) {byteAt : Nat → Byte} : ∀ {h k : Nat}, k ≤ h →
    (∀ j < k, byteAt (h - 1 - j) = 0#8) → (refillFrom floor byteAt h 0).2 + k ≤ h := by
  intro h k
  induction k generalizing h with
  | zero => exact fun _ _ => (refillFrom_spec floor byteAt h 0).1
  | succ k ih =>
    intro hk hz
    obtain ⟨h, rfl⟩ : ∃ n, h = n + 1 := ⟨h - 1, by omega⟩
    have h0 : byteAt h = 0#8 := hz 0 (by omega)
    rw [refillFrom, if_pos hf, h0]
    have := ih (h := h) (by omega) fun j hj => by
      have := hz (j + 1) (by omega)
      rwa [show h + 1 - 1 - (j + 1) = h - 1 - j by omega] at this
    simp only [BitVec.toNat_ofNat, Nat.zero_mul, Nat.add_zero, Nat.zero_mod] at this ⊢
    omega

/-! ### The frequency table -/

/-- What `endStream` does, by DEC_REMAIN (44_decoder.md R183, R187). -/
theorem endStream_eq (s : State) : endStream s =
    if s.decRemain = 0 then
      { s with bonus := bonusOf s, eos := true, responses := s.responses ++ [⟨.endOfStream, bonusOf s⟩] }
    else
      { s with bonus := bonusOf s, eos := true, err := true, errcode := errorCodeBits .streamUnderflow,
               responses := s.responses ++ [⟨.error .streamUnderflow, bonusOf s⟩] } := rfl

/-- The table check is the three invariants of 41_frequency_model.md R100. -/
theorem tableValid_iff (s : State) : tableValid s = true ↔
    readCum s 0 = 0 ∧ readCum s 256 = s.params.M ∧ ∀ i < 256, readCum s i ≤ readCum s (i + 1) := by
  simp [tableValid, and_assoc]

theorem readCum_mono {s : State} (h : tableValid s = true) {i j : Nat} (hij : i ≤ j) (hj : j ≤ 256) :
    readCum s i ≤ readCum s j := by
  obtain ⟨-, -, hs⟩ := (tableValid_iff s).1 h
  induction j, hij using Nat.le_induction with
  | base => exact le_rfl
  | succ j _ ih => exact (ih (by omega)).trans (hs j (by omega))

theorem readCum_le_M {s : State} (h : tableValid s = true) {i : Nat} (hi : i ≤ 256) : readCum s i ≤ s.params.M := by
  have := readCum_mono h hi le_rfl
  rwa [((tableValid_iff s).1 h).2.1] at this

theorem freq_le_M {s : State} (h : tableValid s = true) {i : Nat} (hi : i < 256) : freq s i ≤ s.params.M :=
  (Nat.sub_le _ _).trans (readCum_le_M h (by omega))

@[simp] theorem prefixSums_length (acc : Nat) (cs : List Nat) : (prefixSums acc cs).length = cs.length + 1 := by
  induction cs generalizing acc with
  | nil => rfl
  | cons c cs ih => simp [prefixSums, ih]

theorem getElem?_prefixSums (acc : Nat) (cs : List Nat) {i : Nat} (h : i ≤ cs.length) :
    (prefixSums acc cs)[i]? = some (acc + (cs.take i).sum) := by
  induction cs generalizing acc i with
  | nil =>
    obtain rfl : i = 0 := by simpa using h
    rfl
  | cons c cs ih =>
    cases i with
    | zero => simp [prefixSums]
    | succ i =>
      simp only [prefixSums, List.getElem?_cons_succ, List.take_succ_cons, List.sum_cons]
      rw [ih (acc + c) (by simpa using h), Nat.add_assoc]

/-- BUILD's table: entry `i` is the sum of the first `i` frequencies (41_frequency_model.md R109). -/
theorem readCum_writeTable (es : List WorkEntry) (s : State) {i : Nat} (h : i ≤ es.length) :
    readCum (writeTable es s) i = ((es.map (·.freq)).take i).sum := by
  have := Memory.get?_ofValues 0 (prefixSums 0 (es.map (·.freq))) i
  rw [Nat.zero_add, getElem?_prefixSums _ _ (by simpa using h), Nat.zero_add] at this
  simp only [readCum, writeTable, this, Option.getD_some]

end Sys2Proof.Machine
end

