-- ==== Sys2Proof/Laws/Build.lean ====
section
/-! SUPPORT. The parts of BUILD (41_frequency_model.md R104 to R109): a list of working entries is its frequencies by symbol, what
the rounding, the choice of the cheapest candidate, one pass and all passes do to those frequencies. -/

namespace Sys2Proof.Machine

/-- The working entries `es` are those of the 256 symbols with weights `w` and frequencies `c`. -/
def WorkOf (w : Nat → Nat) (c : Nat → Nat) (es : List WorkEntry) : Prop :=
  es = (List.range 256).map fun i => { sym := i, weight := w i, freq := c i }

theorem workOf_congr {w c c' : Nat → Nat} {es} (h : WorkOf w c es) (hc : ∀ i < 256, c i = c' i) : WorkOf w c' es := by
  rw [WorkOf] at *
  rw [h]
  apply List.map_congr_left
  intro i hi; rw [hc i (by simpa using hi)]

theorem workOf_applyMove {w c : Nat → Nat} {es} (h : WorkOf w c es) (up : Bool) (p : Nat) :
   WorkOf w (fun i => if i = p then movedFreq up (c i) else c i) (applyMove up p es) := by
  rw [WorkOf] at *
  subst h
  rw [applyMove, List.map_map]
  apply List.map_congr_left
  intro i hi
  simp only [Function.comp]
  split <;> simp_all

theorem sum_map_range (n : Nat) (f : Nat → Nat) : ((List.range n).map f).sum = ∑ i ∈ Finset.range n, f i := by
  induction n with
  | zero => rfl
  | succ n ih => rw [List.range_succ, List.map_append, List.sum_append, ih, Finset.sum_range_succ]; simp

theorem workOf_freq_sum {w c : Nat → Nat} {es} (h : WorkOf w c es) : (es.map (·.freq)).sum = ∑ i ∈ Finset.range 256, c i := by
  rw [WorkOf] at h
  subst h
  rw [List.map_map, sum_map_range]
  rfl

theorem mem_candidates_iff {w c : Nat → Nat} {es} (h : WorkOf w c es) (up : Bool) (a : WorkEntry) :
   a ∈ candidates up es ↔ ∃ i < 256, a = ⟨i, w i, c i⟩ ∧ w i ≠ 0 ∧ (up = false → 2 ≤ c i) := by
  rw [WorkOf] at h
  subst h
  simp only [candidates, List.mem_filter, List.mem_map, List.mem_range]
  constructor
  · rintro ⟨⟨i, hi, rfl⟩, h2⟩
    refine ⟨i, hi, rfl, ?_⟩
    cases up <;> simp_all
  · rintro ⟨i, hi, rfl, h1, h2⟩
    refine ⟨⟨i, hi, rfl⟩, ?_⟩
    cases up <;> simp_all

/-- `2^(T * cost)` of an entry: the cost as a ratio of powers. -/
noncomputable def costRatio (up : Bool) (e : WorkEntry) : ℚ := (e.freq : ℚ) ^ e.weight / (movedFreq up e.freq : ℚ) ^ e.weight

theorem costLt_iff_costRatio_lt (up : Bool) (a b : WorkEntry) (ha : 1 ≤ movedFreq up a.freq) (hb : 1 ≤ movedFreq up b.freq) :
   costLt up a b = true ↔ costRatio up a < costRatio up b := by
  have p1 : (0:ℚ) < movedFreq up a.freq := by exact_mod_cast ha
  have p2 : (0:ℚ) < movedFreq up b.freq := by exact_mod_cast hb
  rw [costLt, decide_eq_true_eq, costRatio, costRatio, div_lt_div_iff₀ (by positivity) (by positivity)]
  exact_mod_cast Iff.rfl

theorem one_le_movedFreq_of_mem {w c : Nat → Nat} {es} (h : WorkOf w c es) (up : Bool) {a : WorkEntry} (ha : a ∈ candidates up es) :
   1 ≤ movedFreq up a.freq := by
  obtain ⟨i, hi, rfl, h1, h2⟩ := (mem_candidates_iff h up a).1 ha
  cases up <;> simp [movedFreq] at *
  omega

/-- There is a cheapest entry when there is a candidate. -/
theorem cheapest_isSome {w c : Nat → Nat} {es} (h : WorkOf w c es) (up : Bool) (hne : candidates up es ≠ []) :
   ∃ a, cheapest up es = some a := by
  classical
  rw [← Option.isSome_iff_exists, cheapest, List.find?_isSome]
  have : (candidates up es).toFinset.Nonempty := by
    obtain ⟨a, ha⟩ := List.exists_mem_of_ne_nil _ hne
    exact ⟨a, by simpa using ha⟩
  obtain ⟨a, ha, hmin⟩ := Finset.exists_min_image _ (costRatio up) this
  have ha' : a ∈ candidates up es := by simpa using ha
  refine ⟨a, ha', ?_⟩
  rw [List.all_eq_true]
  intro b hb
  have := hmin b (by simpa using hb)
  rw [Bool.not_eq_true', Bool.eq_false_iff, ne_eq, costLt_iff_costRatio_lt up b a (one_le_movedFreq_of_mem h up hb) (one_le_movedFreq_of_mem h up ha')]
  exact not_lt.2 this

/-- What the chosen entry is: a candidate that no candidate's cost is below, and whose cost is below that of every
candidate before it. -/
theorem cheapest_spec {w c : Nat → Nat} {es} (h : WorkOf w c es) (up : Bool) {a} (ha : cheapest up es = some a) :
   ∃ p < 256, a = ⟨p, w p, c p⟩ ∧ w p ≠ 0 ∧ (up = false → 2 ≤ c p) ∧
    (∀ q < 256, w q ≠ 0 → (up = false → 2 ≤ c q) → costLt up ⟨q, w q, c q⟩ ⟨p, w p, c p⟩ = false) ∧
    (∀ q < p, w q ≠ 0 → (up = false → 2 ≤ c q) → costLt up ⟨p, w p, c p⟩ ⟨q, w q, c q⟩ = true) := by
  rw [cheapest] at ha
  have hm := List.mem_of_find?_eq_some ha
  have hs := List.find?_some ha
  obtain ⟨p, hp, rfl, h1, h2⟩ := (mem_candidates_iff h up a).1 hm
  have hall : ∀ q < 256, w q ≠ 0 → (up = false → 2 ≤ c q) → costLt up ⟨q, w q, c q⟩ ⟨p, w p, c p⟩ = false := by
    intro q hq hw hc
    have := List.all_eq_true.1 hs _ ((mem_candidates_iff h up _).2 ⟨q, hq, rfl, hw, hc⟩)
    simpa using this
  refine ⟨p, hp, rfl, h1, h2, hall, ?_⟩
  intro q hqp hw hc
  obtain ⟨as, bs, hab, hnot⟩ := (List.find?_eq_some_iff_append.1 ha).2
  have hsorted : (candidates up es).Pairwise (fun x y => x.sym < y.sym) := by
    rw [candidates]
    apply List.Pairwise.filter
    rw [WorkOf] at h
    subst h
    rw [List.pairwise_map]
    exact List.pairwise_lt_range
  have hq : (⟨q, w q, c q⟩ : WorkEntry) ∈ candidates up es := (mem_candidates_iff h up _).2 ⟨q, by omega, rfl, hw, hc⟩
  rw [hab] at hq hsorted
  have hqas : (⟨q, w q, c q⟩ : WorkEntry) ∈ as := by
    rcases List.mem_append.1 hq with h' | h'
    · exact h'
    · exfalso
      rcases List.mem_cons.1 h' with h' | h'
      · simp at h'; omega
      · have := (List.pairwise_cons.1 (List.pairwise_append.1 hsorted).2.1).1 _ h'
        simp at this; omega
  have := hnot _ hqas
  rw [Bool.not_eq_true', List.all_eq_false] at this
  obtain ⟨b, hb, hbc⟩ := this
  obtain ⟨r, hr, rfl, hrw, hrc⟩ := (mem_candidates_iff h up b).1 hb
  have hbc : costLt up ⟨r, w r, c r⟩ ⟨q, w q, c q⟩ = true := by simpa using hbc
  have hpr := hall r hr hrw hrc
  have mv : ∀ i, (up = false → 2 ≤ c i) → 1 ≤ movedFreq up (c i) := by
    intro i hi; cases up <;> simp [movedFreq] at *; omega
  rw [costLt_iff_costRatio_lt up _ _ (mv _ hrc) (mv _ hc)] at hbc
  rw [Bool.eq_false_iff, ne_eq, costLt_iff_costRatio_lt up _ _ (mv _ hrc) (mv _ h2), not_lt] at hpr
  rw [costLt_iff_costRatio_lt up _ _ (mv _ h2) (mv _ hc)]
  exact lt_of_le_of_lt hpr hbc

/-- The passes of a successful refinement, as the sequence of the frequencies: each pass moves by one the least symbol of least
cost among the candidates (41_frequency_model.md R108). -/
theorem refine_spec {w : Nat → Nat} (up : Bool) : ∀ (n : Nat) (c : Nat → Nat) (es es' : List WorkEntry), WorkOf w c es →
   refine up n es = some es' → ∃ cs : Nat → Nat → Nat, cs 0 = c ∧ WorkOf w (cs n) es' ∧
    ∀ k < n, ∃ p < 256, w p ≠ 0 ∧ (up = false → 2 ≤ cs k p) ∧
      (∀ q < 256, w q ≠ 0 → (up = false → 2 ≤ cs k q) → costLt up ⟨q, w q, cs k q⟩ ⟨p, w p, cs k p⟩ = false) ∧
      (∀ q < p, w q ≠ 0 → (up = false → 2 ≤ cs k q) → costLt up ⟨p, w p, cs k p⟩ ⟨q, w q, cs k q⟩ = true) ∧
      ∀ i, cs (k + 1) i = if i = p then movedFreq up (cs k i) else cs k i := by
  intro n
  induction n with
  | zero => intro c es es' h hr; simp [refine] at hr; subst hr; exact ⟨fun _ => c, rfl, h, by simp⟩
  | succ n ih =>
    intro c es es' h hr
    rw [refine] at hr
    split at hr
    · simp at hr
    · next a ha =>
      obtain ⟨p, hp, rfl, h1, h2, h3, h4⟩ := cheapest_spec h up ha
      obtain ⟨cs, hc0, hs, hk⟩ := ih _ _ _ (workOf_applyMove h up p) hr
      refine ⟨fun k => match k with | 0 => c | k + 1 => cs k, rfl, hs, ?_⟩
      intro k hkn
      cases k with
      | zero =>
        refine ⟨p, hp, h1, h2, h3, h4, ?_⟩
        intro i; simp only [hc0]
      | succ k => exact hk k (by omega)

/-- Upward passes succeed when some weight is not 0. -/
theorem refine_up_isSome {w : Nat → Nat} (hK : ∃ i < 256, w i ≠ 0) : ∀ (n : Nat) (c : Nat → Nat) (es : List WorkEntry), WorkOf w c es →
   ∃ es', refine true n es = some es' := by
  intro n
  induction n with
  | zero => intro c es h; exact ⟨es, rfl⟩
  | succ n ih =>
    intro c es h
    obtain ⟨i, hi, hw⟩ := hK
    obtain ⟨a, ha⟩ := cheapest_isSome h true (List.ne_nil_of_mem ((mem_candidates_iff h true _).2 ⟨i, hi, rfl, hw, by simp⟩))
    rw [refine, ha]
    exact ih _ _ (workOf_applyMove h true a.sym)

/-- `n` downward passes succeed when the frequencies sum to at least the support plus `n`. -/
theorem refine_down_isSome {w : Nat → Nat} : ∀ (n : Nat) (c : Nat → Nat) (es : List WorkEntry), WorkOf w c es →
   (∀ i < 256, w i = 0 → c i = 0) →
   ((Finset.range 256).filter fun i => w i ≠ 0).card + n ≤ ∑ i ∈ Finset.range 256, c i →
   ∃ es', refine false n es = some es' := by
  intro n
  induction n with
  | zero => intro c es h _ _; exact ⟨es, rfl⟩
  | succ n ih =>
    intro c es h h0 hsum
    have hex : ∃ i < 256, w i ≠ 0 ∧ 2 ≤ c i := by
      by_contra hne
      push Not at hne
      have : ∑ i ∈ Finset.range 256, c i ≤ ∑ i ∈ Finset.range 256, if w i ≠ 0 then 1 else 0 := by
        apply Finset.sum_le_sum
        intro i hi
        split
        · next hw => have := hne i (by simpa using hi) hw; omega
        · next hw => rw [h0 i (by simpa using hi) (by simpa using hw)]
      rw [← Finset.card_filter] at this
      omega
    obtain ⟨i, hi, hw, hc⟩ := hex
    obtain ⟨a, ha⟩ := cheapest_isSome h false (List.ne_nil_of_mem ((mem_candidates_iff h false _).2 ⟨i, hi, rfl, hw, fun _ => hc⟩))
    rw [refine, ha]
    obtain ⟨p, hp, rfl, h1, h2, -, -⟩ := cheapest_spec h false ha
    refine ih _ _ (workOf_applyMove h false p) ?_ ?_
    · intro j hj hwj
      split
      · next he => subst he; exact absurd hwj h1
      · exact h0 j hj hwj
    · have h2 := h2 rfl
      have : ∑ i ∈ Finset.range 256, c i = (∑ i ∈ Finset.range 256, if i = p then movedFreq false (c i) else c i) + 1 := by
        rw [← Finset.add_sum_erase _ _ (Finset.mem_range.2 hp), ← Finset.add_sum_erase _ (fun i => if i = p then movedFreq false (c i) else c i) (Finset.mem_range.2 hp)]
        have : ∑ i ∈ (Finset.range 256).erase p, (if i = p then movedFreq false (c i) else c i) = ∑ i ∈ (Finset.range 256).erase p, c i :=
          Finset.sum_congr rfl fun i hi => by rw [if_neg (Finset.ne_of_mem_erase hi)]
        rw [this]
        simp [movedFreq]; omega
      omega

/-- The rounding is within one of the exact value (41_frequency_model.md R105). -/
theorem roundedFreq_bounds {M T w : Nat} (hT : 0 < T) : w * M < roundedFreq M T w * T + T ∧ roundedFreq M T w * T ≤ w * M + T := by
  rw [roundedFreq]
  have h1 := Nat.div_add_mod (w * M) T
  have h2 := Nat.mod_lt (w * M) hT
  split
  · rw [add_mul, one_mul]; rw [mul_comm] at h1; omega
  · rw [mul_comm] at h1; omega

/-- The rounding of a non-zero weight is at least 1. -/
theorem one_le_roundedFreq (M T w : Nat) : 1 ≤ roundedFreq M T w := by
  by_cases h : w * M / T = 0
  · simp [roundedFreq, h]
  · rw [roundedFreq]; have : 1 ≤ w * M / T := Nat.pos_of_ne_zero h
    generalize w * M / T = q at *
    split <;> omega

/-- The table that BUILD writes: entry `i` is the sum of the frequencies before it. -/
theorem readCum_writeTable_of_work {s : State} {es : List WorkEntry} {w c} (hs : WorkOf w c es) {i : Nat} (hi : i ≤ 256) :
   readCum (writeTable es s) i = ∑ j ∈ Finset.range i, c j := by
  rw [readCum_writeTable]
  · rw [WorkOf] at hs
    subst hs
    rw [List.map_map, ← List.map_take, List.take_range, min_eq_left hi]
    exact sum_map_range i _
  · rw [WorkOf] at hs; subst hs; simpa using hi

end Sys2Proof.Machine
end

