-- ==== Sys2Proof/Laws/Encoding.lean ====
section
/-! SUPPORT. The laws of the encoding: the fields of a header and the header of three fields undo each other, an OPC value and
its opcode likewise, what `decode` accepts said once, and a row of the opcode map selects exactly the headers that decode
to its command. -/

namespace Sys2Proof

/-! ### Fields -/

theorem headerOf_toNat (opc a : Byte) (b : BitVec 16) :
    (headerOf opc a b).toNat = opc.toNat * 2 ^ 24 + a.toNat * 2 ^ 16 + b.toNat := by
  show ((opc ++ a) ++ b).toNat = _
  rw [BitVec.toNat_append, BitVec.toNat_append, Nat.shiftLeft_eq, Nat.shiftLeft_eq]
  have ho := opc.isLt
  have ha := a.isLt
  have hb := b.isLt
  rw [mul_comm opc.toNat, ← Nat.two_pow_add_eq_or_of_lt ha, mul_comm _ (2 ^ 16), ← Nat.two_pow_add_eq_or_of_lt hb]
  omega

theorem fieldOpc_toNat (h : Header) : (fieldOpc h).toNat = h.toNat / 2 ^ 24 % 2 ^ 8 := by
  simp [fieldOpc, BitVec.extractLsb'_toNat, Nat.shiftRight_eq_div_pow]

theorem fieldA_toNat (h : Header) : (fieldA h).toNat = h.toNat / 2 ^ 16 % 2 ^ 8 := by
  simp [fieldA, BitVec.extractLsb'_toNat, Nat.shiftRight_eq_div_pow]

theorem fieldB_toNat (h : Header) : (fieldB h).toNat = h.toNat % 2 ^ 16 := by
  simp [fieldB, BitVec.extractLsb'_toNat, Nat.shiftRight_eq_div_pow]

@[simp] theorem fieldOpc_headerOf (opc a : Byte) (b : BitVec 16) : fieldOpc (headerOf opc a b) = opc := by
  apply BitVec.eq_of_toNat_eq
  rw [fieldOpc_toNat, headerOf_toNat]
  have := opc.isLt
  have := a.isLt
  have := b.isLt
  omega

@[simp] theorem fieldA_headerOf (opc a : Byte) (b : BitVec 16) : fieldA (headerOf opc a b) = a := by
  apply BitVec.eq_of_toNat_eq
  rw [fieldA_toNat, headerOf_toNat]
  have := opc.isLt
  have := a.isLt
  have := b.isLt
  omega

@[simp] theorem fieldB_headerOf (opc a : Byte) (b : BitVec 16) : fieldB (headerOf opc a b) = b := by
  apply BitVec.eq_of_toNat_eq
  rw [fieldB_toNat, headerOf_toNat]
  have := opc.isLt
  have := a.isLt
  have := b.isLt
  omega

theorem headerOf_fields (h : Header) : headerOf (fieldOpc h) (fieldA h) (fieldB h) = h := by
  apply BitVec.eq_of_toNat_eq
  rw [headerOf_toNat, fieldOpc_toNat, fieldA_toNat, fieldB_toNat]
  have := h.isLt
  omega

theorem headerOf_and (opc opc' a a' : Byte) (b b' : BitVec 16) :
    headerOf opc a b &&& headerOf opc' a' b' = headerOf (opc &&& opc') (a &&& a') (b &&& b') := by
  show ((opc ++ a) ++ b) &&& ((opc' ++ a') ++ b') = _
  rw [BitVec.and_append, BitVec.and_append]
  rfl

theorem headerOf_inj {opc opc' a a' : Byte} {b b' : BitVec 16} :
    headerOf opc a b = headerOf opc' a' b' ↔ opc = opc' ∧ a = a' ∧ b = b' := by
  constructor
  · intro h
    exact ⟨by simpa using congrArg fieldOpc h, by simpa using congrArg fieldA h, by simpa using congrArg fieldB h⟩
  · rintro ⟨rfl, rfl, rfl⟩
    rfl

/-! ### Opcodes -/

theorem mem_allOpcodes (op : Opcode) : op ∈ allOpcodes := by cases op <;> decide

@[simp] theorem opcodeOf_opcodeByte (op : Opcode) : opcodeOf (opcodeByte op) = some op := by cases op <;> rfl

theorem opcodeByte_of_opcodeOf {opc : Byte} {op : Opcode} (h : opcodeOf opc = some op) : opcodeByte op = opc := by
  simpa using List.find?_some h

theorem opcodeByte_inj {op op' : Opcode} (h : opcodeByte op = opcodeByte op') : op = op' := by
  simpa [h] using (opcodeOf_opcodeByte op).symm

theorem opcodeOf_eq_none_iff (opc : Byte) : opcodeOf opc = none ↔ ∀ op, opcodeByte op ≠ opc := by
  constructor
  · rintro h op rfl
    simp at h
  · intro h
    cases ho : opcodeOf opc with
    | none => rfl
    | some op => exact absurd (opcodeByte_of_opcodeOf ho) (h op)

@[simp] theorem opcode_instrOf (op : Opcode) (a : Byte) (b : BitVec 16) (d : Word) : (instrOf op a b d).opcode = op := by
  cases op <;> rfl

/-! ### Decoding -/

/-- What `decode` accepts and what it answers. -/
theorem decode_eq_ok_iff (h : Header) (d : Word) (i : Instr) : decode h d = .ok i ↔
    ∃ op, opcodeByte op = fieldOpc h ∧ (usesA op = true ∨ fieldA h = 0#8) ∧ (usesB op = true ∨ fieldB h = 0#16) ∧
      i = instrOf op (fieldA h) (fieldB h) d := by
  rw [decode]
  cases ho : opcodeOf (fieldOpc h) with
  | none => simp [(opcodeOf_eq_none_iff _).1 ho]
  | some op =>
    have hop := opcodeByte_of_opcodeOf ho
    have huniq : ∀ op', opcodeByte op' = fieldOpc h → op' = op := fun op' h' => opcodeByte_inj (h'.trans hop.symm)
    simp only
    split <;> next hc =>
      simp only [Bool.and_eq_true, Bool.or_eq_true, beq_iff_eq] at hc
      constructor
      · intro hd
        cases hd
        try exact ⟨op, hop, hc.1, hc.2, rfl⟩
      · rintro ⟨op', ho', ha, hb, rfl⟩
        obtain rfl := huniq op' ho'
        first | rfl | exact absurd ⟨ha, hb⟩ hc

theorem decode_ok_or_error (h : Header) (d : Word) : (∃ i, decode h d = .ok i) ∨ ∃ e, decode h d = .error e := by
  cases decode h d with
  | ok i => exact .inl ⟨i, rfl⟩
  | error e => exact .inr ⟨e, rfl⟩

/-- With an assigned OPC, the headers that decode are those whose unused fields are zero (30_encoding.md R84). -/
theorem decode_isOk_iff {h : Header} (d : Word) {op : Opcode} (ho : opcodeByte op = fieldOpc h) :
    (∃ i, decode h d = .ok i) ↔ (usesA op = true ∨ fieldA h = 0#8) ∧ (usesB op = true ∨ fieldB h = 0#16) := by
  constructor
  · rintro ⟨i, hi⟩
    obtain ⟨op', h1, h2, h3, -⟩ := (decode_eq_ok_iff _ _ _).1 hi
    obtain rfl := opcodeByte_inj (h1.trans ho.symm)
    exact ⟨h2, h3⟩
  · rintro ⟨h2, h3⟩
    exact ⟨_, (decode_eq_ok_iff _ _ _).2 ⟨op, ho, h2, h3, rfl⟩⟩

/-! ### The rows of the opcode map -/

/-- The row of an opcode, from its OPC value and the fields it uses. -/
def rowOf (op : Opcode) : TableRow where
  mnemonic := mnemonicOf op
  matchBits := headerOf (opcodeByte op) 0#8 0#16
  mask := headerOf 0xFF#8 (if usesA op then 0#8 else 0xFF#8) (if usesB op then 0#16 else 0xFFFF#16)

/-- The opcode map of 30_encoding.md R85 is the row of each opcode: R84 and R85 agree. -/
theorem opcodeTable_eq : opcodeTable = allOpcodes.map rowOf := rfl

/-- A row selects a header when OPC is the row's and the fields it does not use are zero. -/
theorem rowOf_selects_iff (h : Header) (op : Opcode) : h &&& (rowOf op).mask = (rowOf op).matchBits ↔
    opcodeByte op = fieldOpc h ∧ (usesA op = true ∨ fieldA h = 0#8) ∧ (usesB op = true ∨ fieldB h = 0#16) := by
  have hff : ∀ a : Byte, a &&& 0xFF#8 = a := fun a => BitVec.and_allOnes
  have hffff : ∀ a : BitVec 16, a &&& 0xFFFF#16 = a := fun a => BitVec.and_allOnes
  conv_lhs => rw [← headerOf_fields h]
  simp only [rowOf, headerOf_and, headerOf_inj, hff, eq_comm (a := fieldOpc h)]
  refine and_congr_right fun _ => and_congr ?_ ?_
  · cases usesA op
    · simp [hff]
    · simp
  · cases usesB op
    · simp [hffff]
    · simp

end Sys2Proof
end

