-- ==== Sys2Proof/Laws/Exec.lean ====
section
/-! SUPPORT. One inversion lemma per command: everything its meaning can answer, with the condition of each outcome. A proof
about all commands is a case split over these, with no meaning unfolded. -/

namespace Sys2Proof.Machine

theorem exec_nop_eq (s : State) : exec .nop s = .next (respond .ok 0#64 s) := rfl

theorem exec_srst_eq (s : State) : exec .srst s = .next (respond .ok 0#64 (resetRegisters s)) := rfl

theorem exec_rdreg_cases {r : Byte} {s t : State} (h : exec (.rdreg r) s = .next t) :
    (registerOf r = none ∧ t = raise .badOperand s) ∨
    ∃ reg, registerOf r = some reg ∧ t = respond .ok (readReg s reg) s := by
  simp only [exec, execRdreg, Host.Outcome.next.injEq] at h
  subst h
  cases registerOf r with
  | none => exact .inl ⟨rfl, rfl⟩
  | some reg => exact .inr ⟨reg, rfl, rfl⟩

theorem registerOf_eq_some {r : Byte} {reg : Reg} (h : registerOf r = some reg) :
    (reg = .id ∧ r = 0#8) ∨ (reg = .status ∧ r = 1#8) ∨ (reg = .errcode ∧ r = 2#8) ∨ (reg = .encState ∧ r = 3#8) ∨
    (reg = .decState ∧ r = 4#8) ∨ (reg = .sp ∧ r = 5#8) ∨ (reg = .decSym ∧ r = 6#8) ∨ (reg = .bonus ∧ r = 7#8) ∨
    (reg = .decRemain ∧ r = 8#8) ∨ (reg = .divf ∧ r = 9#8) ∨ (reg = .divsh ∧ r = 10#8) ∨
    (reg = .divmul ∧ r = 11#8) := by
  obtain ⟨hlt, hr⟩ := List.getElem?_eq_some_iff.1 h
  obtain ⟨n, hn⟩ : ∃ n, r.toNat = n := ⟨_, rfl⟩
  have hlt' : n < 12 := hn ▸ hlt
  have hb : r = BitVec.ofNat 8 n := by rw [← hn]; exact (BitVec.ofNat_toNat 8 r).symm ▸ (by simp)
  subst hb
  interval_cases n <;> subst hr <;> simp [registerList]

/-- What WRREG can do: BAD_OPERAND, or one of the five writable registers. -/
theorem exec_wrreg_cases {r : Byte} {d : Word} {s t : State} (h : exec (.wrreg r d) s = .next t) :
    t = raise .badOperand s ∨
    (r = 1#8 ∧ d.getLsbD 0 = true ∧ t = respond .ok 0#64 (clearError s)) ∨
    (r = 1#8 ∧ d.getLsbD 0 = false ∧ t = respond .ok 0#64 s) ∨
    (r = 3#8 ∧ d.toNat < s.params.BL ∧ t = respond .ok 0#64 (clearLow { s with encState := d.toNat })) ∨
    (r = 4#8 ∧ d.toNat < s.params.BL ∧ t = respond .ok 0#64 (setEos false { s with decState := d.toNat })) ∨
    (r = 5#8 ∧ d.toNat ≤ s.params.stackDepth ∧ t = respond .ok 0#64 { s with sp := d.toNat }) ∨
    (r = 8#8 ∧ d.toNat < 2 ^ 32 ∧ t = respond .ok 0#64 { s with decRemain := d.toNat }) := by
  simp only [exec, execWrreg, Host.Outcome.next.injEq] at h
  subst h
  cases hr : registerOf r with
  | none => exact .inl rfl
  | some reg =>
    rcases registerOf_eq_some hr with h | h | h | h | h | h | h | h | h | h | h | h <;> obtain ⟨rfl, rfl⟩ := h <;>
      simp only [Option.bind_some, writeReg]
    · exact .inl trivial
    · cases d.getLsbD 0 <;> simp
    · exact .inl trivial
    · by_cases hd : d.toNat < s.params.BL <;> simp [hd]
    · by_cases hd : d.toNat < s.params.BL <;> simp [hd]
    · by_cases hd : d.toNat ≤ s.params.stackDepth <;> simp [hd]
    · exact .inl trivial
    · exact .inl trivial
    · by_cases hd : d.toNat < 2 ^ 32
      · simp only [hd]; simp
      · simp only [if_neg hd]; simp
    · exact .inl trivial
    · exact .inl trivial
    · exact .inl trivial

theorem exec_wrwgt_cases {sym : Byte} {d : Word} {s t : State} (h : exec (.wrwgt sym d) s = .next t) :
    (2 ^ 32 ≤ d.toNat ∧ t = raise .badOperand s) ∨
    (d.toNat < 2 ^ 32 ∧ t = respond .ok 0#64 (writeWgt sym.toNat (d.setWidth 32) s)) := by
  simp only [exec, execWrwgt, weightOk, decide_eq_true_eq, Host.Outcome.next.injEq] at h
  split at h
  · next hd => exact .inr ⟨hd, h.symm⟩
  · next hd => exact .inl ⟨not_lt.1 hd, h.symm⟩

theorem exec_rdwgt_eq (sym : Byte) (s : State) :
    exec (.rdwgt sym) s = .next (respond .ok ((readWgt s sym.toNat).setWidth 64) s) := rfl

theorem exec_wrcum_cases {i : BitVec 16} {d : Word} {s t : State} (h : exec (.wrcum i d) s = .next t) :
    ((256 < i.toNat ∨ cumBound s.params ≤ d.toNat) ∧ t = raise .badOperand s) ∨
    (i.toNat ≤ 256 ∧ d.toNat < cumBound s.params ∧ t = respond .ok 0#64 (setTv false (writeCum i.toNat d.toNat s))) := by
  simp only [exec, execWrcum, cumIndexOk, cumValueOk, Bool.and_eq_true, decide_eq_true_eq, Host.Outcome.next.injEq] at h
  split at h
  · next hd => exact .inr ⟨hd.1, hd.2, h.symm⟩
  · next hd => exact .inl ⟨by rwa [not_and_or, not_le, not_lt] at hd, h.symm⟩

theorem exec_rdcum_cases {i : BitVec 16} {s t : State} (h : exec (.rdcum i) s = .next t) :
    (256 < i.toNat ∧ t = raise .badOperand s) ∨
    (i.toNat ≤ 256 ∧ t = respond .ok (zext64 (readCum s i.toNat)) s) := by
  simp only [exec, execRdcum, cumIndexOk, decide_eq_true_eq, Host.Outcome.next.injEq] at h
  split at h
  · next hd => exact .inr ⟨hd, h.symm⟩
  · next hd => exact .inl ⟨not_le.1 hd, h.symm⟩

theorem exec_build_cases {s t : State} (h : exec .build s = .next t) :
    (buildEntries s = none ∧ t = raise .degenerateDistribution s) ∨
    ∃ es, buildEntries s = some es ∧ t = respond .ok (sext64 (buildCorrection s)) (setTv true (writeTable es s)) := by
  simp only [exec, execBuild, Host.Outcome.next.injEq] at h
  subst h
  cases buildEntries s with
  | none => exact .inl ⟨rfl, rfl⟩
  | some es => exact .inr ⟨es, rfl, rfl⟩

theorem exec_chktab_cases {s t : State} (h : exec .chktab s = .next t) :
    (tableValid s = false ∧ t = raise .tableInvalid (setTv false s)) ∨
    (tableValid s = true ∧ t = respond .ok 0#64 (setTv true s)) := by
  simp only [exec, execChktab, Host.Outcome.next.injEq] at h
  split at h
  · next hd => exact .inr ⟨hd, h.symm⟩
  · next hd => exact .inl ⟨by simpa using hd, h.symm⟩

theorem exec_pushb_cases {b : Byte} {s t : State} (h : exec (.pushb b) s = .next t) :
    (s.params.stackDepth ≤ s.sp ∧ t = raise .stackOverflow s) ∨
    (s.sp < s.params.stackDepth ∧ t = respond .ok 0#64 (push b s)) := by
  simp only [exec, execPushb, Host.Outcome.next.injEq] at h
  split at h
  · next hd => exact .inl ⟨hd, h.symm⟩
  · next hd => exact .inr ⟨not_le.1 hd, h.symm⟩

theorem exec_popb_cases {s t : State} (h : exec .popb s = .next t) :
    (s.sp = 0 ∧ t = raise .stackUnderflow s) ∨
    (s.sp ≠ 0 ∧ t = respond .ok ((topByte s).setWidth 64) (dropTop s)) := by
  simp only [exec, execPopb, Host.Outcome.next.injEq] at h
  split at h
  · next hd => exact .inl ⟨hd, h.symm⟩
  · next hd => exact .inr ⟨hd, h.symm⟩

theorem exec_rdstk_cases {i : BitVec 16} {s t : State} (h : exec (.rdstk i) s = .next t) :
    (s.params.stackDepth ≤ i.toNat ∧ t = raise .badOperand s) ∨
    (i.toNat < s.params.stackDepth ∧ t = respond .ok ((readStk s i.toNat).setWidth 64) s) := by
  simp only [exec, execRdstk, stkIndexOk, decide_eq_true_eq, Host.Outcome.next.injEq] at h
  split at h
  · next hd => exact .inr ⟨hd, h.symm⟩
  · next hd => exact .inl ⟨not_lt.1 hd, h.symm⟩

theorem exec_wrstk_cases {b : Byte} {i : BitVec 16} {s t : State} (h : exec (.wrstk b i) s = .next t) :
    (s.params.stackDepth ≤ i.toNat ∧ t = raise .badOperand s) ∨
    (i.toNat < s.params.stackDepth ∧ t = respond .ok 0#64 (writeStk i.toNat b s)) := by
  simp only [exec, execWrstk, stkIndexOk, decide_eq_true_eq, Host.Outcome.next.injEq] at h
  split at h
  · next hd => exact .inr ⟨hd, h.symm⟩
  · next hd => exact .inl ⟨not_lt.1 hd, h.symm⟩

theorem exec_encinit_cases {d : Word} {s t : State} (h : exec (.encinit d) s = .next t) :
    (s.params.half ≤ d.toNat ∧ t = raise .badOperand s) ∨
    (d.toNat < s.params.half ∧
      t = respond .ok 0#64 (clearLow { s with encState := s.params.half + d.toNat, sp := 0 })) := by
  simp only [exec, execEncinit, bonusOk, decide_eq_true_eq, Host.Outcome.next.injEq] at h
  split at h
  · next hd => exact .inr ⟨hd, h.symm⟩
  · next hd => exact .inl ⟨not_lt.1 hd, h.symm⟩

/-- What ENC can do: its three operand checks in order, then overflow, mismatch, or the encoded symbol with `n` pushed bytes,
where `n` is the least number of bytes after which the state is below `x_max`. -/
theorem exec_enc_cases {sym : Byte} {s t : State} (h : exec (.enc sym) s = .next t) :
    (s.tv = false ∧ t = raise .tableInvalid s) ∨
    (s.tv = true ∧ freq s sym.toNat = 0 ∧ t = raise .invalidSymbol s) ∨
    (s.tv = true ∧ freq s sym.toNat ≠ 0 ∧ s.encState < s.params.half ∧ t = raise .stateRange s) ∨
    (s.tv = true ∧ freq s sym.toNat ≠ 0 ∧ s.params.half ≤ s.encState ∧
      ∃ n, n ≤ byteLen s.encState ∧ s.encState / 256 ^ n < xMax s.params (freq s sym.toNat) ∧
        (∀ k < n, xMax s.params (freq s sym.toNat) ≤ s.encState / 256 ^ k) ∧
        ((s.params.stackDepth < s.sp + n ∧ t = raise .stackOverflow s) ∨
         (s.sp + n ≤ s.params.stackDepth ∧ rescale s sym.toNat (s.encState / 256 ^ n) = none ∧
            t = raise .divMismatch s) ∨
         (s.sp + n ≤ s.params.stackDepth ∧ ∃ x, rescale s sym.toNat (s.encState / 256 ^ n) = some x ∧
            t = respond .ok (zext64 n) (noteLow { pushAll (lowBytes n s.encState) s with encState := x })))) := by
  simp only [exec, execEnc, Host.Outcome.next.injEq] at h
  split at h
  · next h0 => exact .inl ⟨h0, h.symm⟩
  · next h0 =>
    refine .inr ?_
    have h0 : s.tv = true := by simpa using h0
    split at h
    · next h1 => exact .inl ⟨h0, h1, h.symm⟩
    · next h1 =>
      refine .inr ?_
      split at h
      · next h2 => exact .inl ⟨h0, h1, h2, h.symm⟩
      · next h2 =>
        refine .inr ⟨h0, h1, not_lt.1 h2, ?_⟩
        have hx : 0 < xMax s.params (freq s sym.toNat) := by
          have := s.params.kLM_pos
          have := Nat.pos_of_ne_zero h1
          simp only [xMax]
          positivity
        obtain ⟨n, hn, hlt, hge⟩ := exists_renormalize_count hx s.encState
        refine ⟨n, hn, hlt, hge, ?_⟩
        simp only [encodeSymbol, renormalize_eq hn hlt hge, lowBytes_length] at h
        split at h
        · next h3 => exact .inl ⟨h3, h.symm⟩
        · next h3 =>
          refine .inr ?_
          split at h
          · next h4 => exact .inl ⟨not_lt.1 h3, h4, h.symm⟩
          · next x h4 => exact .inr ⟨not_lt.1 h3, x, h4, h.symm⟩

theorem exec_encflush_cases {s t : State} (h : exec .encflush s = .next t) :
    (s.params.stackDepth < s.sp + byteLen s.encState ∧ t = raise .stackOverflow s) ∨
    (s.sp + byteLen s.encState ≤ s.params.stackDepth ∧
      t = respond .ok (zext64 (byteLen s.encState))
        { pushAll (lowBytes (byteLen s.encState) s.encState) s with encState := 0 }) := by
  simp only [exec, execEncflush, Host.Outcome.next.injEq] at h
  split at h
  · next hd => exact .inl ⟨hd, h.symm⟩
  · next hd => exact .inr ⟨not_lt.1 hd, h.symm⟩

theorem exec_decinit_cases {d : Word} {s t : State} (h : exec (.decinit d) s = .next t) :
    (s.params.BL ≤ d.toNat ∧ t = raise .badOperand s) ∨
    (d.toNat < s.params.BL ∧ t = respond .ok 0#64 (setEos false { s with decState := d.toNat })) := by
  simp only [exec, execDecinit, stateOk, decide_eq_true_eq, Host.Outcome.next.injEq] at h
  split at h
  · next hd => exact .inr ⟨hd, h.symm⟩
  · next hd => exact .inl ⟨not_lt.1 hd, h.symm⟩

/-- What DEC can do: TABLE_INVALID before the refill, the end of the stream after it, or a symbol whose interval holds the
slot. -/
theorem exec_dec_cases {s t : State} (h : exec .dec s = .next t) :
    (s.tv = false ∧ t = raise .tableInvalid s) ∨
    (s.tv = true ∧ (refill s).decState < s.params.L ∧ t = endStream (refill s)) ∨
    (s.tv = true ∧ s.params.L ≤ (refill s).decState ∧ ∃ sym, sym < 256 ∧
      readCum s sym ≤ slotOf (refill s) ∧ slotOf (refill s) < readCum s (sym + 1) ∧
      t = yieldSymbol sym (refill s)) := by
  simp only [exec, execDec] at h
  split at h
  · next h0 => exact .inl ⟨h0, by simpa using h.symm⟩
  · next h0 =>
    refine .inr ?_
    have h0 : s.tv = true := by simpa using h0
    simp only [decodeSymbol] at h
    split at h
    · next h1 => exact .inl ⟨h0, h1, by simpa using h.symm⟩
    · next h1 =>
      refine .inr ⟨h0, not_lt.1 h1, ?_⟩
      split at h
      · simp at h
      · next sym h2 =>
        have hp := List.find?_some h2
        simp only [Bool.and_eq_true, decide_eq_true_eq] at hp
        exact ⟨sym, by simpa using List.mem_of_find?_eq_some h2, hp.1, hp.2, by simpa using h.symm⟩

theorem exec_divp_cases {d : Word} {s t : State} (h : exec (.divp d) s = .next t) :
    ((d.toNat = 0 ∨ s.params.M < d.toNat) ∧ t = raise .badOperand s) ∨
    (1 ≤ d.toNat ∧ d.toNat ≤ s.params.M ∧
      t = respond .ok (zext64 (divMult s.params d.toNat)) (latchDivisor d.toNat s)) := by
  simp only [exec, execDivp, divisorOk, decide_eq_true_eq, Host.Outcome.next.injEq] at h
  split at h
  · next hd => exact .inr ⟨hd.1, hd.2, h.symm⟩
  · next hd => exact .inl ⟨by omega, h.symm⟩

theorem exec_divq_cases {d : Word} {s t : State} (h : exec (.divq d) s = .next t) :
    (s.params.BL ≤ d.toNat ∧ t = raise .badOperand s) ∨
    (d.toNat < s.params.BL ∧ latchedQuotient s d.toNat ≠ d.toNat / s.divf ∧ t = raise .divMismatch s) ∨
    (d.toNat < s.params.BL ∧ latchedQuotient s d.toNat = d.toNat / s.divf ∧
      t = respond .ok (zext64 (latchedQuotient s d.toNat)) s) := by
  simp only [exec, execDivq, stateOk, decide_eq_true_eq, Host.Outcome.next.injEq] at h
  split at h
  · next hd =>
    split at h
    · next hq => exact .inr (.inr ⟨hd, hq, h.symm⟩)
    · next hq => exact .inr (.inl ⟨hd, hq, h.symm⟩)
  · next hd => exact .inl ⟨not_lt.1 hd, h.symm⟩

end Sys2Proof.Machine
end

