-- ==== Sys2Proof/Laws/Invariant.lean ====
section
/-! SUPPORT. The shared operations keep the invariant of Safety.lean: responding, the error effect, taking an input, the pushes of
a command, noting LOW. A change of one register keeps it when the clauses about that register hold again. -/

namespace Sys2Proof.Machine

/-- The table check reads the parameters, CUM and the draw, nothing else. -/
theorem tableValid_congr {s t : State} (hp : t.params = s.params) (hc : t.cum = s.cum) (hr : t.resets = s.resets) : tableValid t = tableValid s := by
  have : ∀ i, readCum t i = readCum s i := fun i => by simp [readCum, hp, hc, hr]
  simp [tableValid, this, hp]

theorem State.Inv.raise {s : State} (h : s.Inv) (e : ErrorCode) : (Machine.raise e s).Inv :=
  { encState_lt := h.encState_lt, decState_lt := h.decState_lt, sp_le := h.sp_le, decRemain_lt := h.decRemain_lt,
    divf_range := h.divf_range, divsh_eq := h.divsh_eq, divmul_eq := h.divmul_eq,
    errcode_eq := by simp, wgt_wf := h.wgt_wf, wgt_index := h.wgt_index, cum_wf := h.cum_wf, cum_index := h.cum_index,
    stk_wf := h.stk_wf, stk_index := h.stk_index, tv_valid := h.tv_valid, eos_bonus := h.eos_bonus }

theorem State.Inv.respond {s : State} (h : s.Inv) (st r) : (Machine.respond st r s).Inv :=
  { encState_lt := h.encState_lt, decState_lt := h.decState_lt, sp_le := h.sp_le, decRemain_lt := h.decRemain_lt,
    divf_range := h.divf_range, divsh_eq := h.divsh_eq, divmul_eq := h.divmul_eq,
    errcode_eq := h.errcode_eq, wgt_wf := h.wgt_wf, wgt_index := h.wgt_index, cum_wf := h.cum_wf, cum_index := h.cum_index,
    stk_wf := h.stk_wf, stk_index := h.stk_index, tv_valid := h.tv_valid, eos_bonus := h.eos_bonus }

theorem State.Inv.withInput {s : State} (h : s.Inv) (rest) : ({ s with input := rest } : State).Inv :=
  { encState_lt := h.encState_lt, decState_lt := h.decState_lt, sp_le := h.sp_le, decRemain_lt := h.decRemain_lt,
    divf_range := h.divf_range, divsh_eq := h.divsh_eq, divmul_eq := h.divmul_eq,
    errcode_eq := h.errcode_eq, wgt_wf := h.wgt_wf, wgt_index := h.wgt_index, cum_wf := h.cum_wf, cum_index := h.cum_index,
    stk_wf := h.stk_wf, stk_index := h.stk_index, tv_valid := h.tv_valid, eos_bonus := h.eos_bonus }

theorem State.Inv.pushAll {s : State} (h : s.Inv) (bs : List Byte) (x : Nat) (hx : x < s.params.BL) (hsp : s.sp + bs.length ≤ s.params.stackDepth) :
   ({ Machine.pushAll bs s with encState := x } : State).Inv :=
  { encState_lt := by simpa using hx
    decState_lt := by simpa using h.decState_lt
    sp_le := by simpa using hsp
    decRemain_lt := by simpa using h.decRemain_lt
    divf_range := by simpa using h.divf_range
    divsh_eq := by simpa using h.divsh_eq
    divmul_eq := by simpa using h.divmul_eq
    errcode_eq := by simpa using h.errcode_eq
    wgt_wf := by simpa using h.wgt_wf
    wgt_index := by simpa using h.wgt_index
    cum_wf := by simpa using h.cum_wf
    cum_index := by simpa using h.cum_index
    stk_wf := wf_pushAll h.stk_wf bs
    stk_index := by
      intro e he
      have : ({ Machine.pushAll bs s with encState := x } : State).params = s.params := by simp
      rw [this]
      rcases mem_pushAll he with h1 | h1
      · exact h.stk_index e h1
      · omega
    tv_valid := by
      intro htv
      rw [tableValid_congr (s := s) (by simp) (by simp) (by simp)]
      exact h.tv_valid (by simpa using htv)
    eos_bonus := by
      intro heos
      have := h.eos_bonus (by simpa using heos)
      simpa [bonusOf] using this }

theorem State.Inv.noteLow {s : State} (h : s.Inv) : (Machine.noteLow s).Inv :=
  { encState_lt := h.encState_lt, decState_lt := h.decState_lt, sp_le := h.sp_le, decRemain_lt := h.decRemain_lt,
    divf_range := h.divf_range, divsh_eq := h.divsh_eq, divmul_eq := h.divmul_eq,
    errcode_eq := h.errcode_eq, wgt_wf := h.wgt_wf, wgt_index := h.wgt_index, cum_wf := h.cum_wf, cum_index := h.cum_index,
    stk_wf := h.stk_wf, stk_index := h.stk_index, tv_valid := h.tv_valid, eos_bonus := h.eos_bonus }

/-- The refill keeps DEC_STATE below `B * L`. -/
theorem refill_decState_lt {s : State} (h : s.Inv) : (refill s).decState < s.params.BL := by
  have := (refillFrom_spec s.params.L (readStk s) s.sp s.decState).2.2
  rw [← s.params.BL_eq] at this
  exact this h.decState_lt

@[simp] theorem clog2_one : clog2 1 = 0 := by decide

/-- Divisor 1: the values of DIVSH and DIVMUL at reset. -/
theorem divShift_one (p : Params) : divShift p 1 = p.N := by simp [divShift, clog2_one]

theorem divMult_one (p : Params) : divMult p 1 = 2 ^ p.N := by simp [divMult, divShift_one]

end Sys2Proof.Machine
end

