-- ==== Sys2Proof/Laws/PerInstr.lean ====
section
/-! SUPPORT. The family EncodeRow: the words of a command are selected by the row of the opcode map with its mnemonic, whatever
its operands (30_encoding.md R85, R88). -/

namespace Sys2Proof.Laws.EncodeRow

/-- The row of the opcode map with the mnemonic of `i` selects the header of `encode i`. -/
def Statement (i : Instr) : Prop :=
  ∃ row ∈ opcodeTable, row.mnemonic = mnemonicOf i.opcode ∧ (encode i).header &&& row.mask = row.matchBits

/-- It is so when the operands of `i` are zero in the fields its opcode does not use. -/
theorem of_unused_zero {i : Instr} (ha : usesA i.opcode = true ∨ i.operandA = 0#8)
    (hb : usesB i.opcode = true ∨ i.operandB = 0#16) : Statement i :=
  ⟨rowOf i.opcode, opcodeTable_eq ▸ List.mem_map.2 ⟨_, mem_allOpcodes _, rfl⟩, rfl,
    (rowOf_selects_iff _ _).2 (by simp [encode, ha, hb])⟩

theorem nop : Statement .nop := of_unused_zero (.inr rfl) (.inr rfl)
theorem srst : Statement .srst := of_unused_zero (.inr rfl) (.inr rfl)
theorem rdreg (r : Byte) : Statement (.rdreg r) := of_unused_zero (.inl rfl) (.inr rfl)
theorem wrreg (r : Byte) (d : Word) : Statement (.wrreg r d) := of_unused_zero (.inl rfl) (.inr rfl)
theorem wrwgt (s : Byte) (d : Word) : Statement (.wrwgt s d) := of_unused_zero (.inl rfl) (.inr rfl)
theorem rdwgt (s : Byte) : Statement (.rdwgt s) := of_unused_zero (.inl rfl) (.inr rfl)
theorem wrcum (i : BitVec 16) (d : Word) : Statement (.wrcum i d) := of_unused_zero (.inr rfl) (.inl rfl)
theorem rdcum (i : BitVec 16) : Statement (.rdcum i) := of_unused_zero (.inr rfl) (.inl rfl)
theorem build : Statement .build := of_unused_zero (.inr rfl) (.inr rfl)
theorem chktab : Statement .chktab := of_unused_zero (.inr rfl) (.inr rfl)
theorem pushb (b : Byte) : Statement (.pushb b) := of_unused_zero (.inl rfl) (.inr rfl)
theorem popb : Statement .popb := of_unused_zero (.inr rfl) (.inr rfl)
theorem rdstk (i : BitVec 16) : Statement (.rdstk i) := of_unused_zero (.inr rfl) (.inl rfl)
theorem wrstk (b : Byte) (i : BitVec 16) : Statement (.wrstk b i) := of_unused_zero (.inl rfl) (.inl rfl)
theorem encinit (d : Word) : Statement (.encinit d) := of_unused_zero (.inr rfl) (.inr rfl)
theorem enc (s : Byte) : Statement (.enc s) := of_unused_zero (.inl rfl) (.inr rfl)
theorem encflush : Statement .encflush := of_unused_zero (.inr rfl) (.inr rfl)
theorem decinit (d : Word) : Statement (.decinit d) := of_unused_zero (.inr rfl) (.inr rfl)
theorem dec : Statement .dec := of_unused_zero (.inr rfl) (.inr rfl)
theorem divp (d : Word) : Statement (.divp d) := of_unused_zero (.inr rfl) (.inr rfl)
theorem divq (d : Word) : Statement (.divq d) := of_unused_zero (.inr rfl) (.inr rfl)

end Sys2Proof.Laws.EncodeRow
end

