-- ==== Sys2Proof/Tests/Slice0.lean ====
section
/-! SUPPORT. Tests: ill-formed headers are refused; words written out from the spec's encodings decode to their commands; one step
of each command against spec/95_test_vectors.md (the vector's name stands in each test); and, for each statement with
hypotheses, a witness that meets them. -/

namespace Sys2Proof.Tests

open Sys2Proof.Machine

/-! ### Helpers -/

/-- The small parameters of spec/95_test_vectors.md. -/
def small : Params := { mBits := 4, lBits := 8, sdBits := 16 }

/-- CUM of V-FM-3, the hello-world table for M = 16. -/
def helloTable : List Nat :=
  List.replicate 33 0 ++ [2] ++ List.replicate 67 4 ++ [5] ++ List.replicate 3 6 ++ List.replicate 4 7 ++
  List.replicate 3 11 ++ List.replicate 3 14 ++ List.replicate 5 15 ++ List.replicate 137 16

/-- CUM of V-FM-6: 0x41 has frequency 2 and 0x42 has frequency 14. -/
def pairTable : List Nat := List.replicate 66 0 ++ [2] ++ List.replicate 190 16

/-- After reset, with the given table and TV = 1. -/
def withTable (table : List Nat) : State :=
  { State.resetWith small with cum := Memory.ofValues 0 table, tv := true }

def hello : State := withTable helloTable

def pair : State := withTable pairTable

/-- After reset with M_BITS = 4 and the given weights from symbol 97 on, every other weight 0. -/
def withWeights (ws : List (BitVec 32)) : State :=
  { State.resetWith small with wgt := Memory.ofValues 0 (List.replicate 97 0 ++ ws ++ List.replicate (159 - ws.length) 0) }

/-- The state a command leaves. -/
def after (i : Instr) (s : State) : State :=
  match exec i s with
  | .next t => t
  | .fault _ => s
  | .refused _ => s

/-- The last response: status code and word. -/
def answer (s : State) : Option (BitVec 4 × Word) := s.responses.getLast?.map fun x => (statusBits x.status, x.r)

/-- The command the decoder reads, `none` where it refuses. -/
def read (h : Header) (d : Word) : Option Instr :=
  match decode h d with
  | .ok i => some i
  | .error _ => none

theorem readCum_withTable {table : List Nat} {i v : Nat} (h : table[i]? = some v) : readCum (withTable table) i = v := by
  have := Memory.get?_ofValues 0 table i
  rw [Nat.zero_add, h] at this
  show ((Memory.ofValues 0 table).get? i).getD _ = v
  rw [this, Option.getD_some]

/-- A table of 257 entries from 0 to 16 in rising order is valid. -/
theorem tableValid_withTable {table : List Nat} (hl : table.length = 257) (h0 : table[0]? = some 0)
    (hM : table[256]? = some 16) (hs : table.IsChain (· ≤ ·)) : tableValid (withTable table) = true := by
  refine (tableValid_iff _).2 ⟨readCum_withTable h0, readCum_withTable hM, fun i hi => ?_⟩
  rw [readCum_withTable (List.getElem?_eq_getElem (show i < table.length by omega)),
    readCum_withTable (List.getElem?_eq_getElem (show i + 1 < table.length by omega))]
  exact List.isChain_iff_getElem.1 hs i (by omega)

theorem hello_tableValid : tableValid hello = true :=
  tableValid_withTable (by decide +kernel) (by decide +kernel) (by decide +kernel) (by decide +kernel)

theorem pair_tableValid : tableValid pair = true :=
  tableValid_withTable (by decide +kernel) (by decide +kernel) (by decide +kernel) (by decide +kernel)

/-- The same table with entry 256 set to 15. -/
theorem broken_not_valid : tableValid (writeCum 256 15 hello) = false := by
  rw [Bool.eq_false_iff]
  intro h
  have := ((tableValid_iff _).1 h).2.1
  rw [readCum_writeCum] at this
  revert this
  decide

/-! ### Ill-formed headers (V-HA-16, V-HA-17, V-HA-18) -/

theorem test_wellFormed_refuses_unassigned_opc : Header.wellFormed 0x04000000#32 = false := by decide
theorem test_wellFormed_refuses_reserved_a : Header.wellFormed 0x00010000#32 = false := by decide
theorem test_wellFormed_refuses_reserved_b : Header.wellFormed 0x39000001#32 = false := by decide
theorem test_wellFormed_accepts_wrstk : Command.wellFormed ⟨0x23AB0003#32, 0#64⟩ = true := by decide

/-! ### Words written out from the encodings -/

theorem test_decode_nop : read 0x00000000#32 0xFFFFFFFFFFFFFFFF#64 = some .nop := by decide
theorem test_decode_srst : read 0x01000000#32 0#64 = some .srst := by decide
theorem test_decode_rdreg : read 0x020B0000#32 0#64 = some (.rdreg 11#8) := by decide
theorem test_decode_wrreg : read 0x03050000#32 0x10001#64 = some (.wrreg 5#8 65537#64) := by decide
theorem test_decode_wrwgt : read 0x106C0000#32 3#64 = some (.wrwgt 108#8 3#64) := by decide
theorem test_decode_rdwgt : read 0x116C0000#32 0#64 = some (.rdwgt 108#8) := by decide
theorem test_decode_wrcum : read 0x12000100#32 0xFFFF#64 = some (.wrcum 256#16 65535#64) := by decide
theorem test_decode_rdcum : read 0x13000100#32 0#64 = some (.rdcum 256#16) := by decide
theorem test_decode_build : read 0x14000000#32 0#64 = some .build := by decide
theorem test_decode_chktab : read 0x15000000#32 0#64 = some .chktab := by decide
theorem test_decode_pushb : read 0x20800000#32 0#64 = some (.pushb 0x80#8) := by decide
theorem test_decode_popb : read 0x21000000#32 0#64 = some .popb := by decide
theorem test_decode_rdstk : read 0x22000002#32 0#64 = some (.rdstk 2#16) := by decide
theorem test_decode_wrstk : read 0x23AB0003#32 0#64 = some (.wrstk 0xAB#8 3#16) := by decide
theorem test_decode_encinit : read 0x30000000#32 0x7FFFFF#64 = some (.encinit 8388607#64) := by decide
theorem test_decode_enc : read 0x31640000#32 0#64 = some (.enc 100#8) := by decide
theorem test_decode_encflush : read 0x32000000#32 0#64 = some .encflush := by decide
theorem test_decode_decinit : read 0x38000000#32 0x99F59D1#64 = some (.decinit 161438161#64) := by decide
theorem test_decode_dec : read 0x39000000#32 0#64 = some .dec := by decide
theorem test_decode_divp : read 0x40000000#32 3#64 = some (.divp 3#64) := by decide
theorem test_decode_divq : read 0x41000000#32 0x75BCD15#64 = some (.divq 123456789#64) := by decide

/-- The table's numbering: the header first, the payload above it (V-HA-9). -/
theorem test_decodeTableWord : decodeTableWord 96 0x0000000000000001_03010000 = some (.wrreg 1#8 1#64) := by decide

/-- The host's placing of a word makes the next step run it (V-HA-1, small parameters V-HA-2). -/
theorem test_withFetchWord : (match step ((State.resetWith small).withFetchWord 32 0x02000000) with
    | .next t => answer t | .fault _ => none | .refused _ => none) = some (0#4, 0x01100804#64) := by decide

/-! ### One step of each command -/

/-- V-HA-19. -/
theorem test_nop : after .nop hello = { hello with responses := [⟨.ok, 0#64⟩] } := by decide +kernel

/-- V-HA-20: registers as reset, memories kept, TV = 0. -/
theorem test_srst : (after .srst { hello with err := true, errcode := 3#4, sp := 7, divf := 3 }).tv = false ∧
    (after .srst { hello with err := true, errcode := 3#4, sp := 7, divf := 3 }).cum = hello.cum := by decide +kernel

/-- V-HA-1. -/
theorem test_rdreg_id : answer (after (.rdreg 0#8) State.reset) = some (0#4, 0x01101810#64) := by decide
/-- V-HA-4. -/
theorem test_rdreg_twelve : answer (after (.rdreg 12#8) State.reset) = some (3#4, 0#64) := by decide

/-- V-HA-10: EOS, TV and LOW are not writable. -/
theorem test_wrreg_status : after (.wrreg 1#8 0xE#64) hello = { hello with responses := [⟨.ok, 0#64⟩] } := by decide +kernel
/-- V-HA-7: a full stack is legal. -/
theorem test_wrreg_sp : (after (.wrreg 5#8 65536#64) State.reset).sp = 65536 := by decide

/-- V-FM-13: the largest weight. -/
theorem test_wrwgt : (after (.wrwgt 5#8 0xFFFFFFFF#64) State.reset).wgt = [(5, 0xFFFFFFFF#32)] := by decide
/-- V-FM-12. -/
theorem test_wrwgt_too_large : answer (after (.wrwgt 5#8 0x100000000#64) State.reset) = some (3#4, 0#64) := by decide

/-- V-FM-11. -/
theorem test_rdwgt : answer (after (.rdwgt 0x6C#8) { State.reset with wgt := [(0x6C, 3#32)] }) = some (0#4, 3#64) := by
  decide

/-- V-FM-15: TV falls even if the value is the old one. -/
theorem test_wrcum : (after (.wrcum 0#16 0#64) hello).tv = false ∧
    (after (.wrcum 0#16 0#64) hello).cum = hello.cum := by decide +kernel
/-- V-FM-19. -/
theorem test_wrcum_index : answer (after (.wrcum 257#16 0#64) hello) = some (3#4, 0#64) := by decide

/-- V-FM-14, for M = 16. -/
theorem test_rdcum : answer (after (.rdcum 256#16) hello) = some (0#4, 16#64) := by decide +kernel

/-- V-FM-10: the tie goes to the lowest index. -/
theorem test_build : (after .build (withWeights [1, 1, 1])).cum =
      Memory.ofValues 0 (List.replicate 98 0 ++ [6, 11] ++ List.replicate 157 16) ∧
    (after .build (withWeights [1, 1, 1])).responses = [⟨.ok, 1#64⟩] := by decide +kernel
/-- V-FM-8. -/
theorem test_build_no_weight : answer (after .build (withWeights [])) = some (4#4, 0#64) := by decide +kernel

/-- V-FM-16. -/
theorem test_chktab : after .chktab { hello with tv := false } = { hello with responses := [⟨.ok, 0#64⟩] } := by
  have h : tableValid { hello with tv := false } = true := hello_tableValid
  simp only [after, exec, execChktab, h, if_true]
  rfl
/-- V-FM-17, for M = 16. -/
theorem test_chktab_invalid : answer (after .chktab (writeCum 256 15 hello)) = some (8#4, 0#64) ∧
    (after .chktab (writeCum 256 15 hello)).tv = false := by
  simp only [after, exec, execChktab, broken_not_valid]
  exact ⟨rfl, rfl⟩

/-- V-HA-12, the first push. -/
theorem test_pushb : (after (.pushb 0x80#8) State.reset).stk = [(0, 0x80#8)] ∧
    (after (.pushb 0x80#8) State.reset).sp = 1 := by decide
/-- V-HA-12, the last push: STACK_OVERFLOW with STACK_DEPTH = 2. -/
theorem test_pushb_full :
    answer (after (.pushb 2#8) { State.resetWith { mBits := 4, lBits := 8, sdBits := 1 } with sp := 2 }) = some (9#4, 0#64) := by
  decide

/-- V-HA-14: the popped entry keeps its value. -/
theorem test_popb : after .popb { State.reset with stk := [(0, 0x80#8), (1, 1#8)], sp := 2 } =
    { State.reset with stk := [(0, 0x80#8), (1, 1#8)], sp := 1, responses := [⟨.ok, 1#64⟩] } := by decide
/-- V-HA-11. -/
theorem test_popb_empty : answer (after .popb State.reset) = some (10#4, 0#64) := by decide

/-- V-HA-15. -/
theorem test_rdstk : answer (after (.rdstk 3#16) { State.reset with stk := [(3, 0xAB#8)] }) = some (0#4, 0xAB#64) := by decide
/-- V-HA-15. -/
theorem test_wrstk : after (.wrstk 0xAB#8 3#16) State.reset =
    { State.reset with stk := [(3, 0xAB#8)], responses := [⟨.ok, 0#64⟩] } := by decide

/-- V-EN-2: the largest bonus. -/
theorem test_encinit : (after (.encinit 8388607#64) { State.reset with low := true, sp := 4 }).encState = 0xFFFFFF ∧
    (after (.encinit 8388607#64) { State.reset with low := true, sp := 4 }).sp = 0 := by decide
/-- V-EN-3. -/
theorem test_encinit_too_large : answer (after (.encinit 8388608#64) State.reset) = some (3#4, 0#64) := by decide

/-- V-EN-8: one byte is pushed. -/
theorem test_enc : (after (.enc 100#8) { hello with encState := 65535 }).encState = 4084 ∧
    (after (.enc 100#8) { hello with encState := 65535 }).stk = [(0, 0xFF#8)] := by decide
/-- V-EN-9: LOW. -/
theorem test_enc_low : (after (.enc 0x42#8) { pair with encState := 128 }).encState = 148 ∧
    (after (.enc 0x42#8) { pair with encState := 128 }).low = true := by decide

/-- V-EN-17: the bytes 00 00 80. -/
theorem test_encflush : after .encflush { State.reset with encState := 0x800000 } =
    { State.reset with stk := [(0, 0#8), (1, 0#8), (2, 0x80#8)], sp := 3, responses := [⟨.ok, 3#64⟩] } := by decide
/-- V-EN-18. -/
theorem test_encflush_zero : answer (after .encflush State.reset) = some (0#4, 0#64) := by decide

/-- V-DE-14. -/
theorem test_decinit : (after (.decinit 4294967295#64) { State.reset with eos := true }).decState = 0xFFFFFFFF ∧
    (after (.decinit 4294967295#64) { State.reset with eos := true }).eos = false := by decide
/-- V-DE-13. -/
theorem test_decinit_too_large : answer (after (.decinit 4294967296#64) State.reset) = some (3#4, 0#64) := by decide

/-- V-DE-1. -/
theorem test_dec : answer (after .dec { hello with decState := 1026 }) = some (0#4, 33#64) ∧
    (after .dec { hello with decState := 1026 }).decState = 128 := by decide +kernel
/-- V-DE-8: STREAM_UNDERFLOW pops the byte, sets BONUS and EOS, and keeps DEC_REMAIN. -/
theorem test_dec_underflow : after .dec { hello with stk := [(0, 0x85#8)], sp := 1, decRemain := 2 } =
    { hello with
      stk := [(0, 0x85#8)], sp := 0, decRemain := 2, decState := 133, bonus := 5#64, eos := true, err := true
      errcode := 6#4, responses := [⟨.error .streamUnderflow, 5#64⟩] } := by decide +kernel

/-- V-DV-3. -/
theorem test_divp : (after (.divp 3#64) State.reset).divsh = 34 ∧
    answer (after (.divp 3#64) State.reset) = some (0#4, 5726623062#64) := by decide
/-- V-DV-16. -/
theorem test_divp_too_large : answer (after (.divp 65537#64) State.reset) = some (3#4, 0#64) := by decide

/-- V-DV-3. -/
theorem test_divq : answer (after (.divq 4294967295#64) (after (.divp 3#64) State.reset)) = some (0#4, 1431655765#64) := by
  decide
/-- V-DV-17. -/
theorem test_divq_too_large : answer (after (.divq 4294967296#64) State.reset) = some (3#4, 0#64) := by decide

/-! ### Assembler text -/

/-- The lines of V-HA-15 in the forms of 30_encoding.md R90. -/
theorem test_asm : asmLine (.wrstk 0xAB#8 3#16) = "WRSTK 3, 171" ∧ asmLine (.rdreg 11#8) = "RDREG DIVMUL" ∧
    hexLine (encode (.wrstk 0xAB#8 3#16)) = "23AB0003:0000000000000000" := by decide +kernel

/-- CLRERR and ENCSTR "ab" (30_encoding.md R91). -/
theorem test_pseudo : Pseudo.expand .clrerr = [.wrreg 1#8 1#64] ∧
    Pseudo.expand (.encstr [97#8, 98#8]) = [.enc 98#8, .enc 97#8] := by decide

/-! ### Witnesses: each shows a state and operands that meet all hypotheses of the statement it is named after -/

theorem withTable_inv {table : List Nat} (hv : tableValid (withTable table) = true) (hl : table.length = 257)
    (hb : ∀ v ∈ table, v < cumBound small) : (withTable table).Inv where
  encState_lt := by show 0 < small.BL; decide
  decState_lt := by show 0 < small.BL; decide
  sp_le := Nat.zero_le _
  decRemain_lt := by show 0 < 2 ^ 32; decide
  divf_range := by show 1 ≤ 1 ∧ 1 ≤ small.M; decide
  divsh_eq := (divShift_one small).symm
  divmul_eq := (divMult_one small).symm
  errcode_eq := by simp [withTable, State.resetWith]
  wgt_wf := .nil
  wgt_index := by simp [withTable, State.resetWith]
  cum_wf := Memory.wf_ofValues 0 table
  cum_index := fun e he => by
    obtain ⟨-, h1, h2⟩ := Memory.mem_ofValues (k := 0) he
    exact ⟨by omega, hb _ h2⟩
  stk_wf := .nil
  stk_index := by simp [withTable, State.resetWith]
  tv_valid := fun _ => hv
  eos_bonus := by simp [withTable, State.resetWith]

theorem hello_inv : hello.Inv := withTable_inv hello_tableValid (by decide +kernel) (by decide +kernel)

theorem pair_inv : pair.Inv := withTable_inv pair_tableValid (by decide +kernel) (by decide +kernel)

/-- A state of the invariant with the host's input given. -/
def asked (input : List HostOp) : State := { hello with input := input }

theorem witness_StepRunsTheDecodedCommand :
    (asked [.command ⟨0x31680000#32, 0#64⟩]).input = .command ⟨0x31680000#32, 0#64⟩ :: [] ∧
    decode 0x31680000#32 0#64 = .ok (.enc 0x68#8) ∧ hello.input = [] := ⟨rfl, by decide, rfl⟩

theorem witness_IllegalHeaderOnlySetsErrAndErrcode :
    ∀ row ∈ opcodeTable, (⟨0x04000000#32, 0#64⟩ : Command).header &&& row.mask ≠ row.matchBits := by decide

theorem witness_HeaderIsOneRowOrIllegal :
    (∃ row ∈ opcodeTable, 0x31680000#32 &&& row.mask = row.matchBits) ∧
    decode 0x31680000#32 0#64 = .ok (.enc 0x68#8) ∧ decode 0x39000001#32 0#64 = .error (.reservedField 0x39#8) := by decide

/-- A boundary value of each clause. -/
theorem witness_ReservedEncodingsAreRejected :
    (0x42 ∈ Finset.Icc 0x04 0x0F ∪ Finset.Icc 0x16 0x1F ∪ Finset.Icc 0x24 0x2F ∪ Finset.Icc 0x33 0x37 ∪
      Finset.Icc 0x3A 0x3F ∪ Finset.Icc 0x42 0xFF) ∧
    ((0x42000000#32).extractLsb' 24 8).toNat = 0x42 ∧ ((0x41000000#32).extractLsb' 24 8).toNat = 0x41 ∧
    ((0x31000000#32).extractLsb' 24 8).toNat = 0x31 ∧ ((0x22000000#32).extractLsb' 24 8).toNat = 0x22 ∧
    ((0x23000000#32).extractLsb' 24 8).toNat = 0x23 := by decide +kernel

theorem witness_EncodeOfDecodeIsTheCommand : decode 0x23AB0003#32 5#64 = .ok (.wrstk 0xAB#8 3#16) := by decide

theorem witness_EveryCommandGetsOneResponse : hello.Inv := hello_inv

/-- One witness for each of its two clauses: POPB of the empty stack, and DEC with a symbol still expected. -/
theorem witness_FailedCommandChangesOnlyErrAndErrcode : ∃ s : State, s.Inv ∧
    (∃ t, runCommand ⟨0x21000000#32, 0#64⟩ s = .next t ∧
      t.responses = s.responses ++ [⟨.error .stackUnderflow, 0#64⟩]) ∧
    ∃ t r, runCommand ⟨0x39000000#32, 0#64⟩ s = .next t ∧
      t.responses = s.responses ++ [⟨.error .streamUnderflow, r⟩] :=
  ⟨{ hello with decRemain := 1 }, { hello_inv with decRemain_lt := by decide },
    ⟨_, rfl, rfl⟩, ⟨_, _, rfl, rfl⟩⟩

theorem witness_CommandStatusesAreThoseListed : ∃ t, exec .popb hello = .next t ∧
    t.responses = hello.responses ++ [⟨.error .stackUnderflow, 0#64⟩] := ⟨_, rfl, rfl⟩

theorem witness_DivMismatchNeverOccurs : hello.Inv ∧ ∃ t, exec (.divq 5#64) hello = .next t := ⟨hello_inv, _, rfl⟩

/-- A failed and a successful command with ERR set. -/
theorem witness_ErrIsSticky :
    (∃ t, runCommand ⟨0x21000000#32, 0#64⟩ { hello with err := true } = .next t ∧
      t.responses = hello.responses ++ [⟨.error .stackUnderflow, 0#64⟩]) ∧
    (∃ t, runCommand ⟨0x00000000#32, 0#64⟩ { hello with err := true } = .next t ∧
      t.responses = hello.responses ++ [⟨.ok, 0#64⟩]) ∧
    decode 0x21000000#32 0#64 = .ok .popb ∧ decode 0x00000000#32 0#64 = .ok .nop :=
  ⟨⟨_, rfl, rfl⟩, ⟨_, rfl, rfl⟩, by decide, by decide⟩

theorem witness_ErrNeverChangesWhatACommandDoes : Instr.dec ≠ .rdreg 1#8 ∧ Instr.dec ≠ .rdreg 2#8 ∧
    ∃ t, exec .dec hello = .next t := ⟨by decide, by decide, _, rfl⟩

theorem witness_ResetSetsEveryRegister : (asked [.reset]).input = .reset :: [] := rfl

/-- The last register, and the first and the last number that names none. -/
theorem witness_RdregReturnsTheRegister : (11#8).toNat = 11 ∧ 12 ≤ (12#8).toNat ∧ 12 ≤ (255#8).toNat := by decide

/-- Boundary values of each clause, for the small parameters: `2^N = 65536`, STACK_DEPTH = 65536. -/
theorem witness_WrregWritesTheWritableRegisters : (11#8).toNat ∈ [0, 2, 6, 7, 9, 10, 11] ∧ 12 ≤ (12#8).toNat ∧
    (1#64).getLsbD 0 = true ∧ (14#64).getLsbD 0 = false ∧
    (65535#64).toNat < 2 ^ (small.lBits + 8) ∧ 2 ^ (small.lBits + 8) ≤ (65536#64).toNat ∧
    (65536#64).toNat ≤ 2 ^ small.sdBits ∧ 2 ^ small.sdBits < (65537#64).toNat ∧
    (0xFFFFFFFF#64).toNat < 2 ^ 32 ∧ 2 ^ 32 ≤ (0x100000000#64).toNat := by decide

theorem witness_PushbPushesOneByte : ({ hello with sp := 65535 } : State).sp < 2 ^ hello.params.sdBits ∧
    ({ hello with sp := 65536 } : State).sp = 2 ^ hello.params.sdBits := by decide

theorem witness_PopbPopsOneByte : ({ hello with sp := 65536 } : State).sp = 65535 + 1 ∧ hello.sp = 0 := by decide

/-- With STACK_DEPTH = 2, the last index and the first that is too large. -/
theorem witness_RdstkReadsByIndex : (1#16).toNat < 2 ^ (1 : Nat) ∧ 2 ^ (1 : Nat) ≤ (2#16).toNat := by decide

theorem witness_WrstkWritesByIndex : (1#16).toNat < 2 ^ (1 : Nat) ∧ 2 ^ (1 : Nat) ≤ (2#16).toNat := by decide

theorem witness_WrwgtWritesOneWeight : (0xFFFFFFFF#64).toNat < 2 ^ 32 ∧ 2 ^ 32 ≤ (0x100000000#64).toNat := by decide

theorem witness_WrcumWritesOneEntryClearsTv : (256#16).toNat ≤ 256 ∧ (31#64).toNat < 2 ^ (small.mBits + 1) ∧
    256 < (257#16).toNat ∧ 2 ^ (small.mBits + 1) ≤ (32#64).toNat := by decide

theorem witness_RdcumReadsOneEntry : (256#16).toNat ≤ 256 ∧ 256 < (257#16).toNat := by decide

/-- A valid table, and one whose last entry is not M. -/
theorem witness_ChktabValidatesTheTable :
    (readCum hello 0 = 0 ∧ readCum hello 256 = 2 ^ hello.params.mBits ∧
      ∀ i, i ≤ 255 → readCum hello i ≤ readCum hello (i + 1)) ∧
    readCum (writeCum 256 15 hello) 256 ≠ 2 ^ hello.params.mBits := by
  obtain ⟨h0, hM, hs⟩ := (tableValid_iff hello).1 hello_tableValid
  exact ⟨⟨h0, hM, fun i hi => hs i (by omega)⟩, by rw [readCum_writeCum]; decide⟩

theorem witness_ValidTableFrequenciesSumToM : readCum hello 0 = 0 ∧
    (∀ i < 256, readCum hello i ≤ readCum hello (i + 1)) ∧ readCum hello 256 = hello.params.M := by
  obtain ⟨h0, hM, hs⟩ := (tableValid_iff hello).1 hello_tableValid
  exact ⟨h0, hs, hM⟩

/-- Each clause: SRST; CHKTAB and WRCUM, successful (CHKTAB by test_chktab) and failing (CHKTAB by test_chktab_invalid); BUILD
(by test_build and test_build_no_weight); NOP, with TV = 1 and a valid table. -/
theorem witness_TvLifeCycle :
    (∃ t st r, exec .srst hello = .next t ∧ t.responses = hello.responses ++ [⟨st, r⟩]) ∧
    answer (after (.wrcum 256#16 31#64) hello) = some (0#4, 0#64) ∧
    answer (after (.wrcum 257#16 31#64) hello) = some (3#4, 0#64) ∧
    (∃ t st r, exec .nop hello = .next t ∧ t.responses = hello.responses ++ [⟨st, r⟩]) ∧
    hello.tv = true ∧ tableValid hello = true :=
  ⟨⟨_, _, _, rfl, rfl⟩, by decide +kernel, by decide +kernel, ⟨_, _, _, rfl, rfl⟩, rfl, hello_tableValid⟩

/-- A scaled value below 1, and one that is an integer. -/
theorem witness_RoundingChoosesDownOrUp : ((1 : ℕ) : ℚ) * (4 : ℕ) / (10 : ℕ) < 1 ∧
    ((3 : ℕ) : ℚ) * (16 : ℕ) / (12 : ℕ) = ((4 : ℕ) : ℚ) := by norm_num

/-- The least frequencies that may move up and down. -/
theorem witness_CostComparisonIsExact : 0 < 12 ∧ 0 < (⟨108, 3, 1⟩ : WorkEntry).weight ∧
    1 ≤ (⟨108, 3, 1⟩ : WorkEntry).freq ∧ 2 ≤ (⟨111, 2, 2⟩ : WorkEntry).freq := by decide

/-- The support of a state whose 256 weights are listed. -/
theorem support_eq (s : State) (ws : List (BitVec 32)) (hw : s.wgt = Memory.ofValues 0 ws) (hl : ws.length = 256) :
    ((Finset.range 256).filter fun i => readWgt s i ≠ 0#32).card =
      ((Finset.range 256).filter fun i => ws[i]? ≠ some 0#32).card := by
  congr 1
  refine Finset.filter_congr fun i hi => ?_
  have hi : i < ws.length := by simpa [hl] using hi
  have := Memory.get?_ofValues 0 ws i
  rw [Nat.zero_add, List.getElem?_eq_getElem hi] at this
  rw [readWgt, hw, this, List.getElem?_eq_getElem hi]
  simp

/-- K = 0, K = 1, K = M = 16 and K = 17, with the small parameters. -/
theorem witness_BuildMakesAValidTableOrFails : ∀ p ∈ [([], 0), ([7], 1), (List.replicate 16 1, 2 ^ small.mBits),
      (List.replicate 17 1, 2 ^ small.mBits + 1)],
    ((Finset.range 256).filter fun i => readWgt (withWeights p.1) i ≠ 0#32).card = p.2 := by
  intro p hp
  fin_cases hp <;> (rw [support_eq _ _ rfl (by decide +kernel)]; decide +kernel)

theorem witness_BuildFollowsTheGreedyRules :
    ∃ t r, exec .build (withWeights [1, 1, 1]) = .next t ∧ t.responses = (withWeights [1, 1, 1]).responses ++ [⟨.ok, r⟩] := by
  exact ⟨after .build (withWeights [1, 1, 1]), 1#64, by simp only [after, exec, execBuild], test_build.2⟩

/-- The least and the greatest divisor and dividend of the small parameters. -/
theorem witness_FastDivisionIsExact : 1 ≤ 1 ∧ 1 ≤ small.M ∧ 16 ≤ small.M ∧ 65535 < 2 ^ small.N := by decide

theorem witness_DividerParametersAreTheConstruction : 1 ≤ 1 ∧ 1 ≤ small.M ∧ 16 ≤ small.M := by decide

theorem witness_DividerWidths : 1 ≤ 1 ∧ 1 ≤ small.M ∧ 16 ≤ small.M ∧ 65535 < 2 ^ small.N := by decide

theorem witness_DivpLatchesTheParameters : 1 ≤ (1#64).toNat ∧ (16#64).toNat ≤ 2 ^ small.mBits ∧ (0#64).toNat = 0 ∧
    2 ^ small.mBits < (17#64).toNat := by decide

/-- The dividends at the bound, and a latched triple that no DIVP leaves, which divides wrongly. -/
theorem witness_DivqDividesByTheLatchedDivisor : hello.Inv ∧ (65535#64).toNat < 2 ^ (hello.params.lBits + 8) ∧
    2 ^ (hello.params.lBits + 8) ≤ (65536#64).toNat ∧
    (5#64).toNat * ({ hello with divmul := 0 } : State).divmul / 2 ^ hello.divsh ≠ (5#64).toNat / hello.divf :=
  ⟨hello_inv, by decide⟩

/-- The largest bonus and the least that is too large. -/
theorem witness_EncinitSeedsTheEncoder : (127#64).toNat < 2 ^ (small.lBits - 1) ∧
    2 ^ (small.lBits - 1) ≤ (128#64).toNat := by decide

/-- TV = 0; a symbol of frequency 0; a state one below HALF. -/
theorem witness_EncChecksInOrder : ({ hello with tv := false } : State).tv = false ∧ hello.tv = true ∧
    freq hello 0x7A = 0 ∧ freq hello 0x68 ≠ 0 ∧ 127 < 2 ^ (hello.params.lBits - 1) := by decide +kernel

/-- V-EN-8: one byte; then the same with a stack that has room for none. -/
theorem witness_EncEncodesOneSymbol : ({ hello with encState := 65535 } : State).Inv ∧ hello.tv = true ∧
    freq hello 100 = 1 ∧ 2 ^ (hello.params.lBits - 1) ≤ 65535 ∧
    65535 / 256 ^ 1 < 2 ^ (8 + hello.params.lBits - hello.params.mBits) * 1 ∧
    (∀ k < 1, 2 ^ (8 + hello.params.lBits - hello.params.mBits) * 1 ≤ 65535 / 256 ^ k) ∧
    hello.sp + 1 ≤ 2 ^ hello.params.sdBits ∧
    2 ^ hello.params.sdBits < ({ hello with sp := 65536 } : State).sp + 1 :=
  ⟨{ hello_inv with encState_lt := by decide }, by decide +kernel⟩

theorem witness_EncPushesAtMostCeilMBitsOver8 : ({ hello with encState := 65535 } : State).Inv ∧
    ∃ t, exec (.enc 100#8) { hello with encState := 65535 } = .next t :=
  ⟨{ hello_inv with encState_lt := by decide }, _, rfl⟩

theorem witness_EncStateStaysBelowBL : ({ hello with encState := 65535 } : State).Inv ∧
    answer (after (.enc 100#8) { hello with encState := 65535 }) = some (0#4, 1#64) :=
  ⟨{ hello_inv with encState_lt := by decide }, by decide +kernel⟩

/-- V-EN-8 with a pushed byte, and the boundary case V-EN-10 with none. -/
theorem witness_EncStateAboveLExactlyWhen : ({ hello with encState := 65535 } : State).Inv ∧
    answer (after (.enc 100#8) { hello with encState := 65535 }) = some (0#4, 1#64) ∧
    (after (.enc 100#8) { hello with encState := 65535 }).sp = hello.sp + 1 ∧
    ({ pair with encState := 224 } : State).Inv ∧
    answer (after (.enc 0x42#8) { pair with encState := 224 }) = some (0#4, 0#64) ∧
    (after (.enc 0x42#8) { pair with encState := 224 }).sp = pair.sp + 0 ∧
    2 ^ (pair.params.lBits - pair.params.mBits) * freq pair 0x42 ≤ 224 ∧ 2 * freq hello 100 ≤ hello.params.M :=
  ⟨{ hello_inv with encState_lt := by decide }, by decide +kernel, by decide +kernel,
    { pair_inv with encState_lt := by decide }, by decide +kernel⟩

/-- A memory that differs in an entry that ENC of symbol 0x68 does not read. -/
theorem witness_EncReadsOnlyTwoTableEntries :
    readCum { hello with cum := hello.cum.write 0 9 } 0x68 = readCum hello 0x68 ∧
    readCum { hello with cum := hello.cum.write 0 9 } (0x68 + 1) = readCum hello (0x68 + 1) ∧
    ∃ t, exec (.enc 0x68#8) hello = .next t :=
  ⟨by decide +kernel, by decide +kernel, _, rfl⟩

/-- V-EN-17 with the small parameters: two bytes; and a stack that has room for one. -/
theorem witness_EncflushPushesTheState : 258 < 256 ^ 2 ∧ (∀ k < 2, 256 ^ k ≤ 258) ∧ 0 + 2 ≤ 2 ^ small.sdBits ∧
    2 ^ small.sdBits < 65535 + 2 := by decide

theorem witness_DecinitLoadsTheState : (65535#64).toNat < 2 ^ (small.lBits + 8) ∧
    2 ^ (small.lBits + 8) ≤ (65536#64).toNat := by decide

/-- V-DE-1: no refill and a state of L or more; one byte popped and the state L exactly; V-DE-8: one byte popped and a state
below L, with and without a symbol still expected; one byte popped and the state L - 1. -/
theorem witness_DecDecodesOneSymbolOrEnds :
    (∃ (s : State) (y : Nat → Nat), s.Inv ∧ s.tv = true ∧ y 0 = s.decState ∧
      (∀ j < s.sp, y (j + 1) = y j * 256 + (readStk s (s.sp - 1 - j)).toNat) ∧ s.params.L ≤ y 0) ∧
    (∃ (s : State) (y : Nat → Nat), s.Inv ∧ s.tv = true ∧ y 0 = s.decState ∧
      (∀ j < s.sp, y (j + 1) = y j * 256 + (readStk s (s.sp - 1 - j)).toNat) ∧ (∀ j < 1, y j < s.params.L) ∧ s.sp = 1 ∧
      y 1 < s.params.L ∧ s.decRemain = 0) ∧
    (∃ (s : State) (y : Nat → Nat), s.Inv ∧ s.tv = true ∧ y 0 = s.decState ∧
      (∀ j < s.sp, y (j + 1) = y j * 256 + (readStk s (s.sp - 1 - j)).toNat) ∧ (∀ j < 1, y j < s.params.L) ∧ s.sp = 1 ∧
      y 1 < s.params.L ∧ s.decRemain ≠ 0) ∧
    (∃ (s : State) (y : Nat → Nat), s.Inv ∧ s.tv = true ∧ y 0 = s.decState ∧
      (∀ j < s.sp, y (j + 1) = y j * 256 + (readStk s (s.sp - 1 - j)).toNat) ∧ (∀ j < 1, y j < s.params.L) ∧ s.sp = 1 ∧
      y 1 = s.params.L) ∧
    (∃ (s : State) (y : Nat → Nat), s.Inv ∧ s.tv = true ∧ y 0 = s.decState ∧
      (∀ j < s.sp, y (j + 1) = y j * 256 + (readStk s (s.sp - 1 - j)).toNat) ∧ (∀ j < 1, y j < s.params.L) ∧ s.sp = 1 ∧
      y 1 + 1 = s.params.L ∧ s.decRemain = 0) :=
  ⟨⟨{ hello with decState := 1026 }, fun _ => 1026, { hello_inv with decState_lt := by decide, eos_bonus := by decide },
      rfl, rfl, by decide, by decide⟩,
    ⟨{ hello with stk := [(0, 0x85#8)], sp := 1 }, fun j => j * 133,
      { hello_inv with sp_le := by decide, stk_wf := by decide, stk_index := by decide },
      rfl, rfl, by decide, by decide, rfl, by decide, rfl⟩,
    ⟨{ hello with stk := [(0, 0x85#8)], sp := 1, decRemain := 2 }, fun j => j * 133,
      { hello_inv with sp_le := by decide, stk_wf := by decide, stk_index := by decide, decRemain_lt := by decide },
      rfl, rfl, by decide, by decide, rfl, by decide, by decide⟩,
    ⟨{ hello with decState := 1, stk := [(0, 0#8)], sp := 1 }, fun j => 1 + j * 255,
      { hello_inv with decState_lt := by decide, eos_bonus := by decide, sp_le := by decide, stk_wf := by decide,
                       stk_index := by decide },
      rfl, rfl, by decide, by decide, rfl, by decide⟩,
    ⟨{ hello with stk := [(0, 0xFF#8)], sp := 1 }, fun j => j * 255,
      { hello_inv with sp_le := by decide, stk_wf := by decide, stk_index := by decide },
      rfl, rfl, by decide, by decide, rfl, by decide, rfl⟩⟩

/-- The state 0 over three zero bytes. With N = 16 the bound of two pops does not hold there, and all three are popped. -/
def zeros : State := { hello with stk := [(0, 0#8), (1, 0#8), (2, 0#8)], sp := 3 }

/-- Each clause: a flush and a DEC that complete, a state other than 0, a top byte other than 0, and zero bytes on the state 0. -/
theorem witness_BytesMovedByFlushAndRefill : zeros.Inv ∧ zeros.tv = true ∧ zeros.decState = 0 ∧ 3 ≤ zeros.sp ∧
    (∀ j < 3, readStk zeros (zeros.sp - 1 - j) = 0#8) ∧ (after .dec zeros).sp = 0 ∧ (zeros.params.N + 7) / 8 = 2 ∧
    (∃ t, exec .encflush zeros = .next t) ∧ (∃ t, exec .dec zeros = .next t) ∧
    ({ zeros with decState := 1 } : State).Inv ∧ readStk { zeros with stk := [(2, 1#8)] } 2 ≠ 0#8 :=
  have hz : zeros.Inv := { hello_inv with sp_le := by decide, stk_wf := by decide, stk_index := by decide }
  ⟨hz, rfl, rfl, by decide, by decide, by decide, by decide, ⟨_, rfl⟩, ⟨_, rfl⟩,
    { hz with decState_lt := by decide, eos_bonus := by decide }, by decide⟩

theorem witness_SlotHasOneSymbol : tableValid hello = true ∧ 0 < hello.params.M ∧ 15 < hello.params.M :=
  ⟨hello_tableValid, by decide⟩

/-- V-DE-4, and the same with a symbol still expected. -/
theorem witness_EndOfStreamIsStable :
    (∃ t r, exec .dec hello = .next t ∧ t.responses = hello.responses ++ [⟨.endOfStream, r⟩]) ∧
    ∃ t r, exec .dec { hello with decRemain := 1 } = .next t ∧
      t.responses = hello.responses ++ [⟨.error .streamUnderflow, r⟩] := ⟨⟨_, _, rfl, rfl⟩, ⟨_, _, rfl, rfl⟩⟩

theorem witness_DecIgnoresEncoderAndDivider : ∃ t, exec .dec hello = .next t := ⟨_, rfl⟩

/-- V-EN-10: a state of L or more, from an empty stack. -/
theorem witness_DecUndoesEnc : ({ pair with encState := 224 } : State).Inv ∧
    answer (after (.enc 0x42#8) { pair with encState := 224 }) = some (0#4, 0#64) ∧
    pair.params.L ≤ (after (.enc 0x42#8) { pair with encState := 224 }).encState ∧ pair.sp = 0 :=
  ⟨{ pair_inv with encState_lt := by decide }, by decide +kernel⟩

/-- The sequence of one symbol, with the boundary bonus 96 (V-EN-10) and the one below it (V-EN-11). -/
theorem witness_RoundTripExactlyWhen : pair.Inv ∧ pair.tv = true ∧ pair.decRemain = 0 ∧
    (96#64).toNat < pair.params.half ∧ (∀ x ∈ [0x42#8], freq pair x.toNat ≠ 0) ∧
    [0x42#8].length * ((pair.params.mBits + 7) / 8) + (pair.params.N + 7) / 8 ≤ pair.params.stackDepth ∧
    pair.params.kLM * freq pair 0x42 = pair.params.half + (96#64).toNat ∧
    pair.params.half + (95#64).toNat < pair.params.kLM * freq pair 0x42 :=
  ⟨pair_inv, by decide +kernel⟩

theorem witness_OnlyTheListedCommandsWrite : ∃ t, exec (.pushb 1#8) hello = .next t := ⟨_, rfl⟩

theorem witness_RegistersFitTheirWidths : hello.Inv := hello_inv

theorem witness_StepKeepsTheInvariant : (asked [.command (encode (.pushb 1#8))]).Inv ∧
    ∃ t, step (asked [.command (encode (.pushb 1#8))]) = .next t := ⟨hello_inv.withInput _, _, rfl⟩

theorem witness_BlockNeverHalts : hello.Inv := hello_inv

end Sys2Proof.Tests
end

/-! PROOF. The opcode map and the decoder agree: a header selects a row exactly when it decodes, and then to a command of
that row's opcode (30_encoding.md R88). -/

namespace Sys2Proof

theorem mem_opcodeTable_iff (r : TableRow) : r ∈ opcodeTable ↔ ∃ op, rowOf op = r := by
  simp [opcodeTable_eq, mem_allOpcodes]

/-- The rows are disjoint: each fixes a different OPC. -/
theorem rowOf_selects_unique {h : Header} {op op' : Opcode} (hs : h &&& (rowOf op).mask = (rowOf op).matchBits)
    (hs' : h &&& (rowOf op').mask = (rowOf op').matchBits) : op = op' := by
  obtain ⟨hopc, -⟩ := (rowOf_selects_iff h op).1 hs
  obtain ⟨hopc', -⟩ := (rowOf_selects_iff h op').1 hs'
  exact opcodeByte_inj (hopc.trans hopc'.symm)

/-- A row selects exactly the headers that decode to a command of its opcode. -/
theorem rowOf_selects_iff_decode (h : Header) (d : Word) (op : Opcode) :
    h &&& (rowOf op).mask = (rowOf op).matchBits ↔ ∃ i, decode h d = .ok i ∧ i.opcode = op := by
  rw [rowOf_selects_iff]
  constructor
  · rintro ⟨hopc, ha, hb⟩
    exact ⟨_, (decode_eq_ok_iff _ _ _).2 ⟨op, hopc, ha, hb, rfl⟩, opcode_instrOf ..⟩
  · rintro ⟨i, hi, rfl⟩
    obtain ⟨op, hopc, ha, hb, rfl⟩ := (decode_eq_ok_iff _ _ _).1 hi
    rw [opcode_instrOf]
    exact ⟨hopc, ha, hb⟩

/-- Settles O3: every row is `rowOf` of an opcode, at most one row selects a header, and the decoder answers that row. -/
theorem headerIsOneRowOrIllegal : Obligations.HeaderIsOneRowOrIllegal := by
  refine ⟨?unique, fun h d => ⟨?accepted, ?rejected⟩⟩
  case unique =>
    intro h r₁ hr₁ r₂ hr₂ hs₁ hs₂
    obtain ⟨op₁, rfl⟩ := (mem_opcodeTable_iff r₁).1 hr₁
    obtain ⟨op₂, rfl⟩ := (mem_opcodeTable_iff r₂).1 hr₂
    rw [rowOf_selects_unique hs₁ hs₂]
  case accepted =>
    intro i hi
    exact ⟨rowOf i.opcode, (mem_opcodeTable_iff _).2 ⟨_, rfl⟩, (rowOf_selects_iff_decode h d _).2 ⟨i, hi, rfl⟩, rfl⟩
  case rejected =>
    intro e he r hr hs
    obtain ⟨op, rfl⟩ := (mem_opcodeTable_iff r).1 hr
    obtain ⟨i, hi, -⟩ := (rowOf_selects_iff_decode h d op).1 hs
    simp [hi] at he

end Sys2Proof

/-! PROOF. The frequency model's commands one by one: what WRWGT, RDWGT, WRCUM, RDCUM and CHKTAB answer and write
(41_frequency_model.md R112 to R116). Each statement is a case split over the outcomes of its command. -/

namespace Sys2Proof

/-- The header of an opcode's fields decodes to its command when the fields the opcode does not use are zero
(30_encoding.md R84). -/
theorem decode_headerOf {op : Opcode} {a : Byte} {b : BitVec 16} (d : Word) (ha : usesA op = true ∨ a = 0#8)
    (hb : usesB op = true ∨ b = 0#16) : decode (headerOf (opcodeByte op) a b) d = .ok (instrOf op a b d) :=
  (decode_eq_ok_iff _ _ _).2 ⟨op, by simp, by simpa using ha, by simpa using hb, by simp⟩

namespace Machine

/-- Settles O24: the written entry is the payload cut to 32 bits, which loses nothing below `2^32`. -/
theorem wrwgtWritesOneWeight : Obligations.WrwgtWritesOneWeight := by
  refine ⟨fun a d => decode_headerOf (op := .wrwgt) d (.inl rfl) (.inr rfl), fun s sym d => ?_⟩
  obtain ⟨t, ht⟩ : Continues (exec (.wrwgt sym d) s) := ⟨_, rfl⟩
  obtain ⟨hbad, rfl⟩ | ⟨hok, rfl⟩ := exec_wrwgt_cases ht
  · exact ⟨fun hd => absurd hd (not_lt.2 hbad), fun _ => ht⟩
  · refine ⟨fun _ => ⟨_, ht, rfl, ?written, fun j hj => ?others⟩, fun hd => absurd hok (not_lt.2 hd)⟩
    case written => simpa [readWgt_writeWgt] using Nat.mod_eq_of_lt hok
    case others => simp [readWgt_writeWgt, hj]

/-- Settles O25: the response is the weight extended to 64 bits. -/
theorem rdwgtReadsOneWeight : Obligations.RdwgtReadsOneWeight := by
  refine ⟨fun a d => decode_headerOf (op := .rdwgt) d (.inl rfl) (.inr rfl), fun s sym => ?_⟩
  rw [BitVec.ofNat_toNat]
  exact exec_rdwgt_eq sym s

/-- Settles O26. -/
theorem wrcumWritesOneEntryClearsTv : Obligations.WrcumWritesOneEntryClearsTv := by
  refine ⟨fun b d => decode_headerOf (op := .wrcum) d (.inr rfl) (.inl rfl), fun s i d => ?_⟩
  obtain ⟨t, ht⟩ : Continues (exec (.wrcum i d) s) := ⟨_, rfl⟩
  obtain ⟨hbad, rfl⟩ | ⟨hi, hd, rfl⟩ := exec_wrcum_cases ht
  · exact ⟨fun hi hd => (hbad.elim hi.not_gt hd.not_ge).elim, fun _ => ht⟩
  · refine ⟨fun _ _ => ⟨_, ht, rfl, ?written, fun j hj => ?others⟩, fun hbad => (hbad.elim hi.not_gt hd.not_ge).elim⟩
    case written => simp [readCum_writeCum]
    case others => simp [readCum_writeCum, hj]

/-- Settles O27. -/
theorem rdcumReadsOneEntry : Obligations.RdcumReadsOneEntry := by
  refine ⟨fun b d => decode_headerOf (op := .rdcum) d (.inr rfl) (.inl rfl), fun s i => ?_⟩
  obtain ⟨t, ht⟩ : Continues (exec (.rdcum i) s) := ⟨_, rfl⟩
  obtain ⟨hbad, rfl⟩ | ⟨hok, rfl⟩ := exec_rdcum_cases ht
  · exact ⟨fun hi => absurd hi hbad.not_ge, fun _ => ht⟩
  · exact ⟨fun _ => ht, fun hi => absurd hok hi.not_ge⟩

/-- Settles O28: the three invariants are the table check; where it fails, the invariant of the block allows no TV = 1. -/
theorem chktabValidatesTheTable : Obligations.ChktabValidatesTheTable := by
  refine ⟨fun d => decode_headerOf (op := .chktab) d (.inr rfl) (.inr rfl), fun s => ?_⟩
  have hvalid : (readCum s 0 = 0 ∧ readCum s 256 = 2 ^ s.params.mBits ∧
      (∀ i, i ≤ 255 → readCum s i ≤ readCum s (i + 1))) ↔ tableValid s = true := by
    simp only [tableValid_iff, Params.M, Nat.lt_succ_iff]
  rw [hvalid]
  obtain ⟨t, ht⟩ : Continues (exec .chktab s) := ⟨_, rfl⟩
  obtain ⟨hbad, rfl⟩ | ⟨hok, rfl⟩ := exec_chktab_cases ht
  · refine ⟨fun h => absurd h (Bool.eq_false_iff.1 hbad), fun _ => ⟨ht, fun hinv => ?_⟩⟩
    exact Bool.eq_false_iff.2 fun htv => absurd (hinv.tv_valid htv) (Bool.eq_false_iff.1 hbad)
  · exact ⟨fun _ => ht, fun h => absurd hok h⟩

end Machine
end Sys2Proof

/-! PROOF. The arithmetic of the frequency model: the frequencies of a valid table (41_frequency_model.md R101), BUILD's rounding
over the rationals (R105) and its costs as real logarithms (R107). -/

namespace Sys2Proof.Machine

/-- In a table that starts at 0 and does not decrease, an entry is the sum of the frequencies below it. -/
theorem sum_freq_eq_readCum {s : State} (h : tableValid s = true) {n : Nat} (hn : n ≤ 256) :
    ∑ sym ∈ Finset.range n, freq s sym = readCum s n := by
  obtain ⟨h0, -, hs⟩ := (tableValid_iff s).1 h
  induction n with
  | zero => simp [h0]
  | succ n ih =>
    rw [Finset.sum_range_succ, ih (by omega), freq]
    exact Nat.add_sub_of_le (hs n hn)

/-- Settles O29: the frequencies telescope. -/
theorem validTableFrequenciesSumToM : Obligations.ValidTableFrequenciesSumToM := by
  intro s h0 hs hM
  have hv : tableValid s = true := (tableValid_iff s).2 ⟨h0, hM, hs⟩
  exact ⟨fun sym hsym => ⟨Int.ofNat_sub (hs sym hsym), freq_le_M hv hsym⟩, (sum_freq_eq_readCum hv le_rfl).trans hM⟩

/-- The rounding's test on natural numbers is the comparison of squares of 41_frequency_model.md R105. -/
theorem roundedFreq_eq_floor_or_succ {total sum w : Nat} (hsum : 0 < sum) :
    roundedFreq total sum w =
      if ((w : ℚ) * total / sum) ^ 2 ≥ (⌊(w : ℚ) * total / sum⌋₊ : ℚ) * (⌊(w : ℚ) * total / sum⌋₊ + 1)
      then ⌊(w : ℚ) * total / sum⌋₊ + 1 else ⌊(w : ℚ) * total / sum⌋₊ := by
  have hfloor : ⌊(w : ℚ) * total / sum⌋₊ = w * total / sum := by
    rw [← Nat.cast_mul, Nat.floor_div_eq_div]
  rw [hfloor, roundedFreq]
  refine if_congr ?_ rfl rfl
  rw [ge_iff_le, div_pow, le_div_iff₀ (by positivity)]
  exact_mod_cast Iff.rfl

/-- Settles O31: below 1 the floor is 0, so the test holds; at an integer `n` it would say `n * (n + 1) ≤ n * n`. -/
theorem roundingChoosesDownOrUp : Obligations.RoundingChoosesDownOrUp := by
  intro total sum w hsum hw htotal scaled down
  have hround : roundedFreq total sum w = if scaled ^ 2 ≥ (down : ℚ) * (down + 1) then down + 1 else down :=
    roundedFreq_eq_floor_or_succ hsum
  have hpos : 0 < scaled := by positivity
  refine ⟨hround, fun hlt => ?below, fun n hn => ?integer⟩
  case below =>
    have hdown : down = 0 := Nat.floor_eq_zero.2 hlt
    rw [hround, hdown, if_pos (by simpa using sq_nonneg scaled)]
  case integer =>
    have hdown : down = n := by rw [← Nat.floor_natCast (R := ℚ) n, ← hn]
    have htest : ¬ scaled ^ 2 ≥ (n : ℚ) * (n + 1) := by rw [← hn]; nlinarith
    rw [hround, hdown, if_neg htest]

/-- The real number `δ` of a move. -/
theorem cast_movedFreq (up : Bool) {c : Nat} (hc : 1 ≤ c) :
    (movedFreq up c : ℝ) = c + (if up then 1 else -1) := by
  cases up
  · simp [movedFreq, Nat.cast_sub hc, sub_eq_add_neg]
  · simp [movedFreq]

/-- The logarithm of an entry's cost ratio is `T` times its cost (41_frequency_model.md R107). -/
theorem logb_costRatio (up : Bool) {e : WorkEntry} (he : 1 ≤ e.freq) :
    Real.logb 2 (costRatio up e) = e.weight * Real.logb 2 (e.freq / (e.freq + (if up then 1 else -1))) := by
  rw [costRatio, ← cast_movedFreq up he, ← div_pow, Rat.cast_pow, Rat.cast_div, Rat.cast_natCast, Rat.cast_natCast,
    Real.logb_pow]

/-- A candidate for a move has a positive cost ratio. -/
theorem costRatio_pos {up : Bool} {e : WorkEntry} (he : 1 ≤ e.freq) (hm : 1 ≤ movedFreq up e.freq) :
    0 < costRatio up e := by
  have : (0 : ℚ) < e.freq := by exact_mod_cast he
  have : (0 : ℚ) < movedFreq up e.freq := by exact_mod_cast hm
  rw [costRatio]
  positivity

/-- Where a move is defined, the frequencies before and after it are positive. -/
theorem one_le_freq_and_movedFreq {up : Bool} {c : Nat} (h : if up then 1 ≤ c else 2 ≤ c) :
    1 ≤ c ∧ 1 ≤ movedFreq up c := by
  cases up with
  | false => exact ⟨Nat.one_le_of_lt h, Nat.le_sub_one_of_lt h⟩
  | true => exact ⟨h, Nat.le_add_left 1 c⟩

/-- Settles O32: both sides compare the cost ratios, the right one through the logarithm, which is strictly increasing. -/
theorem costComparisonIsExact : Obligations.CostComparisonIsExact := by
  intro up a b T hT _ _ hfreq δ
  obtain ⟨ha, hb⟩ : (if up then 1 ≤ a.freq else 2 ≤ a.freq) ∧ (if up then 1 ≤ b.freq else 2 ≤ b.freq) := by
    cases up <;> exact hfreq
  obtain ⟨ha, hma⟩ := one_le_freq_and_movedFreq ha
  obtain ⟨hb, hmb⟩ := one_le_freq_and_movedFreq hb
  have hT : (0 : ℝ) < T := by exact_mod_cast hT
  calc costLt up a b = true
    _ ↔ (costRatio up a : ℝ) < costRatio up b := by rw [costLt_iff_costRatio_lt up a b hma hmb, Rat.cast_lt]
    _ ↔ Real.logb 2 (costRatio up a) < Real.logb 2 (costRatio up b) :=
      (Real.logb_lt_logb_iff one_lt_two (Rat.cast_pos.2 (costRatio_pos ha hma))
        (Rat.cast_pos.2 (costRatio_pos hb hmb))).symm
    _ ↔ (a.weight / T : ℝ) * Real.logb 2 (a.freq / (a.freq + δ)) <
        (b.weight / T : ℝ) * Real.logb 2 (b.freq / (b.freq + δ)) := by
      rw [logb_costRatio up ha, logb_costRatio up hb, div_mul_eq_mul_div, div_mul_eq_mul_div,
        div_lt_div_iff_of_pos_right hT]

end Sys2Proof.Machine

/-! PROOF. The fast divider: its parameters and their widths (42_fast_divider.md R130, R131, R133), the exactness of multiply and
shift (R132), and what DIVP and DIVQ answer (R135, R136). All of it follows from `f <= 2^clog2(f) < 2f` and from the multiplier
being a ceiling. -/

namespace Sys2Proof.Machine

/-- The power of two at or above `f` overshoots it by less than a factor of two. -/
theorem pow_clog2_lt {f : Nat} (hf : 1 ≤ f) : 2 ^ clog2 f < 2 * f := by
  cases hc : clog2 f with
  | zero => omega
  | succ k =>
    have hk : ¬ f ≤ 2 ^ k := by rw [← clog2_le_iff hf]; omega
    rw [pow_succ]
    omega

theorem clog2_two_pow (k : Nat) : clog2 (2 ^ k) = k :=
  eq_of_forall_ge_iff fun j => by
    rw [clog2_le_iff Nat.one_le_two_pow, Nat.pow_le_pow_iff_right one_lt_two]

theorem pow_divShift (p : Params) (f : Nat) : 2 ^ divShift p f = 2 ^ p.N * 2 ^ clog2 f := pow_add ..

theorem N_le_divShift (p : Params) (f : Nat) : p.N ≤ divShift p f := Nat.le_add_right ..

theorem divShift_le {p : Params} {f : Nat} (hf : 1 ≤ f) (hM : f ≤ p.M) : divShift p f ≤ p.N + p.mBits :=
  Nat.add_le_add_left (clog2_le_mBits hf hM) _

/-- The shift is the lower bound of the shifts R130 admits, and every number from it on is one of them. -/
theorem divShift_le_iff {p : Params} {f : Nat} (hf : 1 ≤ f) (sh : Nat) :
    divShift p f ≤ sh ↔ p.N ≤ sh ∧ f ≤ 2 ^ (sh - p.N) := by
  rw [← clog2_le_iff hf, divShift]
  omega

theorem divMult_eq_ceil {p : Params} {f : Nat} (hf : 1 ≤ f) : (divMult p f : Int) = ⌈(2 ^ divShift p f : ℚ) / f⌉ := by
  obtain ⟨hlow, hhigh⟩ := divMult_bounds (p := p) hf
  have hlow : (2 ^ divShift p f : ℚ) ≤ divMult p f * f := by exact_mod_cast hlow
  have hhigh : (divMult p f * f : ℚ) < 2 ^ divShift p f + f := by exact_mod_cast hhigh
  have hpos : (0 : ℚ) < f := by exact_mod_cast hf
  refine (Int.ceil_eq_iff.2 ⟨?below, ?above⟩).symm
  case below => rw [lt_div_iff₀ hpos, Int.cast_natCast]; linarith
  case above => rwa [div_le_iff₀ hpos]

/-- Settles O36. -/
theorem dividerParametersAreTheConstruction : Obligations.DividerParametersAreTheConstruction := by
  intro p f hf hM
  have hleast : IsLeast {sh : Nat | p.N ≤ sh ∧ f ≤ 2 ^ (sh - p.N)} (divShift p f) :=
    ⟨(divShift_le_iff hf _).1 le_rfl, fun sh => (divShift_le_iff hf sh).2⟩
  exact ⟨hleast, N_le_divShift p f, divShift_le hf hM, divMult_eq_ceil hf⟩

/-- `f <= 2^clog2(f)`, so `2^shift / f` is at least `2^N`. -/
theorem pow_N_le_divMult {p : Params} {f : Nat} (hf : 1 ≤ f) : 2 ^ p.N ≤ divMult p f := by
  refine Nat.le_of_mul_le_mul_right ?_ (Nat.two_pow_pos (clog2 f))
  calc 2 ^ p.N * 2 ^ clog2 f
    _ = 2 ^ divShift p f := (pow_divShift p f).symm
    _ ≤ divMult p f * f := (divMult_bounds hf).1
    _ ≤ divMult p f * 2 ^ clog2 f := Nat.mul_le_mul_left _ (le_pow_clog2 hf)

/-- `2^clog2(f) < 2f` leaves a gap of `2^N` below `2^(N + 1) * f`, which the rounding, less than `f <= M`, does not use up. -/
theorem divMult_lt {p : Params} {f : Nat} (hf : 1 ≤ f) (hM : f ≤ p.M) : divMult p f < 2 ^ (p.N + 1) := by
  have hgap : 2 ^ p.N * (2 ^ clog2 f + 1) ≤ 2 ^ p.N * (2 * f) := Nat.mul_le_mul_left _ (pow_clog2_lt hf)
  have hround : f ≤ 2 ^ p.N := hM.trans (p.M_le_L.trans p.L_lt_BL.le)
  refine Nat.lt_of_mul_lt_mul_right (a := f) ?_
  calc divMult p f * f
    _ < 2 ^ p.N * 2 ^ clog2 f + f := pow_divShift p f ▸ (divMult_bounds hf).2
    _ ≤ 2 ^ p.N * (2 * f) := by linarith
    _ = 2 ^ (p.N + 1) * f := by ring

theorem divMult_two_pow (p : Params) (k : Nat) : divMult p (2 ^ k) = 2 ^ p.N := by
  refine le_antisymm (Nat.le_of_lt_succ ?_) (pow_N_le_divMult Nat.one_le_two_pow)
  refine Nat.lt_of_mul_lt_mul_right (a := 2 ^ k) ?_
  calc divMult p (2 ^ k) * 2 ^ k
    _ < 2 ^ divShift p (2 ^ k) + 2 ^ k := (divMult_bounds Nat.one_le_two_pow).2
    _ = (2 ^ p.N + 1) * 2 ^ k := by rw [pow_divShift, clog2_two_pow, Nat.succ_mul]

/-- At the lower bound the ceiling leaves no room between `f` and `2^clog2(f)`. -/
theorem divMult_eq_iff {p : Params} {f : Nat} (hf : 1 ≤ f) : divMult p f = 2 ^ p.N ↔ ∃ k, f = 2 ^ k := by
  constructor
  · intro h
    have hlow := (divMult_bounds (p := p) hf).1
    rw [h, pow_divShift] at hlow
    exact ⟨clog2 f, le_antisymm (le_pow_clog2 hf) (Nat.le_of_mul_le_mul_left hlow (Nat.two_pow_pos _))⟩
  · rintro ⟨k, rfl⟩
    exact divMult_two_pow p k

theorem mul_divMult_lt {p : Params} {x f : Nat} (hf : 1 ≤ f) (hM : f ≤ p.M) (hx : x < 2 ^ p.N) :
    x * divMult p f < 2 ^ (2 * p.N + 1) :=
  calc x * divMult p f
    _ < 2 ^ p.N * 2 ^ (p.N + 1) := Nat.mul_lt_mul'' hx (divMult_lt hf hM)
    _ = 2 ^ (2 * p.N + 1) := by ring

/-- Settles O37. -/
theorem dividerWidths : Obligations.DividerWidths := fun p f hf hM =>
  ⟨pow_N_le_divMult hf, Nat.le_sub_one_of_lt (divMult_lt hf hM), divMult_eq_iff hf, fun _ => mul_divMult_lt hf hM,
    N_le_divShift p f, divShift_le hf hM⟩

/-- Multiply and shift is the floor quotient (42_fast_divider.md R132). With `q = x div f`: the ceiling gives
`q * 2^shift <= x * mult`; and its error, less than `f` in `mult * f`, grows to at most `x * f < 2^shift` in `x * mult * f`, which
does not reach the next multiple. -/
theorem fastdiv_eq_div {p : Params} {x f : Nat} (hf : 1 ≤ f) (hx : x < 2 ^ p.N) : fastdiv p x f = x / f := by
  obtain ⟨hlow, hhigh⟩ := divMult_bounds (p := p) hf
  have herror : x * f < 2 ^ divShift p f := by
    rw [pow_divShift]
    exact Nat.mul_lt_mul_of_lt_of_le hx (le_pow_clog2 hf) (Nat.two_pow_pos _)
  have hnext : x + 1 ≤ (x / f + 1) * f := Nat.lt_mul_of_div_lt (Nat.lt_succ_self _) hf
  refine Nat.div_eq_of_lt_le ?lower (Nat.lt_of_mul_lt_mul_right (a := f) ?upper)
  case lower =>
    calc x / f * 2 ^ divShift p f
      _ ≤ x / f * (divMult p f * f) := Nat.mul_le_mul_left _ hlow
      _ = x / f * f * divMult p f := by ring
      _ ≤ x * divMult p f := Nat.mul_le_mul_right _ (Nat.div_mul_le_self x f)
  case upper =>
    calc x * divMult p f * f
      _ = x * (divMult p f * f) := mul_assoc ..
      _ ≤ x * (2 ^ divShift p f + f) := Nat.mul_le_mul_left _ hhigh.le
      _ < (x + 1) * 2 ^ divShift p f := by linarith
      _ ≤ (x / f + 1) * f * 2 ^ divShift p f := Nat.mul_le_mul_right _ hnext
      _ = (x / f + 1) * 2 ^ divShift p f * f := mul_right_comm ..

/-- Settles O35: the exactness needs no bound on the divisor but 1. -/
theorem fastDivisionIsExact : Obligations.FastDivisionIsExact := fun _ _ _ hf _ hx => fastdiv_eq_div hf hx

/-- The latched triple divides exactly: it is the triple of DIVF. -/
theorem State.Inv.latchedQuotient_eq_div {s : State} (h : s.Inv) {x : Nat} (hx : x < s.params.BL) :
    latchedQuotient s x = x / s.divf := by
  rw [latchedQuotient, h.divsh_eq, h.divmul_eq]
  exact fastdiv_eq_div h.divf_range.1 hx

/-- Settles O39: by the invariant the check of the quotient does not fail. -/
theorem divqDividesByTheLatchedDivisor : Obligations.DivqDividesByTheLatchedDivisor := by
  refine ⟨fun d => decode_headerOf (op := .divq) d (.inr rfl) (.inr rfl), fun s d => ?_⟩
  obtain ⟨t, ht⟩ : Continues (exec (.divq d) s) := ⟨_, rfl⟩
  obtain ⟨hbad, rfl⟩ | ⟨hd, hq, rfl⟩ | ⟨hd, hq, rfl⟩ := exec_divq_cases ht
  · exact ⟨fun _ hd => absurd hd hbad.not_gt, fun hd => absurd hd hbad.not_gt, fun _ => ht⟩
  · exact ⟨fun hinv _ => absurd (hinv.latchedQuotient_eq_div hd) hq, fun _ _ => ht, fun hbad => absurd hd hbad.not_gt⟩
  · exact ⟨fun _ _ => hq ▸ ht, fun _ hne => absurd hq hne, fun hbad => absurd hd hbad.not_gt⟩

/-- Settles O38. -/
theorem divpLatchesTheParameters : Obligations.DivpLatchesTheParameters := by
  refine ⟨fun d => decode_headerOf (op := .divp) d (.inr rfl) (.inr rfl), fun s d => ?_⟩
  obtain ⟨t, ht⟩ : Continues (exec (.divp d) s) := ⟨_, rfl⟩
  obtain ⟨hbad, rfl⟩ | ⟨h1, hM, rfl⟩ := exec_divp_cases ht
  · exact ⟨fun h1 hM => (hbad.elim (Nat.one_le_iff_ne_zero.1 h1) hM.not_gt).elim, fun _ => ht⟩
  · exact ⟨fun _ _ => ht, fun hbad => (hbad.elim (Nat.one_le_iff_ne_zero.1 h1) hM.not_gt).elim⟩

end Sys2Proof.Machine

/-! PROOF. The encoder: ENCINIT and ENCFLUSH (43_encoder.md R151, R160), the checks of ENC (R152), the bounds on the state it leaves
(R156, R157) and what it reads (R159). The bounds come from one fact about the rescaling: it compares with multiples of `M` as the
renormalized state compares with multiples of the frequency. -/

namespace Sys2Proof.Machine

/-! ### Seeding and flushing -/

/-- Settles O40: the seed stays below `L` because `L` is twice HALF. -/
theorem encinitSeedsTheEncoder : Obligations.EncinitSeedsTheEncoder := by
  refine ⟨fun d => decode_headerOf (op := .encinit) d (.inr rfl) (.inr rfl), fun s d => ?_⟩
  obtain ⟨t, ht⟩ : Continues (exec (.encinit d) s) := ⟨_, rfl⟩
  obtain ⟨hbad, rfl⟩ | ⟨hok, rfl⟩ := exec_encinit_cases ht
  · exact ⟨fun hd => absurd hd hbad.not_gt, fun _ => ht⟩
  · refine ⟨fun _ => ⟨ht, Nat.le_add_right .., ?seed⟩, fun hd => absurd hok hd.not_gt⟩
    case seed =>
      calc s.params.half + d.toNat
        _ < s.params.half + s.params.half := Nat.add_lt_add_left hok _
        _ = s.params.L := by rw [← two_mul, s.params.two_mul_half]

/-- The pushes leave the entries outside `[SP, SP + n)` as they were. -/
theorem readStk_pushAll_of_outside {bs : List Byte} {s : State} {j : Nat} (hj : j < s.sp ∨ s.sp + bs.length ≤ j) :
    readStk (pushAll bs s) j = readStk s j := by
  rw [readStk_pushAll]
  split
  · next h => rw [List.getElem?_eq_none (by omega), Option.getD_none]
  · rfl

/-- Byte `k` of a number, least significant first, lands at index `SP + k`. -/
theorem readStk_pushAll_lowBytes {n k : Nat} (hk : k < n) (x : Nat) (s : State) :
    (readStk (pushAll (lowBytes n x) s) (s.sp + k)).toNat = x / 256 ^ k % 256 := by
  rw [readStk_pushAll, if_pos (Nat.le_add_right ..), Nat.add_sub_cancel_left, getElem?_lowBytes hk]
  simp

/-- The least `n` with `v < 256^n` is `bytelen(v)` (00_scope.md R12). -/
theorem byteLen_eq {v n : Nat} (hlt : v < 256 ^ n) (hge : ∀ k < n, 256 ^ k ≤ v) : byteLen v = n :=
  le_antisymm ((byteLen_le_iff v n).2 hlt) (not_lt.1 fun h => (hge _ h).not_gt (lt_pow_byteLen v))

/-- Settles O47: the statement's `n` is `bytelen` of the state. -/
theorem encflushPushesTheState : Obligations.EncflushPushesTheState := by
  refine ⟨fun d => decode_headerOf (op := .encflush) d (.inr rfl) (.inr rfl), fun s n hlt hge => ?_⟩
  obtain ⟨t, ht⟩ : Continues (exec .encflush s) := ⟨_, rfl⟩
  have hcases := exec_encflush_cases ht
  rw [byteLen_eq hlt hge] at hcases
  obtain ⟨hfull, rfl⟩ | ⟨hroom, rfl⟩ := hcases
  · exact ⟨fun hroom => absurd hroom hfull.not_ge, fun _ => ht⟩
  · refine ⟨fun _ => ⟨_, ht, ?frame, fun k hk => ?pushed, fun j hj => ?others⟩, fun hfull => absurd hroom hfull.not_ge⟩
    case frame =>
      rw [pushAll_eq]
      simp [respond]
    case pushed => exact readStk_pushAll_lowBytes hk s.encState s
    case others => exact readStk_pushAll_of_outside (by simpa using hj)

/-! ### The checks of ENC -/

/-- Settles O41. -/
theorem encChecksInOrder : Obligations.EncChecksInOrder := by
  intro s sym
  refine ⟨fun htv => ?_, fun htv hfreq => ?_, fun htv hfreq hlow => ?_⟩
  · simp [exec, execEnc, htv]
  · simp [exec, execEnc, htv, hfreq]
  · simp [exec, execEnc, htv, hfreq, Params.half, hlow]

/-! ### The state ENC leaves -/

/-- ENC's new state from the renormalized state `x`, by true division (43_encoder.md R154). -/
def rescaled (s : State) (sym x : Nat) : Nat :=
  x / freq s sym * s.params.M + (readCum s sym + x % freq s sym)

/-- The rescaling never mismatches: the fast division is exact, so the offset is the remainder. -/
theorem rescale_eq_some {s : State} {sym x : Nat} (hf : freq s sym ≠ 0) (hx : x < s.params.BL) :
    rescale s sym x = some (rescaled s sym x) := by
  have hoffset : (x : Int) - (x / freq s sym * freq s sym : Nat) = (x % freq s sym : Nat) := by
    have := Nat.div_add_mod' x (freq s sym)
    omega
  have hlt := Nat.mod_lt x (Nat.pos_of_ne_zero hf)
  simp only [rescale, fastdiv_eq_div (Nat.pos_of_ne_zero hf) hx, hoffset]
  rw [if_neg (by omega), Int.toNat_natCast, rescaled, Nat.add_assoc]

/-- The new state is `block * M` and a slot below `M`, so it reaches `k * M` exactly when `x` reaches `k * count`. -/
theorem mul_M_le_rescaled_iff {s : State} (hv : tableValid s = true) {sym : Nat} (hsym : sym < 256) (hf : freq s sym ≠ 0)
    (k x : Nat) : k * s.params.M ≤ rescaled s sym x ↔ k * freq s sym ≤ x := by
  have hpos := Nat.pos_of_ne_zero hf
  have hslot : readCum s sym + x % freq s sym < s.params.M := by
    have hmod := Nat.mod_lt x hpos
    have htop := readCum_le_M hv (show sym + 1 ≤ 256 from hsym)
    simp only [freq] at hmod ⊢
    omega
  calc k * s.params.M ≤ rescaled s sym x
    _ ↔ k ≤ rescaled s sym x / s.params.M := (Nat.le_div_iff_mul_le s.params.M_pos).symm
    _ ↔ k ≤ x / freq s sym := by
      rw [rescaled, Nat.add_comm, Nat.add_mul_div_right _ _ s.params.M_pos, Nat.div_eq_of_lt hslot, Nat.zero_add]
    _ ↔ k * freq s sym ≤ x := Nat.le_div_iff_mul_le hpos

/-- What a successful ENC has done: it passed its checks, pushed the `n` bytes of the renormalization and rescaled. -/
theorem exec_enc_ok {sym : Byte} {s t : State} {r : Word} (hinv : s.Inv) (h : exec (.enc sym) s = .next t)
    (hr : t.responses = s.responses ++ [⟨.ok, r⟩]) :
    tableValid s = true ∧ freq s sym.toNat ≠ 0 ∧ s.params.half ≤ s.encState ∧
    ∃ n, s.encState / 256 ^ n < xMax s.params (freq s sym.toNat) ∧
      (∀ k < n, xMax s.params (freq s sym.toNat) ≤ s.encState / 256 ^ k) ∧
      t.sp = s.sp + n ∧ t.encState = rescaled s sym.toNat (s.encState / 256 ^ n) := by
  obtain ⟨-, rfl⟩ | ⟨-, -, rfl⟩ | ⟨-, -, -, rfl⟩ | ⟨htv, hf, hhalf, n, -, hlt, hge, hend⟩ := exec_enc_cases h
  · simp at hr
  · simp at hr
  · simp at hr
  · obtain ⟨-, rfl⟩ | ⟨-, -, rfl⟩ | ⟨-, x, hx, rfl⟩ := hend
    · simp at hr
    · simp at hr
    · rw [rescale_eq_some hf ((Nat.div_le_self ..).trans_lt hinv.encState_lt), Option.some.injEq] at hx
      exact ⟨hinv.tv_valid htv, hf, hhalf, n, hlt, hge, by simp, hx.symm⟩

/-- Settles O44: the renormalized state is below `B * K_LM * count`, so the new one is below `B * K_LM * M`. -/
theorem encStateStaysBelowBL : Obligations.EncStateStaysBelowBL := by
  intro s t sym r hinv h hr
  obtain ⟨hv, hf, -, n, hlt, -, -, hx⟩ := exec_enc_ok hinv h hr
  rw [hx]
  calc rescaled s sym.toNat (s.encState / 256 ^ n)
    _ < 256 * s.params.kLM * s.params.M := not_le.1 fun hle =>
        hlt.not_ge ((mul_M_le_rescaled_iff hv sym.isLt hf _ _).1 hle)
    _ = s.params.BL := by rw [mul_assoc, s.params.kLM_mul_M, s.params.BL_eq]

/-- After a pushed byte the renormalized state is at least `K_LM * count` (43_encoder.md R157 (b)). -/
theorem kLM_mul_le_of_pushed {p : Params} {count x n : Nat} (hge : ∀ k < n, xMax p count ≤ x / 256 ^ k) (hn : 1 ≤ n) :
    p.kLM * count ≤ x / 256 ^ n := by
  obtain ⟨m, rfl⟩ : ∃ m, n = m + 1 := ⟨n - 1, by omega⟩
  rw [pow_succ, ← Nat.div_div_eq_div_mul, Nat.le_div_iff_mul_le (by norm_num)]
  calc p.kLM * count * 256
    _ = xMax p count := by rw [xMax]; ring
    _ ≤ x / 256 ^ m := hge m (Nat.lt_succ_self m)

/-- Settles O45: the equivalence, and that the renormalized state is at least `K_LM * count` where a byte was pushed, or none was and
the input was at least that. -/
theorem encStateAboveLExactlyWhen : Obligations.EncStateAboveLExactlyWhen := by
  intro s t sym n hinv h hr hsp
  obtain ⟨hv, hf, hhalf, n', -, hge, hsp', hx⟩ := exec_enc_ok hinv h hr
  obtain rfl : n' = n := by omega
  have hiff : s.params.L ≤ t.encState ↔ s.params.kLM * freq s sym.toNat ≤ s.encState / 256 ^ n' := by
    rw [hx, ← s.params.kLM_mul_M]
    exact mul_M_le_rescaled_iff hv sym.isLt hf _ _
  have hpushed (hn : 1 ≤ n') : s.params.L ≤ t.encState := hiff.2 (kLM_mul_le_of_pushed hge hn)
  have hinput (hle : s.params.kLM * freq s sym.toNat ≤ s.encState) : s.params.L ≤ t.encState := by
    obtain rfl | hn := n'.eq_zero_or_pos
    · exact hiff.2 (by simpa using hle)
    · exact hpushed hn
  refine ⟨hiff, fun hL => hinput ?normal, hpushed, hinput, fun hcount => hinput ?seed⟩
  case normal =>
    calc s.params.kLM * freq s sym.toNat
      _ ≤ s.params.kLM * s.params.M := Nat.mul_le_mul_left _ (freq_le_M hv sym.isLt)
      _ = s.params.L := s.params.kLM_mul_M
      _ ≤ s.encState := hL
  case seed =>
    refine (Nat.le_of_mul_le_mul_left ?_ two_pos).trans hhalf
    calc 2 * (s.params.kLM * freq s sym.toNat)
      _ = s.params.kLM * (2 * freq s sym.toNat) := mul_left_comm ..
      _ ≤ s.params.kLM * s.params.M := Nat.mul_le_mul_left _ hcount
      _ = 2 * s.params.half := by rw [s.params.kLM_mul_M, s.params.two_mul_half]

/-! ### What ENC reads -/

/-- `s` with the memories and registers of `u` that are no input of ENC but for two entries of CUM (43_encoder.md R159). -/
def State.withBystandersOf (u s : State) : State :=
  { s with cum := u.cum, wgt := u.wgt, divf := u.divf, divsh := u.divsh, divmul := u.divmul, decState := u.decState,
           decRemain := u.decRemain, decSym := u.decSym, bonus := u.bonus }

@[simp] theorem withBystandersOf_params (u s : State) : (u.withBystandersOf s).params = s.params := rfl
@[simp] theorem withBystandersOf_tv (u s : State) : (u.withBystandersOf s).tv = s.tv := rfl
@[simp] theorem withBystandersOf_encState (u s : State) : (u.withBystandersOf s).encState = s.encState := rfl
@[simp] theorem withBystandersOf_sp (u s : State) : (u.withBystandersOf s).sp = s.sp := rfl

theorem raise_withBystandersOf (e : ErrorCode) (u s : State) :
    raise e (u.withBystandersOf s) = u.withBystandersOf (raise e s) := rfl

theorem push_withBystandersOf (b : Byte) (u s : State) :
    push b (u.withBystandersOf s) = u.withBystandersOf (push b s) := rfl

theorem pushAll_withBystandersOf (bs : List Byte) (u s : State) :
    pushAll bs (u.withBystandersOf s) = u.withBystandersOf (pushAll bs s) := by
  induction bs generalizing s with
  | nil => rfl
  | cons b bs ih => rw [pushAll_cons, pushAll_cons, push_withBystandersOf, ih]

section
variable {u s : State} {sym : Nat} (hlow : readCum (u.withBystandersOf s) sym = readCum s sym)
  (hhigh : readCum (u.withBystandersOf s) (sym + 1) = readCum s (sym + 1))
include hlow hhigh

theorem freq_withBystandersOf : freq (u.withBystandersOf s) sym = freq s sym := by
  rw [freq, freq, hlow, hhigh]

theorem rescale_withBystandersOf (x : Nat) : rescale (u.withBystandersOf s) sym x = rescale s sym x := by
  simp only [rescale, freq_withBystandersOf hlow hhigh, hlow, withBystandersOf_params]

/-- The renormalization and the rescaling depend on the frequency and on `CUM[s]`; the writes do not meet the bystanders. -/
theorem encodeSymbol_withBystandersOf :
    encodeSymbol sym (u.withBystandersOf s) = u.withBystandersOf (encodeSymbol sym s) := by
  simp only [encodeSymbol, freq_withBystandersOf hlow hhigh, rescale_withBystandersOf hlow hhigh,
    withBystandersOf_params, withBystandersOf_encState, withBystandersOf_sp, pushAll_withBystandersOf,
    raise_withBystandersOf]
  split
  · rfl
  · split <;> rfl

end

/-- ENC does the same whatever the bystanders hold, and leaves them. -/
theorem exec_enc_withBystandersOf {u s t : State} {sym : Byte}
    (hlow : readCum (u.withBystandersOf s) sym.toNat = readCum s sym.toNat)
    (hhigh : readCum (u.withBystandersOf s) (sym.toNat + 1) = readCum s (sym.toNat + 1)) (h : exec (.enc sym) s = .next t) :
    exec (.enc sym) (u.withBystandersOf s) = .next (u.withBystandersOf t) := by
  simp only [exec, execEnc, Host.Outcome.next.injEq] at h ⊢
  simp only [← h, withBystandersOf_tv, withBystandersOf_params, withBystandersOf_encState,
    freq_withBystandersOf hlow hhigh, encodeSymbol_withBystandersOf hlow hhigh, raise_withBystandersOf,
    apply_ite u.withBystandersOf]

/-- Settles O46: the given memories and registers are those of one state. -/
theorem encReadsOnlyTwoTableEntries : Obligations.EncReadsOnlyTwoTableEntries := by
  intro s t sym c w f sh m ds dr dy bo hlow hhigh h
  exact exec_enc_withBystandersOf
    (u := { s with cum := c, wgt := w, divf := f, divsh := sh, divmul := m, decState := ds, decRemain := dr, decSym := dy,
                   bonus := bo }) hlow hhigh h

end Sys2Proof.Machine

/-! PROOF. The decoder's parts: DECINIT (44_decoder.md R181), and the one symbol whose interval holds a slot (R184). An interval is
found because the table starts at or below the slot and ends above it; no other holds the slot because the table does not
decrease. -/

namespace Sys2Proof.Machine

/-- Settles O48. -/
theorem decinitLoadsTheState : Obligations.DecinitLoadsTheState := by
  refine ⟨fun d => decode_headerOf (op := .decinit) d (.inr rfl) (.inr rfl), fun s d => ?_⟩
  obtain ⟨t, ht⟩ : Continues (exec (.decinit d) s) := ⟨_, rfl⟩
  obtain ⟨hbad, rfl⟩ | ⟨hok, rfl⟩ := exec_decinit_cases ht
  · exact ⟨fun hd => absurd hd hbad.not_gt, fun _ => ht⟩
  · exact ⟨fun _ => ht, fun hd => absurd hok hd.not_gt⟩

/-- A value at or above the first entry and below entry `n` lies in an interval before `n`, whether or not the table decreases. -/
theorem exists_interval {s : State} {v n : Nat} (hfirst : readCum s 0 ≤ v) (hlast : v < readCum s n) :
    ∃ sym < n, readCum s sym ≤ v ∧ v < readCum s (sym + 1) := by
  induction n with
  | zero => exact absurd hlast hfirst.not_gt
  | succ n ih =>
    obtain hle | hlt := le_or_gt (readCum s n) v
    · exact ⟨n, Nat.lt_succ_self n, hle, hlast⟩
    · obtain ⟨sym, hsym, hin⟩ := ih hlt
      exact ⟨sym, hsym.trans (Nat.lt_succ_self n), hin⟩

/-- In a valid table an interval that starts at or below a value is not behind one that ends above it. -/
theorem le_of_readCum_le_of_lt_readCum {s : State} (h : tableValid s = true) {v i j : Nat} (hi : i < 256)
    (hlow : readCum s i ≤ v) (hhigh : v < readCum s (j + 1)) : i ≤ j := by
  by_contra hji
  have hmono : readCum s (j + 1) ≤ readCum s i := readCum_mono h (not_le.1 hji) hi.le
  exact (hhigh.trans_le hmono).not_ge hlow

/-- Settles O50: the interval exists between `CUM[0] = 0` and `CUM[256] = M`, and of two that hold the slot neither is behind the
other. -/
theorem slotHasOneSymbol : Obligations.SlotHasOneSymbol := by
  intro s v hv hM
  obtain ⟨h0, h256, -⟩ := (tableValid_iff s).1 hv
  obtain ⟨sym, hsym, hlow, hhigh⟩ := exists_interval (h0.trans_le v.zero_le) (h256 ▸ hM)
  refine ⟨sym, ⟨hsym, hlow, hhigh, Nat.sub_pos_of_lt (hlow.trans_lt hhigh)⟩, ?unique⟩
  case unique =>
    rintro sym' ⟨hsym', hlow', hhigh', -⟩
    exact le_antisymm (le_of_readCum_le_of_lt_readCum hv hsym' hlow' hhigh)
      (le_of_readCum_le_of_lt_readCum hv hsym hlow hhigh')

end Sys2Proof.Machine

/-! PROOF. The host access commands (45_host_access.md R210 to R217): NOP and SRST, the registers as RDREG and WRREG see them,
and the stack as PUSHB, POPB, RDSTK and WRSTK see it. -/

namespace Sys2Proof.Machine

/-! ### NOP and SRST -/

/-- Settles O16: a header that decodes to NOP is selected by the row of NOP, whose mask leaves no bit free. -/
theorem nopDoesNothing : Obligations.NopDoesNothing := by
  refine ⟨fun d => decode_headerOf (op := .nop) d (.inr rfl) (.inr rfl), fun h d hnop => ?_, exec_nop_eq⟩
  have hrow : h &&& 0xFFFFFFFF#32 = 0x00000000#32 := (rowOf_selects_iff_decode h d .nop).2 ⟨_, hnop, rfl⟩
  exact BitVec.and_allOnes.symm.trans hrow

/-- Settles O17: the reset event gives the registers the same values. -/
theorem srstResetsRegistersKeepsMemories : Obligations.SrstResetsRegistersKeepsMemories :=
  ⟨fun d => decode_headerOf (op := .srst) d (.inr rfl) (.inr rfl), exec_srst_eq⟩

/-! ### RDREG -/

/-- Appending words adds their values, the upper one scaled by the width of the lower. -/
theorem toNat_append_eq_add {v w : Nat} (x : BitVec v) (y : BitVec w) : (x ++ y).toNat = x.toNat * 2 ^ w + y.toNat := by
  rw [BitVec.toNat_append, ← Nat.shiftLeft_add_eq_or_of_lt y.isLt, Nat.shiftLeft_eq]

/-- The value of ID: each parameter fits its byte (10_state.md R21). -/
theorem idWord_toNat (p : Params) :
    (idWord p).toNat = p.mBits + p.lBits * 2 ^ 8 + p.sdBits * 2 ^ 16 + 2 ^ 24 := by
  have hm := p.mBits_le_lBits
  have hl := p.lBits_le
  have hs := p.sdBits_le
  simp only [idWord, toNat_append_eq_add, BitVec.toNat_ofNat]
  omega

/-- The value of STATUS, `ERR | EOS<<1 | TV<<2 | LOW<<3` (45_host_access.md R212). -/
theorem statusWord_eq (s : State) :
    statusWord s = BitVec.ofNat 64 (s.err.toNat + 2 * s.eos.toNat + 4 * s.tv.toNat + 8 * s.low.toNat) := by
  have hbits : ∀ e o t l : Bool, (BitVec.ofBool l ++ BitVec.ofBool t ++ BitVec.ofBool o ++ BitVec.ofBool e).setWidth 64 =
      BitVec.ofNat 64 (e.toNat + 2 * o.toNat + 4 * t.toNat + 8 * l.toNat) := by decide
  exact hbits ..

/-- Numbers 12 to 255 name no register (10_state.md R33). -/
theorem registerOf_eq_none_iff (r : Byte) : registerOf r = none ↔ 12 ≤ r.toNat := List.getElem?_eq_none_iff

theorem exec_rdreg_of_some {r : Byte} {reg : Reg} (h : registerOf r = some reg) (s : State) :
    exec (.rdreg r) s = .next (respond .ok (readReg s reg) s) := by
  simp only [exec, execRdreg, h]

theorem exec_rdreg_of_none {r : Byte} (h : registerOf r = none) (s : State) :
    exec (.rdreg r) s = .next (raise .badOperand s) := by
  simp only [exec, execRdreg, h]

/-- The registers in the order of their numbers, with what RDREG returns for each (45_host_access.md R212). -/
theorem registerList_zipIdx_readReg (s : State) : registerList.zipIdx.map (fun e => (e.2, readReg s e.1)) = [
    (0, BitVec.ofNat 64 (s.params.mBits + s.params.lBits * 2 ^ 8 + s.params.sdBits * 2 ^ 16 + 2 ^ 24)),
    (1, BitVec.ofNat 64 (s.err.toNat + 2 * s.eos.toNat + 4 * s.tv.toNat + 8 * s.low.toNat)),
    (2, BitVec.ofNat 64 s.errcode.toNat), (3, BitVec.ofNat 64 s.encState), (4, BitVec.ofNat 64 s.decState),
    (5, BitVec.ofNat 64 s.sp), (6, BitVec.ofNat 64 s.decSym.toNat), (7, s.bonus), (8, BitVec.ofNat 64 s.decRemain),
    (9, BitVec.ofNat 64 s.divf), (10, BitVec.ofNat 64 s.divsh), (11, BitVec.ofNat 64 s.divmul)] := by
  rw [← idWord_toNat, ← statusWord_eq]
  simp only [BitVec.ofNat_toNat]
  rfl

/-- Settles O18: the listed pair is a register's number and what RDREG returns for it; a number from 12 on is past the list. -/
theorem rdregReturnsTheRegister : Obligations.RdregReturnsTheRegister := by
  refine ⟨fun a d => decode_headerOf (op := .rdreg) d (.inl rfl) (.inr rfl), fun s r v hv => ?_, fun s r hr => ?_⟩
  · rw [← registerList_zipIdx_readReg, List.mem_map] at hv
    obtain ⟨⟨reg, n⟩, hreg, heq⟩ := hv
    obtain ⟨rfl, rfl⟩ := Prod.mk.inj heq
    exact exec_rdreg_of_some (List.mk_mem_zipIdx_iff_getElem?.1 hreg) s
  · exact exec_rdreg_of_none ((registerOf_eq_none_iff r).2 hr) s

/-! ### WRREG -/

/-- WRREG of a register that takes the value. -/
theorem exec_wrreg_of_some {r : Byte} {reg : Reg} {d : Word} {s t : State} (hr : registerOf r = some reg)
    (ht : writeReg s d reg = some t) : exec (.wrreg r d) s = .next (respond .ok 0#64 t) := by
  simp only [exec, execWrreg, hr, Option.bind_some, ht]

/-- WRREG of a read-only register, or of a value out of the register's range. -/
theorem exec_wrreg_of_none {r : Byte} {reg : Reg} {d : Word} {s : State} (hr : registerOf r = some reg)
    (ht : writeReg s d reg = none) : exec (.wrreg r d) s = .next (raise .badOperand s) := by
  simp only [exec, execWrreg, hr, Option.bind_some, ht]

/-- Settles O19: only the numbers 1, 3, 4, 5 and 8 can answer OK, and each of them does exactly where its range check passes. -/
theorem wrregWritesTheWritableRegisters : Obligations.WrregWritesTheWritableRegisters := by
  refine ⟨fun a d => decode_headerOf (op := .wrreg) d (.inl rfl) (.inr rfl), fun s r d hr => ?_, fun s d => ?_⟩
  · obtain ⟨t, ht⟩ : Continues (exec (.wrreg r d) s) := ⟨_, rfl⟩
    obtain rfl | ⟨rfl, -⟩ | ⟨rfl, -⟩ | ⟨rfl, -⟩ | ⟨rfl, -⟩ | ⟨rfl, -⟩ | ⟨rfl, -⟩ := exec_wrreg_cases ht
    · exact ht
    all_goals exact absurd hr (by decide)
  · exact ⟨fun hd => exec_wrreg_of_some rfl (congrArg some (if_pos hd)),
      fun hd => exec_wrreg_of_some rfl (congrArg some (if_neg (Bool.eq_false_iff.1 hd))),
      fun hd => ⟨exec_wrreg_of_some rfl (if_pos hd), exec_wrreg_of_some rfl (if_pos hd)⟩,
      fun hd => ⟨exec_wrreg_of_none rfl (if_neg hd.not_gt), exec_wrreg_of_none rfl (if_neg hd.not_gt)⟩,
      fun hd => exec_wrreg_of_some rfl (if_pos hd),
      fun hd => exec_wrreg_of_none rfl (if_neg hd.not_ge),
      fun hd => exec_wrreg_of_some rfl (if_pos hd),
      fun hd => exec_wrreg_of_none rfl (if_neg hd.not_gt)⟩

/-! ### The stack -/

/-- Settles O20. The statement's full stack is an equality, the model's check an inequality. -/
theorem pushbPushesOneByte : Obligations.PushbPushesOneByte := by
  refine ⟨fun a d => decode_headerOf (op := .pushb) d (.inl rfl) (.inr rfl), fun s b => ?_⟩
  obtain ⟨t, ht⟩ : Continues (exec (.pushb b) s) := ⟨_, rfl⟩
  obtain ⟨hfull, rfl⟩ | ⟨hroom, rfl⟩ := exec_pushb_cases ht
  · exact ⟨fun hroom => absurd hroom hfull.not_gt, fun _ => ht⟩
  · refine ⟨fun _ => ⟨_, ht, rfl, ?pushed, fun j hj => ?others⟩, fun hfull => absurd hfull hroom.ne⟩
    case pushed => simp [readStk_push]
    case others => simp [readStk_push, hj]

/-- Settles O21: the byte popped is at index `SP - 1`. -/
theorem popbPopsOneByte : Obligations.PopbPopsOneByte := by
  refine ⟨fun d => decode_headerOf (op := .popb) d (.inr rfl) (.inr rfl), fun s => ?_⟩
  obtain ⟨t, ht⟩ : Continues (exec .popb s) := ⟨_, rfl⟩
  obtain ⟨hempty, rfl⟩ | ⟨hbyte, rfl⟩ := exec_popb_cases ht
  · exact ⟨fun n hn => absurd (hempty.symm.trans hn) n.succ_ne_zero.symm, fun _ => ht⟩
  · refine ⟨fun n hn => ?popped, fun hempty => absurd hempty hbyte⟩
    case popped =>
      obtain rfl : n = s.sp - 1 := by omega
      exact ht

/-- Settles O22: the range check does not read SP. -/
theorem rdstkReadsByIndex : Obligations.RdstkReadsByIndex := by
  refine ⟨fun b d => decode_headerOf (op := .rdstk) d (.inr rfl) (.inl rfl), fun s i => ?_⟩
  obtain ⟨t, ht⟩ : Continues (exec (.rdstk i) s) := ⟨_, rfl⟩
  obtain ⟨hbad, rfl⟩ | ⟨hok, rfl⟩ := exec_rdstk_cases ht
  · exact ⟨fun hi => absurd hi hbad.not_gt, fun _ => ht⟩
  · exact ⟨fun _ => ht, fun hi => absurd hok hi.not_gt⟩

/-- Settles O23: the one written entry is the one named by the operand. -/
theorem wrstkWritesByIndex : Obligations.WrstkWritesByIndex := by
  refine ⟨fun a b d => decode_headerOf (op := .wrstk) d (.inl rfl) (.inl rfl), fun s b i => ?_⟩
  obtain ⟨t, ht⟩ : Continues (exec (.wrstk b i) s) := ⟨_, rfl⟩
  obtain ⟨hbad, rfl⟩ | ⟨hok, rfl⟩ := exec_wrstk_cases ht
  · exact ⟨fun hi => absurd hi hbad.not_gt, fun _ => ht⟩
  · refine ⟨fun _ => ⟨_, ht, rfl, ?written, fun j hj => ?others⟩, fun hi => absurd hok hi.not_gt⟩
    case written => simp [readStk_writeStk]
    case others => simp [readStk_writeStk, hj]

end Sys2Proof.Machine

/-! PROOF. The exceptions (60_exceptions.md): an illegal header (R242), and over all commands what a failure leaves unchanged (R252,
R253) and when ERR and ERRCODE change (R255, R258). The last two are read off one classification of every command's effect. -/

namespace Sys2Proof.Machine

/-! ### The illegal header -/

theorem runCommand_of_ok {c : Command} {i : Instr} (h : decode c.header c.payload = .ok i) (s : State) :
    runCommand c s = exec i s := by
  simp only [runCommand, h]

theorem runCommand_of_error {c : Command} {e : DecodeError} (h : decode c.header c.payload = .error e) (s : State) :
    runCommand c s = .next (raise .illegalCommand s) := by
  simp only [runCommand, h]

/-- Settles O2: a header that decoded would be selected by the row of its opcode. -/
theorem illegalHeaderOnlySetsErrAndErrcode : Obligations.IllegalHeaderOnlySetsErrAndErrcode := by
  intro s c hnone
  obtain ⟨i, hi⟩ | ⟨e, he⟩ := decode_ok_or_error c.header c.payload
  · have hrow := (rowOf_selects_iff_decode c.header c.payload i.opcode).2 ⟨i, hi, rfl⟩
    exact absurd hrow (hnone _ ((mem_opcodeTable_iff _).2 ⟨_, rfl⟩))
  · exact runCommand_of_error he s

/-! ### What a command can do to ERR, ERRCODE and the rest -/

/-- The effect of a command, by how it ends: the error effect alone; CHKTAB's failure, which writes TV first
(41_frequency_model.md R112); STREAM_UNDERFLOW after the refill (60_exceptions.md R246); a success that leaves ERR and ERRCODE;
or one of the two commands that clear them (R255). -/
inductive CommandEffect (c : Command) (s : State) : State → Prop where
  | failed (e : ErrorCode) (he : e ≠ .streamUnderflow) : CommandEffect c s (raise e s)
  | tableRejected (hv : tableValid s = false) : CommandEffect c s (raise .tableInvalid (setTv false s))
  | underflow (hc : decode c.header c.payload = .ok .dec) : CommandEffect c s (raiseWith .streamUnderflow (bonusOf (refill s))
      (setEos true { refill s with bonus := bonusOf (refill s) }))
  | succeeded {u : State} (st : Status) (r : Word) (hst : ∀ e, st ≠ .error e) (hresp : u.responses = s.responses)
      (herr : u.err = s.err) (hcode : u.errcode = s.errcode) : CommandEffect c s (respond st r u)
  | cleared {u : State} (hc : decode c.header c.payload = .ok .srst ∨
        ∃ d : Word, d.getLsbD 0 = true ∧ decode c.header c.payload = .ok (.wrreg 1#8 d))
      (hresp : u.responses = s.responses) : CommandEffect c s (respond .ok 0#64 u)

/-- Success with status OK. -/
theorem CommandEffect.ok {c : Command} {s u : State} (r : Word) (hresp : u.responses = s.responses) (herr : u.err = s.err)
    (hcode : u.errcode = s.errcode) : CommandEffect c s (respond .ok r u) :=
  .succeeded .ok r nofun hresp herr hcode

/-- The end of the stream is a failure exactly when symbols are still expected (44_decoder.md R187). -/
theorem CommandEffect.endOfStream {c : Command} {s : State} (hc : decode c.header c.payload = .ok .dec) :
    CommandEffect c s (endStream (refill s)) := by
  by_cases hrem : (refill s).decRemain = 0
  · simp only [endStream, if_pos hrem]
    exact .succeeded .endOfStream _ nofun rfl rfl rfl
  · simp only [endStream, if_neg hrem]
    exact .underflow hc

/-- Every command ends in one of the five ways. -/
theorem commandEffect_of_runCommand {c : Command} {s t : State} (h : runCommand c s = .next t) : CommandEffect c s t := by
  obtain ⟨i, hc⟩ | ⟨e, hc⟩ := decode_ok_or_error c.header c.payload
  case inr =>
    obtain rfl := Host.Outcome.next.inj ((runCommand_of_error hc s).symm.trans h)
    exact .failed .illegalCommand nofun
  rw [runCommand_of_ok hc] at h
  cases i with
  | nop =>
    obtain rfl := Host.Outcome.next.inj h
    exact .ok _ rfl rfl rfl
  | srst =>
    obtain rfl := Host.Outcome.next.inj h
    exact .cleared (.inl hc) rfl
  | rdreg r =>
    obtain ⟨-, rfl⟩ | ⟨reg, -, rfl⟩ := exec_rdreg_cases h
    · exact .failed _ nofun
    · exact .ok _ rfl rfl rfl
  | wrreg r d =>
    obtain rfl | ⟨rfl, hd, rfl⟩ | ⟨-, -, rfl⟩ | ⟨-, -, rfl⟩ | ⟨-, -, rfl⟩ | ⟨-, -, rfl⟩ | ⟨-, -, rfl⟩ := exec_wrreg_cases h
    · exact .failed _ nofun
    · exact .cleared (.inr ⟨d, hd, hc⟩) rfl
    all_goals exact .ok _ rfl rfl rfl
  | wrwgt sym d =>
    obtain ⟨-, rfl⟩ | ⟨-, rfl⟩ := exec_wrwgt_cases h
    · exact .failed _ nofun
    · exact .ok _ rfl rfl rfl
  | rdwgt sym =>
    obtain rfl := Host.Outcome.next.inj h
    exact .ok _ rfl rfl rfl
  | wrcum idx d =>
    obtain ⟨-, rfl⟩ | ⟨-, -, rfl⟩ := exec_wrcum_cases h
    · exact .failed _ nofun
    · exact .ok _ rfl rfl rfl
  | rdcum idx =>
    obtain ⟨-, rfl⟩ | ⟨-, rfl⟩ := exec_rdcum_cases h
    · exact .failed _ nofun
    · exact .ok _ rfl rfl rfl
  | build =>
    obtain ⟨-, rfl⟩ | ⟨es, -, rfl⟩ := exec_build_cases h
    · exact .failed _ nofun
    · exact .ok _ rfl rfl rfl
  | chktab =>
    obtain ⟨hv, rfl⟩ | ⟨-, rfl⟩ := exec_chktab_cases h
    · exact .tableRejected hv
    · exact .ok _ rfl rfl rfl
  | pushb b =>
    obtain ⟨-, rfl⟩ | ⟨-, rfl⟩ := exec_pushb_cases h
    · exact .failed _ nofun
    · exact .ok _ rfl rfl rfl
  | popb =>
    obtain ⟨-, rfl⟩ | ⟨-, rfl⟩ := exec_popb_cases h
    · exact .failed _ nofun
    · exact .ok _ rfl rfl rfl
  | rdstk idx =>
    obtain ⟨-, rfl⟩ | ⟨-, rfl⟩ := exec_rdstk_cases h
    · exact .failed _ nofun
    · exact .ok _ rfl rfl rfl
  | wrstk b idx =>
    obtain ⟨-, rfl⟩ | ⟨-, rfl⟩ := exec_wrstk_cases h
    · exact .failed _ nofun
    · exact .ok _ rfl rfl rfl
  | encinit d =>
    obtain ⟨-, rfl⟩ | ⟨-, rfl⟩ := exec_encinit_cases h
    · exact .failed _ nofun
    · exact .ok _ rfl rfl rfl
  | enc sym =>
    obtain ⟨-, rfl⟩ | ⟨-, -, rfl⟩ | ⟨-, -, -, rfl⟩ | ⟨-, -, -, n, -, -, -, hend⟩ := exec_enc_cases h
    · exact .failed _ nofun
    · exact .failed _ nofun
    · exact .failed _ nofun
    · obtain ⟨-, rfl⟩ | ⟨-, -, rfl⟩ | ⟨-, x, -, rfl⟩ := hend
      · exact .failed _ nofun
      · exact .failed _ nofun
      · exact .ok _ (by simp) (by simp) (by simp)
  | encflush =>
    obtain ⟨-, rfl⟩ | ⟨-, rfl⟩ := exec_encflush_cases h
    · exact .failed _ nofun
    · exact .ok _ (by simp) (by simp) (by simp)
  | decinit d =>
    obtain ⟨-, rfl⟩ | ⟨-, rfl⟩ := exec_decinit_cases h
    · exact .failed _ nofun
    · exact .ok _ rfl rfl rfl
  | dec =>
    obtain ⟨-, rfl⟩ | ⟨-, -, rfl⟩ | ⟨-, -, sym, -, -, -, rfl⟩ := exec_dec_cases h
    · exact .failed _ nofun
    · exact .endOfStream hc
    · exact .ok _ rfl rfl rfl
  | divp d =>
    obtain ⟨-, rfl⟩ | ⟨-, -, rfl⟩ := exec_divp_cases h
    · exact .failed _ nofun
    · exact .ok _ rfl rfl rfl
  | divq d =>
    obtain ⟨-, rfl⟩ | ⟨-, -, rfl⟩ | ⟨-, -, rfl⟩ := exec_divq_cases h
    · exact .failed _ nofun
    · exact .failed _ nofun
    · exact .ok _ rfl rfl rfl

/-! ### The two statements over all commands -/

/-- A response appended to a list is determined by the result. -/
theorem response_inj {l : List Response} {st st' : Status} {r r' : Word} (h : l ++ [⟨st, r⟩] = l ++ [⟨st', r'⟩]) :
    st = st' ∧ r = r' := by
  simpa using h

/-- Under the invariant a table that fails its check has TV = 0 already, so CHKTAB's write of TV changes nothing. -/
theorem State.Inv.setTv_false_of_invalid {s : State} (h : s.Inv) (hv : tableValid s = false) : setTv false s = s := by
  have htv : s.tv = false := Bool.eq_false_iff.2 fun htv => Bool.eq_false_iff.1 hv (h.tv_valid htv)
  rw [setTv, ← htv]

/-- Settles O10: an error other than STREAM_UNDERFLOW is the error effect alone; the end of the stream adds R246's writes. -/
theorem failedCommandChangesOnlyErrAndErrcode : Obligations.FailedCommandChangesOnlyErrAndErrcode := by
  intro c s t e r hinv hrun hresp
  cases commandEffect_of_runCommand hrun with
  | failed e' he' =>
    obtain ⟨⟨rfl⟩, rfl⟩ := response_inj hresp
    exact ⟨rfl, rfl, fun _ => rfl, fun he => absurd he he'⟩
  | tableRejected hv =>
    rw [hinv.setTv_false_of_invalid hv] at hresp ⊢
    obtain ⟨⟨rfl⟩, rfl⟩ := response_inj hresp
    exact ⟨rfl, rfl, fun _ => rfl, nofun⟩
  | underflow hc =>
    obtain ⟨⟨rfl⟩, rfl⟩ := response_inj hresp
    exact ⟨rfl, rfl, fun he => absurd rfl he, fun _ => ⟨hc, rfl, rfl, rfl, rfl, rfl, rfl⟩⟩
  | succeeded st r' hst hkept =>
    rw [respond_responses, hkept] at hresp
    exact absurd (response_inj hresp).1 (hst e)
  | cleared _ hkept =>
    rw [respond_responses, hkept] at hresp
    exact nomatch (response_inj hresp).1

/-- ERR and ERRCODE after a command, by its response: an error sets both, any other status leaves both, unless the command is
one of the two that clear them. -/
theorem CommandEffect.err_cases {c : Command} {s t : State} (h : CommandEffect c s t) :
    (∃ e r, t.responses = s.responses ++ [⟨.error e, r⟩] ∧ t.err = true ∧ t.errcode = errorCodeBits e) ∨
    (∃ st r, t.responses = s.responses ++ [⟨st, r⟩] ∧ (∀ e, st ≠ .error e) ∧ t.err = s.err ∧ t.errcode = s.errcode) ∨
    decode c.header c.payload = .ok .srst ∨
    ∃ d : Word, d.getLsbD 0 = true ∧ decode c.header c.payload = .ok (.wrreg 1#8 d) := by
  cases h with
  | failed => exact .inl ⟨_, _, rfl, rfl, rfl⟩
  | tableRejected => exact .inl ⟨_, _, rfl, rfl, rfl⟩
  | underflow => exact .inl ⟨_, _, rfl, rfl, rfl⟩
  | succeeded st r hst hkept herr hcode =>
    exact .inr (.inl ⟨st, r, by rw [respond_responses, hkept], hst, herr, hcode⟩)
  | cleared hc => exact .inr (.inr hc)

/-- Settles O13: the statement leaves out the two clearing commands, and any other changes ERR and ERRCODE only by failing. -/
theorem errIsSticky : Obligations.ErrIsSticky := by
  intro c s t st r hrun hresp hsrst hclr
  obtain ⟨e, r', hresp', herr, hcode⟩ | ⟨st', r', hresp', hst, herr, hcode⟩ | hc | ⟨d, hd, hc⟩ :=
    (commandEffect_of_runCommand hrun).err_cases
  · obtain ⟨rfl, -⟩ := response_inj (hresp'.symm.trans hresp)
    exact ⟨fun _ => herr, fun e' he => Status.error.inj he ▸ ⟨herr, hcode⟩, fun hst => absurd rfl (hst e)⟩
  · obtain ⟨rfl, -⟩ := response_inj (hresp'.symm.trans hresp)
    exact ⟨fun hs => herr.trans hs, fun e he => absurd he (hst e), fun _ => ⟨herr, hcode⟩⟩
  · exact absurd hc hsrst
  · exact absurd hc (hclr d hd)

end Sys2Proof.Machine

/-! PROOF. The round trip of the encoding, the headers that decode to nothing (30_encoding.md R81 to R88), and the step as a reader
of the host's next command (20_memory.md R60). -/

namespace Sys2Proof

/-! ### Decode of encode -/

/-- A command's opcode and operands make the command again. -/
theorem instrOf_opcode_operands (i : Instr) : instrOf i.opcode i.operandA i.operandB i.operandD = i := by
  cases i <;> rfl

/-- A command puts zero in field A where its opcode does not use the field (30_encoding.md R84). -/
theorem usesA_or_operandA_eq_zero (i : Instr) : usesA i.opcode = true ∨ i.operandA = 0#8 := by
  cases i <;> simp [Instr.opcode, usesA, Instr.operandA]

/-- A command puts zero in field B where its opcode does not use the field (30_encoding.md R84). -/
theorem usesB_or_operandB_eq_zero (i : Instr) : usesB i.opcode = true ∨ i.operandB = 0#16 := by
  cases i <;> simp [Instr.opcode, usesB, Instr.operandB]

theorem decode_encode (i : Instr) : decode (encode i).header (encode i).payload = .ok i :=
  calc decode (encode i).header (encode i).payload
    _ = .ok (instrOf i.opcode i.operandA i.operandB i.operandD) :=
      decode_headerOf _ (usesA_or_operandA_eq_zero i) (usesB_or_operandB_eq_zero i)
    _ = .ok i := by rw [instrOf_opcode_operands]

/-- Settles O6. -/
theorem decodeOfEncodeIsTheInstruction : Obligations.DecodeOfEncodeIsTheInstruction := decode_encode

/-! ### Encode of decode -/

theorem operandA_instrOf {op : Opcode} {a : Byte} (h : usesA op = true ∨ a = 0#8) (b : BitVec 16) (d : Word) :
    (instrOf op a b d).operandA = a := by
  cases op <;> simp_all [usesA, instrOf, Instr.operandA]

theorem operandB_instrOf {op : Opcode} {b : BitVec 16} (h : usesB op = true ∨ b = 0#16) (a : Byte) (d : Word) :
    (instrOf op a b d).operandB = b := by
  cases op <;> simp_all [usesB, instrOf, Instr.operandB]

/-- A command carries its payload, or its opcode makes the same command of every payload (30_encoding.md R82). -/
theorem operandD_instrOf_or_ignored (op : Opcode) (a : Byte) (b : BitVec 16) (d : Word) :
    (instrOf op a b d).operandD = d ∨ ∀ d', instrOf op a b d' = instrOf op a b d := by
  cases op <;> simp [instrOf, Instr.operandD]

/-- Settles O7: the fields of an accepted header are the operands, or zero where the opcode does not use them. -/
theorem encodeOfDecodeIsTheCommand : Obligations.EncodeOfDecodeIsTheCommand := by
  intro h d i hi
  obtain ⟨op, hopc, ha, hb, rfl⟩ := (decode_eq_ok_iff h d i).1 hi
  refine ⟨?header, (operandD_instrOf_or_ignored op (fieldA h) (fieldB h) d).imp_right fun hign d' => ?payload⟩
  case header =>
    simp only [encode, opcode_instrOf, operandA_instrOf ha, operandB_instrOf hb, hopc, headerOf_fields]
  case payload =>
    exact (decode_eq_ok_iff h d' _).2 ⟨op, hopc, ha, hb, (hign d').symm⟩

/-! ### The encodings that are no command -/

/-- No opcode has its OPC value in the unassigned ranges of 30_encoding.md R86. -/
theorem opcodeByte_not_mem_unassigned (op : Opcode) : (opcodeByte op).toNat ∉
    Finset.Icc 0x04 0x0F ∪ Finset.Icc 0x16 0x1F ∪ Finset.Icc 0x24 0x2F ∪ Finset.Icc 0x33 0x37 ∪
      Finset.Icc 0x3A 0x3F ∪ Finset.Icc 0x42 0xFF := by
  cases op <;> simp [opcodeByte]

theorem decode_of_opcodeOf_none {h : Header} (hn : opcodeOf (fieldOpc h) = none) (d : Word) :
    decode h d = .error (.unassignedOpcode (fieldOpc h)) := by
  simp only [decode, hn]

/-- Where every OPC value of a list is that of an opcode using the fields given by `ua` and `ub`, the headers with such an OPC that
decode are those whose other fields are zero. -/
theorem decode_isOk_iff_of_mem {opcs : List Nat} {ua ub : Bool}
    (hops : ∀ n ∈ opcs, ∃ op ∈ allOpcodes, (opcodeByte op).toNat = n ∧ usesA op = ua ∧ usesB op = ub) {h : Header}
    (hopc : (fieldOpc h).toNat ∈ opcs) (d : Word) :
    (∃ i, decode h d = .ok i) ↔ (ua = true ∨ fieldA h = 0#8) ∧ (ub = true ∨ fieldB h = 0#16) := by
  obtain ⟨op, -, hop, rfl, rfl⟩ := hops _ hopc
  exact decode_isOk_iff d (BitVec.eq_of_toNat_eq hop)

/-- Settles O4: an unassigned OPC is that of no opcode, and the other OPC values fall into four lists by the fields in use. -/
theorem reservedEncodingsAreRejected : Obligations.ReservedEncodingsAreRejected := by
  intro h d opc a b
  refine ⟨fun hopc => ?unassigned, fun hopc => ?usesNone, fun hopc => ?usesA, fun hopc => ?usesB, fun hopc => ?usesBoth⟩
  case unassigned =>
    refine decode_of_opcodeOf_none ((opcodeOf_eq_none_iff _).2 fun op hop => opcodeByte_not_mem_unassigned op ?_) d
    rwa [hop]
  case usesNone =>
    exact (decode_isOk_iff_of_mem (ua := false) (ub := false) (by decide) hopc d).trans (by simp [a, b, fieldA, fieldB])
  case usesA =>
    exact (decode_isOk_iff_of_mem (ua := true) (ub := false) (by decide) hopc d).trans (by simp [b, fieldB])
  case usesB =>
    exact (decode_isOk_iff_of_mem (ua := false) (ub := true) (by decide) hopc d).trans (by simp [a, fieldA])
  case usesBoth =>
    exact (decode_isOk_iff_of_mem (opcs := [0x23]) (ua := true) (ub := true) (by decide) (List.mem_singleton.2 hopc) d).2
      ⟨.inl rfl, .inl rfl⟩

/-- Settles O5: each pair of words is evaluated. -/
theorem specWordsDecode : Obligations.SpecWordsDecode := by
  unfold Obligations.SpecWordsDecode
  decide

/-! ### The step -/

namespace Machine

theorem step_of_command {s : State} {c : Command} {rest : List HostOp} (h : s.input = .command c :: rest) :
    step s = runCommand c { s with input := rest } := by
  simp only [step, takeInput, h]

theorem step_of_reset {s : State} {rest : List HostOp} (h : s.input = .reset :: rest) :
    step s = .next (resetEvent { s with input := rest }) := by
  simp only [step, takeInput, h]

theorem step_of_idle {s : State} (h : s.input = []) : step s = .next s := by
  simp only [step, takeInput, h]

/-- Settles O1. -/
theorem stepRunsTheDecodedCommand : Obligations.StepRunsTheDecodedCommand :=
  ⟨fun _ _ _ _ hs hd => (step_of_command hs).trans (runCommand_of_ok hd _), fun _ _ _ => step_of_command,
    fun s _ _ hd => runCommand_of_ok hd s, fun _ => step_of_idle⟩

end Machine
end Sys2Proof

/-! PROOF. The error and response effects (60_exceptions.md R241, R252) and the state after reset (70_reset_and_hazards.md R270):
its registers, and that it has the invariant. -/

namespace Sys2Proof.Machine

/-- The table of status codes is `errorCodeBits` (60_exceptions.md R241). -/
theorem errorCodeBits_of_mem {e : ErrorCode} {c : BitVec 4} (h : (e, c) ∈ [(ErrorCode.illegalCommand, 2#4), (.badOperand, 3#4),
    (.degenerateDistribution, 4#4), (.invalidSymbol, 5#4), (.streamUnderflow, 6#4), (.divMismatch, 7#4),
    (.tableInvalid, 8#4), (.stackOverflow, 9#4), (.stackUnderflow, 10#4), (.stateRange, 11#4)]) :
    c = errorCodeBits e := by
  cases e <;> simpa [errorCodeBits] using h

/-- Settles O8. -/
theorem errorEffectIsErrErrcodeResponse : Obligations.ErrorEffectIsErrErrcodeResponse := by
  refine fun s r => ⟨fun e c hc => ?codes, rfl, rfl, fun _ => rfl⟩
  case codes =>
    obtain rfl := errorCodeBits_of_mem hc
    exact ⟨rfl, rfl, rfl⟩

/-- Settles O15: ID is the word of its four bytes; every other clause reads a field of the state after reset. -/
theorem resetSetsEveryRegister : Obligations.ResetSetsEveryRegister := by
  refine ⟨fun p => ⟨rfl, ?id, fun reg v hv => ?registers⟩, rfl, fun p i => ⟨rfl, rfl, rfl⟩, fun s rest hs => step_of_reset hs⟩
  case id =>
    rw [← idWord_toNat, BitVec.ofNat_toNat]
    rfl
  case registers =>
    simp only [List.mem_cons, Prod.mk.injEq, List.not_mem_nil, or_false] at hv
    obtain ⟨rfl, rfl⟩ | ⟨rfl, rfl⟩ | ⟨rfl, rfl⟩ | ⟨rfl, rfl⟩ | ⟨rfl, rfl⟩ | ⟨rfl, rfl⟩ |
      ⟨rfl, rfl⟩ | ⟨rfl, rfl⟩ | ⟨rfl, rfl⟩ | ⟨rfl, rfl⟩ | ⟨rfl, rfl⟩ := hv
    · exact statusWord_eq _
    all_goals rfl

/-- The state after reset, with whatever draw of the memories and whatever pending input, has the invariant. -/
theorem State.resetWith_inv (p : Params) (resets : Nat) (input : List HostOp) :
    ({ State.resetWith p with resets := resets, input := input } : State).Inv where
  encState_lt := p.L_pos.trans p.L_lt_BL
  decState_lt := p.L_pos.trans p.L_lt_BL
  sp_le := Nat.zero_le _
  decRemain_lt := Nat.two_pow_pos 32
  divf_range := ⟨le_rfl, p.M_pos⟩
  divsh_eq := (divShift_one p).symm
  divmul_eq := (divMult_one p).symm
  errcode_eq := rfl
  wgt_wf := .nil
  wgt_index := nofun
  cum_wf := .nil
  cum_index := nofun
  stk_wf := .nil
  stk_index := nofun
  tv_valid := nofun
  eos_bonus := nofun

/-- Settles O57. -/
theorem invariantHoldsAfterReset : Obligations.InvariantHoldsAfterReset :=
  ⟨fun p => State.resetWith_inv p 0 [], State.resetWith_inv Params.default 0 []⟩

theorem resetEvent_inv (s : State) : (resetEvent s).Inv := State.resetWith_inv s.params _ _

end Sys2Proof.Machine

/-! PROOF. BUILD (41_frequency_model.md R104 to R111). Every pass moves one frequency of the support by one towards the correction,
so a completed refinement sums to M and has the support of the weights; from this follow when BUILD succeeds, that its table is
valid, and the greedy rules with costs as real numbers. -/

namespace Sys2Proof.Machine

/-! ### The rounded frequencies -/

/-- The weight of a symbol as a number. -/
def weightOf (s : State) (i : Nat) : Nat := (readWgt s i).toNat

/-- The frequency of a symbol after step 1 (41_frequency_model.md R105). -/
def roundedOf (s : State) (i : Nat) : Nat :=
  if weightOf s i = 0 then 0 else roundedFreq s.params.M (weightTotal s) (weightOf s i)

/-- `K`, the number of symbols of non-zero weight (41_frequency_model.md R102). -/
def supportSize (w : Nat → Nat) : Nat := ((Finset.range 256).filter fun i => w i ≠ 0).card

/-- The frequencies `c` are at least 1 exactly on the support of the weights `w`. -/
def Supports (w c : Nat → Nat) : Prop := ∀ i < 256, 1 ≤ c i ↔ w i ≠ 0

theorem workOf_roundedEntries (s : State) : WorkOf (weightOf s) (roundedOf s) (roundedEntries s) := rfl

theorem weightTotal_eq_sum (s : State) : weightTotal s = ∑ i ∈ Finset.range 256, weightOf s i := sum_map_range ..

theorem buildCorrection_eq (s : State) :
    buildCorrection s = (s.params.M : Int) - (∑ i ∈ Finset.range 256, roundedOf s i : Nat) := by
  rw [buildCorrection, correction, ← workOf_freq_sum (workOf_roundedEntries s), Nat.cast_list_sum, List.map_map]
  rfl

theorem weightOf_ne_zero_iff (s : State) (i : Nat) : weightOf s i ≠ 0 ↔ readWgt s i ≠ 0#32 :=
  not_congr (BitVec.toNat_inj (y := 0#32))

theorem supports_roundedOf (s : State) : Supports (weightOf s) (roundedOf s) := by
  intro i _
  by_cases hw : weightOf s i = 0
  · simp [roundedOf, hw]
  · simp [roundedOf, hw, one_le_roundedFreq]

theorem supportSize_eq_sum (w : Nat → Nat) : supportSize w = ∑ i ∈ Finset.range 256, if w i ≠ 0 then 1 else 0 :=
  Finset.card_filter ..

theorem supportSize_le (w : Nat → Nat) : supportSize w ≤ 256 :=
  (Finset.card_filter_le ..).trans_eq (Finset.card_range 256)

theorem exists_weight_of_supportSize {w : Nat → Nat} (h : 1 ≤ supportSize w) : ∃ i < 256, w i ≠ 0 := by
  obtain ⟨i, hi⟩ := Finset.card_pos.1 h
  obtain ⟨hi, hw⟩ := Finset.mem_filter.1 hi
  exact ⟨i, Finset.mem_range.1 hi, hw⟩

theorem weightTotal_pos {s : State} {i : Nat} (hi : i < 256) (hw : weightOf s i ≠ 0) : 0 < weightTotal s := by
  rw [weightTotal_eq_sum]
  exact Finset.sum_pos' (fun _ _ => Nat.zero_le _) ⟨i, Finset.mem_range.2 hi, Nat.pos_of_ne_zero hw⟩

theorem Supports.supportSize_le_sum {w c : Nat → Nat} (h : Supports w c) :
    supportSize w ≤ ∑ i ∈ Finset.range 256, c i := by
  rw [supportSize_eq_sum]
  refine Finset.sum_le_sum fun i hi => ?_
  split
  · next hw => exact (h i (Finset.mem_range.1 hi)).2 hw
  · exact Nat.zero_le _

theorem Supports.one_le_supportSize {w c : Nat → Nat} (h : Supports w c) (hsum : 0 < ∑ i ∈ Finset.range 256, c i) :
    1 ≤ supportSize w := by
  obtain ⟨i, hi, hc⟩ := Finset.exists_ne_zero_of_sum_ne_zero hsum.ne'
  exact Finset.card_pos.2 ⟨i, Finset.mem_filter.2 ⟨hi, (h i (Finset.mem_range.1 hi)).1 (Nat.one_le_iff_ne_zero.2 hc)⟩⟩

/-- The rounding of a symbol is off by at most one, and by less downwards (41_frequency_model.md R105). -/
theorem roundedOf_bounds {s : State} (hT : 0 < weightTotal s) (i : Nat) :
    weightOf s i * s.params.M + (if weightOf s i ≠ 0 then 1 else 0) ≤
      roundedOf s i * weightTotal s + (if weightOf s i ≠ 0 then 1 else 0) * weightTotal s ∧
    roundedOf s i * weightTotal s ≤
      weightOf s i * s.params.M + (if weightOf s i ≠ 0 then 1 else 0) * weightTotal s := by
  by_cases hw : weightOf s i = 0
  · simp [roundedOf, hw]
  · obtain ⟨hlow, hhigh⟩ := roundedFreq_bounds (M := s.params.M) (w := weightOf s i) hT
    simp only [roundedOf, ne_eq, hw, not_false_eq_true, if_true, if_false, one_mul]
    exact ⟨hlow, hhigh⟩

/-- The rounded frequencies sum to M up to the size of the support (41_frequency_model.md R106). -/
theorem sum_roundedOf_bounds {s : State} (hK : 1 ≤ supportSize (weightOf s)) :
    s.params.M < (∑ i ∈ Finset.range 256, roundedOf s i) + supportSize (weightOf s) ∧
    ∑ i ∈ Finset.range 256, roundedOf s i ≤ s.params.M + supportSize (weightOf s) := by
  obtain ⟨j, hj, hwj⟩ := exists_weight_of_supportSize hK
  have hT := weightTotal_pos hj hwj
  have hlow := Finset.sum_le_sum fun i (_ : i ∈ Finset.range 256) => (roundedOf_bounds hT i).1
  have hhigh := Finset.sum_le_sum fun i (_ : i ∈ Finset.range 256) => (roundedOf_bounds hT i).2
  simp only [Finset.sum_add_distrib, ← Finset.sum_mul, ← supportSize_eq_sum, ← weightTotal_eq_sum] at hlow hhigh
  constructor
  · refine Nat.lt_of_mul_lt_mul_right (a := weightTotal s) ?_
    linarith
  · refine Nat.le_of_mul_le_mul_right ?_ hT
    linarith

/-- The correction lies in `[-256, 256)` (41_frequency_model.md R106). -/
theorem buildCorrection_bounds {s : State} (hK : 1 ≤ supportSize (weightOf s)) :
    -256 ≤ buildCorrection s ∧ buildCorrection s < 256 := by
  obtain ⟨hlow, hhigh⟩ := sum_roundedOf_bounds hK
  have h256 := supportSize_le (weightOf s)
  rw [buildCorrection_eq]
  omega

/-! ### The passes -/

/-- The change of a frequency by one move, `δ` (41_frequency_model.md R107). -/
def moveBy (up : Bool) : Int := if up then 1 else -1

/-- A candidate of a pass over the frequencies `c` (41_frequency_model.md R108). -/
def IsCandidate (up : Bool) (w c : Nat → Nat) (q : Nat) : Prop := w q ≠ 0 ∧ (up = false → 2 ≤ c q)

/-- One pass takes the frequencies `c` to `c'` by moving symbol `p`, the least of the cheapest candidates
(41_frequency_model.md R108). -/
structure IsPass (up : Bool) (w c c' : Nat → Nat) (p : Nat) : Prop where
  lt : p < 256
  candidate : IsCandidate up w c p
  cheapest : ∀ q < 256, IsCandidate up w c q → costLt up ⟨q, w q, c q⟩ ⟨p, w p, c p⟩ = false
  least : ∀ q < p, IsCandidate up w c q → costLt up ⟨p, w p, c p⟩ ⟨q, w q, c q⟩ = true
  moved : ∀ i, c' i = if i = p then movedFreq up (c i) else c i

/-- BUILD's refinement is a sequence of as many passes as the correction has units. -/
theorem exists_passes {s : State} {es : List WorkEntry} (h : buildEntries s = some es) : ∃ cs : Nat → Nat → Nat,
    cs 0 = roundedOf s ∧ WorkOf (weightOf s) (cs (buildCorrection s).natAbs) es ∧
    ∀ k < (buildCorrection s).natAbs, ∃ p, IsPass (decide (0 < buildCorrection s)) (weightOf s) (cs k) (cs (k + 1)) p := by
  obtain ⟨cs, h0, hwork, hpass⟩ := refine_spec _ _ _ _ _ (workOf_roundedEntries s) h
  refine ⟨cs, h0, hwork, fun k hk => ?_⟩
  obtain ⟨p, hp, hw, hc, hcheap, hleast, hmoved⟩ := hpass k hk
  exact ⟨p, hp, ⟨hw, hc⟩, fun q hq hcand => hcheap q hq hcand.1 hcand.2, fun q hq hcand => hleast q hq hcand.1 hcand.2,
    hmoved⟩

theorem IsCandidate.one_le {up : Bool} {w c : Nat → Nat} {q : Nat} (h : IsCandidate up w c q) (hs : Supports w c)
    (hq : q < 256) : 1 ≤ c q := (hs q hq).2 h.1

section
variable {up : Bool} {w c c' : Nat → Nat} {p : Nat} (hp : IsPass up w c c' p) (hs : Supports w c)
include hp hs

theorem IsPass.cast_eq (i : Nat) : (c' i : Int) = c i + if i = p then moveBy up else 0 := by
  have hc := hp.candidate.one_le hs hp.lt
  rw [hp.moved]
  split
  · next hi =>
    subst hi
    cases up <;> simp [movedFreq, moveBy, Nat.cast_sub hc, sub_eq_add_neg]
  · simp

/-- A pass keeps the support: a frequency of 1 is no candidate to go down. -/
theorem IsPass.supports : Supports w c' := by
  intro i hi
  rw [hp.moved]
  split
  · next hip =>
    subst hip
    have hmoved : 1 ≤ movedFreq up (c i) := by
      cases up with
      | true => exact Nat.le_add_left 1 (c i)
      | false => exact Nat.le_sub_one_of_lt (hp.candidate.2 rfl)
    exact iff_of_true hmoved hp.candidate.1
  · exact hs i hi

theorem IsPass.sum_eq : (∑ i ∈ Finset.range 256, (c' i : Int)) = (∑ i ∈ Finset.range 256, (c i : Int)) + moveBy up := by
  rw [Finset.sum_congr rfl fun i _ => hp.cast_eq hs i, Finset.sum_add_distrib, Finset.sum_ite_eq',
    if_pos (Finset.mem_range.2 hp.lt)]

end

/-- After `k` passes the support is kept and the sum has moved by `k` units. -/
theorem supports_and_sum_of_passes {up : Bool} {w : Nat → Nat} {cs : Nat → Nat → Nat} {n : Nat} (hs : Supports w (cs 0))
    (hpass : ∀ k < n, ∃ p, IsPass up w (cs k) (cs (k + 1)) p) {k : Nat} (hk : k ≤ n) : Supports w (cs k) ∧
    (∑ i ∈ Finset.range 256, (cs k i : Int)) = (∑ i ∈ Finset.range 256, (cs 0 i : Int)) + k * moveBy up := by
  induction k with
  | zero => exact ⟨hs, by simp⟩
  | succ k ih =>
    obtain ⟨hsk, hsum⟩ := ih (Nat.le_of_succ_le hk)
    obtain ⟨p, hp⟩ := hpass k hk
    exact ⟨hp.supports hsk, by rw [hp.sum_eq hsk, hsum]; push_cast; ring⟩

theorem natAbs_mul_moveBy (d : Int) : (d.natAbs : Int) * moveBy (decide (0 < d)) = d := by
  by_cases hd : 0 < d
  · simp [moveBy, hd, abs_of_pos hd]
  · simp [moveBy, hd, abs_of_nonpos (not_lt.1 hd)]

/-- BUILD's final frequencies sum to M and have the support of the weights (41_frequency_model.md R111). -/
theorem buildEntries_spec {s : State} {es : List WorkEntry} (h : buildEntries s = some es) :
    ∃ c, WorkOf (weightOf s) c es ∧ Supports (weightOf s) c ∧ ∑ i ∈ Finset.range 256, c i = s.params.M := by
  obtain ⟨cs, h0, hwork, hpass⟩ := exists_passes h
  obtain ⟨hs, hsum⟩ := supports_and_sum_of_passes (h0 ▸ supports_roundedOf s) hpass le_rfl
  refine ⟨_, hwork, hs, ?_⟩
  have hcorr := buildCorrection_eq s
  rw [natAbs_mul_moveBy, h0, ← Nat.cast_sum, ← Nat.cast_sum] at hsum
  omega

/-! ### When BUILD succeeds, and its table -/

/-- BUILD succeeds exactly when the support is not empty and not larger than M: the final frequencies are at least 1 on it and
sum to M, and with that much room no pass lacks a candidate (41_frequency_model.md R110). -/
theorem exists_buildEntries_iff (s : State) : (∃ es, buildEntries s = some es) ↔
    1 ≤ supportSize (weightOf s) ∧ supportSize (weightOf s) ≤ s.params.M := by
  constructor
  · rintro ⟨es, h⟩
    obtain ⟨c, -, hs, hsum⟩ := buildEntries_spec h
    exact ⟨hs.one_le_supportSize (hsum ▸ s.params.M_pos), hsum ▸ hs.supportSize_le_sum⟩
  · rintro ⟨h1, hM⟩
    rw [buildEntries]
    by_cases hd : 0 < buildCorrection s
    · rw [decide_eq_true hd]
      exact refine_up_isSome (exists_weight_of_supportSize h1) _ _ _ (workOf_roundedEntries s)
    · rw [decide_eq_false hd]
      refine refine_down_isSome _ _ _ (workOf_roundedEntries s) (fun i _ hw => if_pos hw) ?_
      rw [← supportSize]
      rw [buildCorrection_eq] at hd ⊢
      omega

section
variable {s : State} {es : List WorkEntry} {w c : Nat → Nat} (hwork : WorkOf w c es)
include hwork

theorem freq_writeTable {i : Nat} (hi : i < 256) : freq (writeTable es s) i = c i := by
  rw [freq, readCum_writeTable_of_work hwork hi, readCum_writeTable_of_work hwork hi.le, Finset.sum_range_succ,
    Nat.add_sub_cancel_left]

theorem tableValid_writeTable (hsum : ∑ i ∈ Finset.range 256, c i = s.params.M) : tableValid (writeTable es s) = true := by
  refine (tableValid_iff _).2 ⟨?first, ?last, fun i hi => ?step⟩
  case first => simp [readCum_writeTable_of_work hwork (Nat.zero_le 256)]
  case last => rw [readCum_writeTable_of_work hwork le_rfl, hsum, writeTable_params]
  case step =>
    rw [readCum_writeTable_of_work hwork hi, readCum_writeTable_of_work hwork hi.le, Finset.sum_range_succ]
    exact Nat.le_add_right ..

end

theorem exec_build_of_some {s : State} {es : List WorkEntry} (h : buildEntries s = some es) :
    exec .build s = .next (respond .ok (sext64 (buildCorrection s)) (setTv true (writeTable es s))) := by
  simp only [exec, execBuild, h]

theorem exec_build_of_none {s : State} (h : buildEntries s = none) :
    exec .build s = .next (raise .degenerateDistribution s) := by
  simp only [exec, execBuild, h]

/-- The statement's K is the size of the support. -/
theorem card_readWgt_ne_zero (s : State) :
    ((Finset.range 256).filter fun i => readWgt s i ≠ 0#32).card = supportSize (weightOf s) := by
  simp only [supportSize, weightOf_ne_zero_iff]

/-- Settles O33. -/
theorem buildMakesAValidTableOrFails : Obligations.BuildMakesAValidTableOrFails := by
  refine ⟨fun d => decode_headerOf (op := .build) d (.inr rfl) (.inr rfl), fun s => ?_⟩
  intro K
  have hK : K = supportSize (weightOf s) := card_readWgt_ne_zero s
  rw [hK]
  refine ⟨fun hbad => ?fails, fun h1 hM => ?succeeds⟩
  case fails =>
    refine exec_build_of_none (Option.eq_none_iff_forall_ne_some.2 fun es h => ?_)
    obtain ⟨h1, hM⟩ := (exists_buildEntries_iff s).1 ⟨es, h⟩
    exact hbad.elim (Nat.one_le_iff_ne_zero.1 h1) hM.not_gt
  case succeeds =>
    obtain ⟨es, h⟩ := (exists_buildEntries_iff s).2 ⟨h1, hM⟩
    obtain ⟨c, hwork, hs, hsum⟩ := buildEntries_spec h
    obtain ⟨hlow, hhigh⟩ := buildCorrection_bounds h1
    refine ⟨_, buildCorrection s, exec_build_of_some h, hlow, hhigh, rfl, ?_, fun i hi => ?_⟩
    · exact tableValid_writeTable hwork hsum
    · rw [freq_respond, freq_setTv, freq_writeTable hwork hi, ← weightOf_ne_zero_iff]
      exact hs i hi

/-! ### The greedy rules -/

/-- The cost of a candidate as a real number (41_frequency_model.md R107). -/
noncomputable def realCost (T : Nat) (up : Bool) (w c : Nat → Nat) (q : Nat) : ℝ :=
  (w q / T : ℝ) * Real.logb 2 ((c q : ℝ) / ((c q : ℝ) + (moveBy up : ℝ)))

/-- Among candidates the model's comparison is that of the real costs. -/
theorem costLt_iff_realCost_lt {T : Nat} (hT : 0 < T) {up : Bool} {w c : Nat → Nat} (hs : Supports w c) {p q : Nat}
    (hp : p < 256) (hq : q < 256) (hcp : IsCandidate up w c p) (hcq : IsCandidate up w c q) :
    costLt up ⟨p, w p, c p⟩ ⟨q, w q, c q⟩ = true ↔ realCost T up w c p < realCost T up w c q := by
  have hfreq : if up then 1 ≤ c p ∧ 1 ≤ c q else 2 ≤ c p ∧ 2 ≤ c q := by
    cases up with
    | true => exact ⟨hcp.one_le hs hp, hcq.one_le hs hq⟩
    | false => exact ⟨hcp.2 rfl, hcq.2 rfl⟩
  have hδ : (moveBy up : ℝ) = if up then 1 else -1 := by cases up <;> simp [moveBy]
  rw [realCost, realCost, hδ]
  exact costComparisonIsExact up ⟨p, w p, c p⟩ ⟨q, w q, c q⟩ T hT (Nat.pos_of_ne_zero hcp.1) (Nat.pos_of_ne_zero hcq.1) hfreq

/-- Settles O34: the sequence is that of the passes, whose comparisons are those of the real costs. -/
theorem buildFollowsTheGreedyRules : Obligations.BuildFollowsTheGreedyRules := by
  rintro s t h ⟨r, hr⟩ M w T
  obtain ⟨-, rfl⟩ | ⟨es, hes, rfl⟩ := exec_build_cases h
  · simp at hr
  obtain ⟨cs, h0, hwork, hpass⟩ := exists_passes hes
  have hsup (k : Nat) (hk : k ≤ (buildCorrection s).natAbs) : Supports w (cs k) :=
    (supports_and_sum_of_passes (h0 ▸ supports_roundedOf s) hpass hk).1
  refine ⟨cs, ?_⟩
  intro d0 δ cost cand
  have hd0 : d0 = buildCorrection s := by
    rw [buildCorrection_eq, ← h0]
    push_cast
    rfl
  have hδ : δ = moveBy (decide (0 < buildCorrection s)) := by
    simp only [δ, moveBy, decide_eq_true_eq, hd0]
  have hcand (k q : Nat) : cand k q ↔ q < 256 ∧ IsCandidate (decide (0 < buildCorrection s)) w (cs k) q := by
    simp only [cand, hδ, IsCandidate, moveBy]
    by_cases hd : 0 < buildCorrection s <;> simp [hd]
  have hT : T = weightTotal s := (weightTotal_eq_sum s).symm
  have hcost (k q : Nat) : cost k q = realCost T (decide (0 < buildCorrection s)) w (cs k) q := by
    simp only [cost, hδ, realCost]
  refine ⟨fun i _ => ?rounded, fun k hk => ?pass, fun i hi => ?table, rfl, ?response⟩
  case rounded =>
    rw [h0, roundedOf, roundedFreq, weightTotal_eq_sum]
    rfl
  case pass =>
    rw [hd0] at hk
    obtain ⟨p, hp⟩ := hpass k hk
    have hs := hsup k hk.le
    have hTpos : 0 < T := hT ▸ weightTotal_pos hp.lt hp.candidate.1
    refine ⟨p, (hcand k p).2 ⟨hp.lt, hp.candidate⟩, fun q hq => ?_, fun q hqp hq => ?_, fun i _ => ?_⟩
    · obtain ⟨hq, hcq⟩ := (hcand k q).1 hq
      rw [hcost, hcost, ← not_lt, ← costLt_iff_realCost_lt hTpos hs hq hp.lt hcq hp.candidate]
      exact Bool.eq_false_iff.1 (hp.cheapest q hq hcq)
    · obtain ⟨hq, hcq⟩ := (hcand k q).1 hq
      rw [hcost, hcost, ← costLt_iff_realCost_lt hTpos hs hp.lt hq hp.candidate hcq]
      exact hp.least q hqp hcq
    · rw [hδ]
      exact hp.cast_eq hs i
  case table =>
    rw [hd0]
    exact readCum_writeTable_of_work hwork hi
  case response => rw [hd0]; rfl

end Sys2Proof.Machine

/-! PROOF. The outcomes of all commands in one classification: a failure, a rejected table, the end of the stream, or the writes of
a successful command. From it, over all commands: the statuses (60_exceptions.md R265), the writers of each register and memory
(10_state.md R22 to R34), the life of TV (41_frequency_model.md R117), and that the invariant is kept. -/

namespace Sys2Proof.Machine

/-! ### The classification -/

/-- The statuses besides OK that a command can answer (60_exceptions.md R265). -/
def otherStatuses : Instr → List Status
  | .nop | .srst | .rdwgt _ => []
  | .rdreg _ | .wrreg _ _ | .wrwgt _ _ | .wrcum _ _ | .rdcum _ | .rdstk _ | .wrstk _ _ | .encinit _ | .decinit _
  | .divp _ => [.error .badOperand]
  | .build => [.error .degenerateDistribution]
  | .chktab => [.error .tableInvalid]
  | .pushb _ | .encflush => [.error .stackOverflow]
  | .popb => [.error .stackUnderflow]
  | .enc _ => [.error .tableInvalid, .error .invalidSymbol, .error .stateRange, .error .stackOverflow,
      .error .divMismatch]
  | .dec => [.error .tableInvalid, .endOfStream, .error .streamUnderflow]
  | .divq _ => [.error .badOperand, .error .divMismatch]

/-- The commands that can succeed without a write: the reads, NOP, DIVQ, and WRREG of STATUS (45_host_access.md R213). -/
def mayOnlyRead : Instr → Bool
  | .nop | .rdreg _ | .rdwgt _ | .rdcum _ | .rdstk _ | .divq _ | .wrreg _ _ => true
  | .srst | .wrwgt _ _ | .wrcum _ _ | .build | .chktab | .pushb _ | .popb | .wrstk _ _ | .encinit _ | .enc _ | .encflush
  | .decinit _ | .dec | .divp _ => false

/-- The state in which DEC has decoded `sym`, but for the response (44_decoder.md R185, R186). -/
def decoded (sym : Nat) (s : State) : State :=
  setEos false
    { s with
      decState := s.decState / s.params.M * freq s sym + slotOf s - readCum s sym
      decSym := BitVec.ofNat 8 sym
      decRemain := s.decRemain - 1 }

theorem yieldSymbol_eq (sym : Nat) (s : State) : yieldSymbol sym s = respond .ok (zext64 sym) (decoded sym s) := rfl

/-- The writes of a command that succeeds with OK, with what it has checked before them. -/
inductive Performs (s : State) : Instr → State → Prop where
  | reads {i : Instr} (hi : mayOnlyRead i = true) : Performs s i s
  | srst : Performs s .srst (resetRegisters s)
  | clearsError (d : Word) : Performs s (.wrreg 1#8 d) (clearError s)
  | wrregEncState {d : Word} (hd : d.toNat < s.params.BL) :
      Performs s (.wrreg 3#8 d) (clearLow { s with encState := d.toNat })
  | wrregDecState {d : Word} (hd : d.toNat < s.params.BL) :
      Performs s (.wrreg 4#8 d) (setEos false { s with decState := d.toNat })
  | wrregSp {d : Word} (hd : d.toNat ≤ s.params.stackDepth) : Performs s (.wrreg 5#8 d) { s with sp := d.toNat }
  | wrregDecRemain {d : Word} (hd : d.toNat < 2 ^ 32) : Performs s (.wrreg 8#8 d) { s with decRemain := d.toNat }
  | wrwgt (sym : Byte) (d : Word) : Performs s (.wrwgt sym d) (writeWgt sym.toNat (d.setWidth 32) s)
  | wrcum {idx : BitVec 16} {d : Word} (hidx : idx.toNat ≤ 256) (hd : d.toNat < cumBound s.params) :
      Performs s (.wrcum idx d) (setTv false (writeCum idx.toNat d.toNat s))
  | build {es : List WorkEntry} (hes : buildEntries s = some es) : Performs s .build (setTv true (writeTable es s))
  | chktab (hv : tableValid s = true) : Performs s .chktab (setTv true s)
  | pushb {b : Byte} (hroom : s.sp < s.params.stackDepth) : Performs s (.pushb b) (push b s)
  | popb : Performs s .popb (dropTop s)
  | wrstk {b : Byte} {idx : BitVec 16} (hidx : idx.toNat < s.params.stackDepth) :
      Performs s (.wrstk b idx) (writeStk idx.toNat b s)
  | encinit {d : Word} (hd : d.toNat < s.params.half) :
      Performs s (.encinit d) (clearLow { s with encState := s.params.half + d.toNat, sp := 0 })
  | enc {sym : Byte} {n x : Nat} (htv : s.tv = true) (hf : freq s sym.toNat ≠ 0)
      (hlt : s.encState / 256 ^ n < xMax s.params (freq s sym.toNat)) (hroom : s.sp + n ≤ s.params.stackDepth)
      (hx : rescale s sym.toNat (s.encState / 256 ^ n) = some x) :
      Performs s (.enc sym) (noteLow { pushAll (lowBytes n s.encState) s with encState := x })
  | encflush (hroom : s.sp + byteLen s.encState ≤ s.params.stackDepth) :
      Performs s .encflush { pushAll (lowBytes (byteLen s.encState) s.encState) s with encState := 0 }
  | decinit {d : Word} (hd : d.toNat < s.params.BL) :
      Performs s (.decinit d) (setEos false { s with decState := d.toNat })
  | dec {sym : Nat} (htv : s.tv = true) (hsym : sym < 256) (hlow : readCum s sym ≤ slotOf (refill s))
      (hhigh : slotOf (refill s) < readCum s (sym + 1)) : Performs s .dec (decoded sym (refill s))
  | divp {d : Word} (h1 : 1 ≤ d.toNat) (hM : d.toNat ≤ s.params.M) : Performs s (.divp d) (latchDivisor d.toNat s)

/-- How a command ends: the error effect alone; CHKTAB's failure, which writes TV first (41_frequency_model.md R112); the end of
the stream (44_decoder.md R187); or OK. -/
inductive ExecOutcome (s : State) (i : Instr) : State → Prop where
  | failed {e : ErrorCode} (hi : i ≠ .chktab) (he : .error e ∈ otherStatuses i) : ExecOutcome s i (raise e s)
  | tableRejected (hi : i = .chktab) (hv : tableValid s = false) : ExecOutcome s i (raise .tableInvalid (setTv false s))
  | ended (hi : i = .dec) (hlt : (refill s).decState < s.params.L) : ExecOutcome s i (endStream (refill s))
  | performed {u : State} (r : Word) (h : Performs s i u) : ExecOutcome s i (respond .ok r u)

/-- Every command ends in one of the four ways. -/
theorem execOutcome {i : Instr} {s t : State} (h : exec i s = .next t) : ExecOutcome s i t := by
  cases i with
  | nop =>
    obtain rfl := Host.Outcome.next.inj h
    exact .performed _ (.reads rfl)
  | srst =>
    obtain rfl := Host.Outcome.next.inj h
    exact .performed _ .srst
  | rdreg r =>
    obtain ⟨-, rfl⟩ | ⟨reg, -, rfl⟩ := exec_rdreg_cases h
    · exact .failed nofun (by simp [otherStatuses])
    · exact .performed _ (.reads rfl)
  | wrreg r d =>
    obtain rfl | ⟨rfl, -, rfl⟩ | ⟨rfl, -, rfl⟩ | ⟨rfl, hd, rfl⟩ | ⟨rfl, hd, rfl⟩ | ⟨rfl, hd, rfl⟩ | ⟨rfl, hd, rfl⟩ :=
      exec_wrreg_cases h
    · exact .failed nofun (by simp [otherStatuses])
    · exact .performed _ (.clearsError d)
    · exact .performed _ (.reads rfl)
    · exact .performed _ (.wrregEncState hd)
    · exact .performed _ (.wrregDecState hd)
    · exact .performed _ (.wrregSp hd)
    · exact .performed _ (.wrregDecRemain hd)
  | wrwgt sym d =>
    obtain ⟨-, rfl⟩ | ⟨-, rfl⟩ := exec_wrwgt_cases h
    · exact .failed nofun (by simp [otherStatuses])
    · exact .performed _ (.wrwgt sym d)
  | rdwgt sym =>
    obtain rfl := Host.Outcome.next.inj h
    exact .performed _ (.reads rfl)
  | wrcum idx d =>
    obtain ⟨-, rfl⟩ | ⟨hidx, hd, rfl⟩ := exec_wrcum_cases h
    · exact .failed nofun (by simp [otherStatuses])
    · exact .performed _ (.wrcum hidx hd)
  | rdcum idx =>
    obtain ⟨-, rfl⟩ | ⟨-, rfl⟩ := exec_rdcum_cases h
    · exact .failed nofun (by simp [otherStatuses])
    · exact .performed _ (.reads rfl)
  | build =>
    obtain ⟨-, rfl⟩ | ⟨es, hes, rfl⟩ := exec_build_cases h
    · exact .failed nofun (by simp [otherStatuses])
    · exact .performed _ (.build hes)
  | chktab =>
    obtain ⟨hv, rfl⟩ | ⟨hv, rfl⟩ := exec_chktab_cases h
    · exact .tableRejected rfl hv
    · exact .performed _ (.chktab hv)
  | pushb b =>
    obtain ⟨-, rfl⟩ | ⟨hroom, rfl⟩ := exec_pushb_cases h
    · exact .failed nofun (by simp [otherStatuses])
    · exact .performed _ (.pushb hroom)
  | popb =>
    obtain ⟨-, rfl⟩ | ⟨-, rfl⟩ := exec_popb_cases h
    · exact .failed nofun (by simp [otherStatuses])
    · exact .performed _ .popb
  | rdstk idx =>
    obtain ⟨-, rfl⟩ | ⟨-, rfl⟩ := exec_rdstk_cases h
    · exact .failed nofun (by simp [otherStatuses])
    · exact .performed _ (.reads rfl)
  | wrstk b idx =>
    obtain ⟨-, rfl⟩ | ⟨hidx, rfl⟩ := exec_wrstk_cases h
    · exact .failed nofun (by simp [otherStatuses])
    · exact .performed _ (.wrstk hidx)
  | encinit d =>
    obtain ⟨-, rfl⟩ | ⟨hd, rfl⟩ := exec_encinit_cases h
    · exact .failed nofun (by simp [otherStatuses])
    · exact .performed _ (.encinit hd)
  | enc sym =>
    obtain ⟨-, rfl⟩ | ⟨-, -, rfl⟩ | ⟨-, -, -, rfl⟩ | ⟨htv, hf, -, n, -, hlt, -, hend⟩ := exec_enc_cases h
    · exact .failed nofun (by simp [otherStatuses])
    · exact .failed nofun (by simp [otherStatuses])
    · exact .failed nofun (by simp [otherStatuses])
    · obtain ⟨-, rfl⟩ | ⟨-, -, rfl⟩ | ⟨hroom, x, hx, rfl⟩ := hend
      · exact .failed nofun (by simp [otherStatuses])
      · exact .failed nofun (by simp [otherStatuses])
      · exact .performed _ (.enc htv hf hlt hroom hx)
  | encflush =>
    obtain ⟨-, rfl⟩ | ⟨hroom, rfl⟩ := exec_encflush_cases h
    · exact .failed nofun (by simp [otherStatuses])
    · exact .performed _ (.encflush hroom)
  | decinit d =>
    obtain ⟨-, rfl⟩ | ⟨hd, rfl⟩ := exec_decinit_cases h
    · exact .failed nofun (by simp [otherStatuses])
    · exact .performed _ (.decinit hd)
  | dec =>
    obtain ⟨-, rfl⟩ | ⟨-, hlt, rfl⟩ | ⟨htv, -, sym, hsym, hlow, hhigh, rfl⟩ := exec_dec_cases h
    · exact .failed nofun (by simp [otherStatuses])
    · exact .ended rfl hlt
    · exact .performed _ (.dec htv hsym hlow hhigh)
  | divp d =>
    obtain ⟨-, rfl⟩ | ⟨h1, hM, rfl⟩ := exec_divp_cases h
    · exact .failed nofun (by simp [otherStatuses])
    · exact .performed _ (.divp h1 hM)
  | divq d =>
    obtain ⟨-, rfl⟩ | ⟨-, -, rfl⟩ | ⟨-, -, rfl⟩ := exec_divq_cases h
    · exact .failed nofun (by simp [otherStatuses])
    · exact .failed nofun (by simp [otherStatuses])
    · exact .performed _ (.reads rfl)

/-! ### Who answers what, and who writes what -/

@[simp] theorem decoded_params (sym : Nat) (s : State) : (decoded sym s).params = s.params := rfl
@[simp] theorem decoded_resets (sym : Nat) (s : State) : (decoded sym s).resets = s.resets := rfl
@[simp] theorem decoded_tv (sym : Nat) (s : State) : (decoded sym s).tv = s.tv := rfl
@[simp] theorem decoded_low (sym : Nat) (s : State) : (decoded sym s).low = s.low := rfl
@[simp] theorem decoded_encState (sym : Nat) (s : State) : (decoded sym s).encState = s.encState := rfl
@[simp] theorem decoded_divf (sym : Nat) (s : State) : (decoded sym s).divf = s.divf := rfl
@[simp] theorem decoded_divsh (sym : Nat) (s : State) : (decoded sym s).divsh = s.divsh := rfl
@[simp] theorem decoded_divmul (sym : Nat) (s : State) : (decoded sym s).divmul = s.divmul := rfl
@[simp] theorem decoded_wgt (sym : Nat) (s : State) : (decoded sym s).wgt = s.wgt := rfl
@[simp] theorem decoded_cum (sym : Nat) (s : State) : (decoded sym s).cum = s.cum := rfl
@[simp] theorem decoded_stk (sym : Nat) (s : State) : (decoded sym s).stk = s.stk := rfl
@[simp] theorem decoded_input (sym : Nat) (s : State) : (decoded sym s).input = s.input := rfl
@[simp] theorem decoded_responses (sym : Nat) (s : State) : (decoded sym s).responses = s.responses := rfl

theorem Performs.responses_eq {i : Instr} {s u : State} (h : Performs s i u) : u.responses = s.responses := by
  cases h <;> simp

/-- The end of the stream is END or STREAM_UNDERFLOW, with the bonus as the response (44_decoder.md R187). -/
theorem endStream_responses (s : State) : ∃ st, (endStream s).responses = s.responses ++ [⟨st, bonusOf s⟩] ∧
    (st = .endOfStream ∨ st = .error .streamUnderflow) := by
  rw [endStream_eq]
  split
  · exact ⟨_, rfl, .inl rfl⟩
  · exact ⟨_, rfl, .inr rfl⟩

theorem status_mem_of_exec {i : Instr} {s t : State} {st : Status} {r : Word} (h : exec i s = .next t)
    (hr : t.responses = s.responses ++ [⟨st, r⟩]) : st = .ok ∨ st ∈ otherStatuses i := by
  cases execOutcome h with
  | failed _ he =>
    obtain ⟨rfl, -⟩ := response_inj hr
    exact .inr he
  | tableRejected hi =>
    obtain ⟨rfl, -⟩ := response_inj hr
    exact .inr (hi ▸ List.mem_singleton_self _)
  | ended hi =>
    obtain ⟨st', hst', hcases⟩ := endStream_responses (refill s)
    obtain ⟨rfl, -⟩ := response_inj (hst'.symm.trans hr)
    subst hi
    exact .inr (by simpa [otherStatuses] using .inr hcases)
  | performed r' hp =>
    rw [respond_responses, hp.responses_eq] at hr
    exact .inl (response_inj hr).1.symm

/-- Settles O11: the statement's table is `otherStatuses`. -/
theorem commandStatusesAreThoseListed : Obligations.CommandStatusesAreThoseListed := by
  intro i s t st r h hr
  exact status_mem_of_exec h hr

/-- Settles O55: a failure writes ERR and ERRCODE alone, and each successful command is listed for the registers it writes. -/
theorem onlyTheListedCommandsWrite : Obligations.OnlyTheListedCommandsWrite := by
  intro i s t h
  cases execOutcome h with
  | failed => simp
  | tableRejected hi => simp [hi]
  | ended hi =>
    rw [endStream_eq]
    split <;> simp [hi]
  | performed r hp => cases hp <;> simp

end Sys2Proof.Machine

/-! PROOF. The invariant: the writes of every successful command keep it, and so does the end of the stream; hence every step does.
Under it DEC finds its symbol, so no command stops the block (70_reset_and_hazards.md R284), the registers fit their widths
(10_state.md R20), and neither check of a quotient fails (60_exceptions.md R250). -/

namespace Sys2Proof.Machine

/-! ### The bounds the writes need -/

theorem xMax_eq (p : Params) (count : Nat) : xMax p count = 2 ^ (8 + p.lBits - p.mBits) * count := by
  rw [xMax, Params.kLM, show 8 + p.lBits - p.mBits = 8 + (p.lBits - p.mBits) from Nat.add_sub_assoc p.mBits_le_lBits 8,
    pow_add]
  norm_num

/-- A renormalized state rescales to a state below `B * L` (43_encoder.md R156). -/
theorem rescaled_lt_BL {s : State} (hv : tableValid s = true) {sym : Nat} (hsym : sym < 256) (hf : freq s sym ≠ 0) {x : Nat}
    (hx : x < xMax s.params (freq s sym)) : rescaled s sym x < s.params.BL := by
  have hBL : s.params.BL = 256 * s.params.kLM * s.params.M := by rw [mul_assoc, s.params.kLM_mul_M, s.params.BL_eq]
  rw [hBL, ← not_le, mul_M_le_rescaled_iff hv hsym hf, not_le]
  exact hx

/-- The decoded state is at most the state it is decoded from: the frequency is at most M, the offset at most the slot
(44_decoder.md R185). -/
theorem decoded_decState_le {s : State} (hv : tableValid s = true) {sym : Nat} (hsym : sym < 256) :
    (decoded sym s).decState ≤ s.decState :=
  calc s.decState / s.params.M * freq s sym + slotOf s - readCum s sym
    _ ≤ s.decState / s.params.M * freq s sym + slotOf s := Nat.sub_le ..
    _ ≤ s.decState / s.params.M * s.params.M + s.decState % s.params.M :=
      Nat.add_le_add_right (Nat.mul_le_mul_left _ (freq_le_M hv hsym)) _
    _ = s.decState := Nat.div_add_mod' ..

/-- No entry of `prefixSums` exceeds the sum (41_frequency_model.md R109). -/
theorem le_of_mem_prefixSums {cs : List Nat} {v : Nat} (h : v ∈ prefixSums 0 cs) : v ≤ cs.sum := by
  obtain ⟨i, hi⟩ := List.mem_iff_getElem?.1 h
  have hlen : i ≤ cs.length := by
    have := (List.getElem?_eq_some_iff.1 hi).1
    rw [prefixSums_length] at this
    omega
  rw [getElem?_prefixSums 0 cs hlen, Option.some.injEq, Nat.zero_add] at hi
  rw [← hi, ← List.sum_take_add_sum_drop cs i]
  exact Nat.le_add_right ..

theorem M_lt_cumBound (p : Params) : p.M < cumBound p := Nat.pow_lt_pow_right one_lt_two (Nat.lt_succ_self _)

/-! ### The invariant is kept -/

/-- BUILD's table is listed in canonical form, in range and valid. -/
theorem State.Inv.build {s : State} (h : s.Inv) {es : List WorkEntry} (hes : buildEntries s = some es) :
    (setTv true (writeTable es s)).Inv := by
  obtain ⟨c, hwork, -, hsum⟩ := buildEntries_spec hes
  have hlen : (es.map (·.freq)).length = 256 := by
    rw [WorkOf] at hwork
    simp [hwork]
  refine { h with cum_wf := Memory.wf_ofValues 0 _, cum_index := fun e he => ?_, tv_valid := fun _ => ?_ }
  · obtain ⟨-, hidx, hval⟩ := Memory.mem_ofValues (k := 0) he
    have hle := le_of_mem_prefixSums hval
    rw [workOf_freq_sum hwork, hsum] at hle
    rw [prefixSums_length, hlen] at hidx
    exact ⟨by omega, hle.trans_lt (M_lt_cumBound s.params)⟩
  · exact tableValid_writeTable hwork hsum

/-- An encoded symbol's state and bytes are in range. -/
theorem State.Inv.enc {s : State} (h : s.Inv) {sym : Byte} {n x : Nat} (htv : s.tv = true) (hf : freq s sym.toNat ≠ 0)
    (hlt : s.encState / 256 ^ n < xMax s.params (freq s sym.toNat)) (hroom : s.sp + n ≤ s.params.stackDepth)
    (hx : rescale s sym.toNat (s.encState / 256 ^ n) = some x) :
    (Machine.noteLow { Machine.pushAll (lowBytes n s.encState) s with encState := x }).Inv := by
  rw [rescale_eq_some hf ((Nat.div_le_self ..).trans_lt h.encState_lt), Option.some.injEq] at hx
  exact (h.pushAll _ _ (hx ▸ rescaled_lt_BL (h.tv_valid htv) sym.isLt hf hlt) (by simpa using hroom)).noteLow

theorem State.Inv.decoded {s : State} (h : s.Inv) {sym : Nat} (htv : s.tv = true) (hsym : sym < 256) :
    (decoded sym (refill s)).Inv :=
  { h with
    decState_lt := (decoded_decState_le (s := refill s) (h.tv_valid htv) hsym).trans_lt (refill_decState_lt h)
    sp_le := (refillFrom_spec ..).1.trans h.sp_le
    decRemain_lt := (Nat.sub_le ..).trans_lt h.decRemain_lt
    eos_bonus := nofun }

theorem State.Inv.endStream {s : State} (h : s.Inv) (hlt : (refill s).decState < s.params.L) :
    (endStream (refill s)).Inv := by
  have hinv : (setEos true { refill s with bonus := bonusOf (refill s) }).Inv :=
    { h with
      decState_lt := refill_decState_lt h
      sp_le := (refillFrom_spec ..).1.trans h.sp_le
      eos_bonus := fun _ => ⟨hlt, rfl⟩ }
  rw [Machine.endStream]
  split
  · exact hinv.respond _ _
  · exact { hinv with errcode_eq := ⟨.streamUnderflow, rfl⟩ }

/-- The writes of a successful command keep the invariant. -/
theorem Performs.inv {i : Instr} {s u : State} (h : Performs s i u) (hinv : s.Inv) : u.Inv := by
  cases h with
  | reads => exact hinv
  | srst =>
    exact { hinv with
      encState_lt := s.params.L_pos.trans s.params.L_lt_BL
      decState_lt := s.params.L_pos.trans s.params.L_lt_BL
      sp_le := Nat.zero_le _
      decRemain_lt := Nat.two_pow_pos 32
      divf_range := ⟨le_rfl, s.params.M_pos⟩
      divsh_eq := (divShift_one s.params).symm
      divmul_eq := (divMult_one s.params).symm
      errcode_eq := rfl
      tv_valid := nofun
      eos_bonus := nofun }
  | clearsError => exact { hinv with errcode_eq := rfl }
  | wrregEncState hd => exact { hinv with encState_lt := hd }
  | wrregDecState hd => exact { hinv with decState_lt := hd, eos_bonus := nofun }
  | wrregSp hd => exact { hinv with sp_le := hd }
  | wrregDecRemain hd => exact { hinv with decRemain_lt := hd }
  | wrwgt sym d =>
    exact { hinv with
      wgt_wf := Memory.wf_write hinv.wgt_wf _ _
      wgt_index := fun e he => (Memory.mem_write he).elim (fun heq => heq ▸ sym.isLt) (hinv.wgt_index e) }
  | wrcum hidx hd =>
    exact { hinv with
      cum_wf := Memory.wf_write hinv.cum_wf _ _
      cum_index := fun e he => (Memory.mem_write he).elim (fun heq => heq ▸ ⟨hidx, hd⟩) (hinv.cum_index e)
      tv_valid := nofun }
  | build hes => exact hinv.build hes
  | chktab hv => exact { hinv with tv_valid := fun _ => hv }
  | pushb hroom =>
    exact { hinv with
      sp_le := hroom
      stk_wf := Memory.wf_write hinv.stk_wf _ _
      stk_index := fun e he => (Memory.mem_write he).elim (fun heq => heq ▸ hroom) (hinv.stk_index e) }
  | popb => exact { hinv with sp_le := (Nat.sub_le ..).trans hinv.sp_le }
  | wrstk hidx =>
    exact { hinv with
      stk_wf := Memory.wf_write hinv.stk_wf _ _
      stk_index := fun e he => (Memory.mem_write he).elim (fun heq => heq ▸ hidx) (hinv.stk_index e) }
  | encinit hd =>
    have hseed : s.params.half + _ < s.params.BL :=
      (Nat.add_lt_add_left hd _).trans (by rw [← two_mul, s.params.two_mul_half]; exact s.params.L_lt_BL)
    exact { hinv with encState_lt := hseed, sp_le := Nat.zero_le _ }
  | enc htv hf hlt hroom hx => exact hinv.enc htv hf hlt hroom hx
  | encflush hroom => exact hinv.pushAll _ 0 (s.params.L_pos.trans s.params.L_lt_BL) (by simpa using hroom)
  | decinit hd => exact { hinv with decState_lt := hd, eos_bonus := nofun }
  | dec htv hsym => exact hinv.decoded htv hsym
  | divp h1 hM => exact { hinv with divf_range := ⟨h1, hM⟩, divsh_eq := rfl, divmul_eq := rfl }

theorem exec_keeps_inv {i : Instr} {s t : State} (hinv : s.Inv) (h : exec i s = .next t) : t.Inv := by
  cases execOutcome h with
  | failed => exact hinv.raise _
  | tableRejected _ hv =>
    rw [hinv.setTv_false_of_invalid hv]
    exact hinv.raise _
  | ended _ hlt => exact hinv.endStream hlt
  | performed r hp => exact (hp.inv hinv).respond _ _

theorem runCommand_keeps_inv {c : Command} {s t : State} (hinv : s.Inv) (h : runCommand c s = .next t) : t.Inv := by
  obtain ⟨i, hc⟩ | ⟨e, hc⟩ := decode_ok_or_error c.header c.payload
  · exact exec_keeps_inv hinv ((runCommand_of_ok hc s).symm.trans h)
  · obtain rfl := Host.Outcome.next.inj ((runCommand_of_error hc s).symm.trans h)
    exact hinv.raise _

/-- Settles O58: an idle step changes nothing, a reset gives a state of the invariant whatever it meets, and a command keeps it. -/
theorem stepKeepsTheInvariant : Obligations.StepKeepsTheInvariant := by
  intro s t hinv h
  cases hin : s.input with
  | nil =>
    obtain rfl := Host.Outcome.next.inj ((step_of_idle hin).symm.trans h)
    exact hinv
  | cons op rest =>
    cases op with
    | reset =>
      obtain rfl := Host.Outcome.next.inj ((step_of_reset hin).symm.trans h)
      exact resetEvent_inv _
    | command c => exact runCommand_keeps_inv (hinv.withInput rest) ((step_of_command hin).symm.trans h)

/-! ### The block goes on -/

theorem exists_symbolAt {s : State} (hv : tableValid s = true) {v : Nat} (hvM : v < s.params.M) :
    ∃ sym, symbolAt s v = some sym := by
  obtain ⟨sym, ⟨hsym, hlow, hhigh, -⟩, -⟩ := slotHasOneSymbol s v hv hvM
  rw [← Option.isSome_iff_exists, symbolAt, List.find?_isSome]
  exact ⟨sym, List.mem_range.2 hsym, by simp [hlow, hhigh]⟩

theorem execDec_continues {s : State} (hv : s.tv = true → tableValid s = true) : Continues (exec .dec s) := by
  simp only [exec, execDec, decodeSymbol]
  split
  · exact ⟨_, rfl⟩
  · next htv =>
    have hv : tableValid (refill s) = true := hv (by simpa using htv)
    split
    · exact ⟨_, rfl⟩
    · obtain ⟨sym, hsym⟩ := exists_symbolAt hv (v := slotOf (refill s)) (Nat.mod_lt _ s.params.M_pos)
      rw [hsym]
      exact ⟨_, rfl⟩

/-- DEC is the only command that can stop, and a valid table rules that out. -/
theorem State.Inv.exec_continues {s : State} (h : s.Inv) (i : Instr) : Continues (exec i s) := by
  cases i with
  | dec => exact execDec_continues h.tv_valid
  | _ => exact ⟨_, rfl⟩

theorem State.Inv.runCommand_continues {s : State} (h : s.Inv) (c : Command) : Continues (runCommand c s) := by
  obtain ⟨i, hc⟩ | ⟨e, hc⟩ := decode_ok_or_error c.header c.payload
  · rw [runCommand_of_ok hc]
    exact h.exec_continues i
  · exact ⟨_, runCommand_of_error hc s⟩

/-- Settles O59. -/
theorem blockNeverHalts : Obligations.BlockNeverHalts := by
  refine fun s hinv => ⟨?step, hinv.exec_continues⟩
  cases hin : s.input with
  | nil => exact ⟨s, step_of_idle hin⟩
  | cons op rest =>
    cases op with
    | reset => exact ⟨_, step_of_reset hin⟩
    | command c =>
      rw [step_of_command hin]
      exact (hinv.withInput rest).runCommand_continues c

/-- Settles O9: a command goes on, and each of its effects appends one response. -/
theorem everyCommandGetsOneResponse : Obligations.EveryCommandGetsOneResponse := by
  intro s c hinv
  obtain ⟨t, ht⟩ := hinv.runCommand_continues c
  cases commandEffect_of_runCommand ht with
  | failed => exact ⟨_, _, _, ht, rfl, fun _ _ _ => rfl⟩
  | tableRejected => exact ⟨_, _, _, ht, rfl, fun _ _ _ => rfl⟩
  | underflow => exact ⟨_, _, _, ht, rfl, fun e he hne => absurd (Status.error.inj he).symm hne⟩
  | succeeded st r hst hkept =>
    exact ⟨_, st, r, ht, by rw [respond_responses, hkept], fun e he => absurd he (hst e)⟩
  | cleared _ hkept => exact ⟨_, .ok, _, ht, by rw [respond_responses, hkept], nofun⟩

/-! ### Widths, quotients and TV -/

theorem State.Inv.readCum_lt {s : State} (h : s.Inv) (i : Nat) : readCum s i < cumBound s.params := by
  rw [readCum]
  cases hget : s.cum.get? i with
  | none => exact Nat.mod_lt _ (Nat.two_pow_pos _)
  | some v => exact (h.cum_index _ (Memory.mem_of_get? hget)).2

/-- Settles O56: the divider's registers have the widths of the triple of DIVF, and 118 is `N + M_BITS` for the largest parameters. -/
theorem registersFitTheirWidths : Obligations.RegistersFitTheirWidths := by
  intro s h
  obtain ⟨hf, hM⟩ := h.divf_range
  have hsh := divShift_le hf hM
  have h118 : s.params.N + s.params.mBits ≤ 118 := by
    have hm := s.params.mBits_le_lBits
    have hl := s.params.lBits_le
    rw [Params.N]
    omega
  refine ⟨h.encState_lt, h.decState_lt, ?sp, h.decRemain_lt, hM.trans_lt (M_lt_cumBound s.params), ?divsh, ?divmul,
    h.readCum_lt⟩
  case sp => exact h.sp_le.trans_lt (Nat.pow_lt_pow_right one_lt_two (Nat.lt_succ_self _))
  case divsh =>
    rw [h.divsh_eq]
    exact ⟨N_le_divShift .., hsh, hsh.trans h118⟩
  case divmul =>
    rw [h.divmul_eq]
    exact ⟨pow_N_le_divMult hf, divMult_lt hf hM⟩

/-- Settles O12: only ENC and DIVQ list the status; ENC's rescaling and DIVQ's latched triple divide exactly. -/
theorem divMismatchNeverOccurs : Obligations.DivMismatchNeverOccurs := by
  intro i s t hinv h r hr
  obtain hok | hmem := status_mem_of_exec h hr
  · exact nomatch hok
  cases i with
  | enc sym =>
    obtain ⟨-, rfl⟩ | ⟨-, -, rfl⟩ | ⟨-, -, -, rfl⟩ | ⟨-, hf, -, n, -, -, -, hend⟩ := exec_enc_cases h
    · simp at hr
    · simp at hr
    · simp at hr
    · rw [rescale_eq_some hf ((Nat.div_le_self ..).trans_lt hinv.encState_lt)] at hend
      obtain ⟨-, rfl⟩ | ⟨-, hnone, -⟩ | ⟨-, x, -, rfl⟩ := hend
      · simp at hr
      · exact nomatch hnone
      · simp at hr
  | divq d =>
    obtain ⟨-, rfl⟩ | ⟨hd, hne, -⟩ | ⟨-, -, rfl⟩ := exec_divq_cases h
    · simp at hr
    · exact hne (hinv.latchedQuotient_eq_div hd)
    · simp at hr
  | _ => simp [otherStatuses] at hmem

/-- The end of the stream changes BONUS, EOS, ERR, ERRCODE and the responses (44_decoder.md R183, R187). -/
theorem endStream_frame (s : State) : endStream s = { s with
    bonus := bonusOf s, eos := true, err := (endStream s).err, errcode := (endStream s).errcode,
    responses := (endStream s).responses } := by
  rw [endStream_eq]
  split <;> rfl

@[simp] theorem endStream_params (s : State) : (endStream s).params = s.params := by rw [endStream_frame]
@[simp] theorem endStream_tv (s : State) : (endStream s).tv = s.tv := by rw [endStream_frame]
@[simp] theorem endStream_low (s : State) : (endStream s).low = s.low := by rw [endStream_frame]
@[simp] theorem endStream_decState (s : State) : (endStream s).decState = s.decState := by rw [endStream_frame]
@[simp] theorem endStream_sp (s : State) : (endStream s).sp = s.sp := by rw [endStream_frame]
@[simp] theorem endStream_bonus (s : State) : (endStream s).bonus = bonusOf s := by rw [endStream_frame]

/-- Only BUILD and WRCUM can change whether the table is valid. -/
theorem tableValid_of_exec {i : Instr} {s t : State} (h : exec i s = .next t) (hb : i ≠ .build) (hw : ∀ a d, i ≠ .wrcum a d) :
    tableValid t = tableValid s := by
  obtain ⟨hparams, hresets, -, -, -, -, -, -, -, -, -, -, -, -, hcum, -⟩ := onlyTheListedCommandsWrite i s t h
  exact tableValid_congr hparams (hcum.resolve_right fun h => h.elim hb fun ⟨a, d, h⟩ => hw a d h) hresets

/-- Settles O30: the clauses are read off the way the command ends; BUILD's table is valid, and no other writer of CUM leaves
TV = 1. -/
theorem tvLifeCycle : Obligations.TvLifeCycle := by
  refine ⟨fun _ => rfl, fun i s t st r h hr => ?_⟩
  cases execOutcome h with
  | failed hi he =>
    obtain ⟨rfl, -⟩ := response_inj hr
    have hsrst : i ≠ .srst := by
      rintro rfl
      simp [otherStatuses] at he
    exact ⟨fun h => absurd h hsrst, nofun, fun _ _ => rfl, fun h => absurd h hi, nofun, fun _ _ => rfl,
      fun _ _ _ _ => rfl, id⟩
  | tableRejected hi =>
    obtain ⟨rfl, -⟩ := response_inj hr
    simp [hi]
  | ended hi =>
    have hvalid : tableValid (endStream (refill s)) = tableValid s := tableValid_of_exec h (hi ▸ nofun) (hi ▸ nofun)
    simp [hi, hvalid]
  | performed r' hp =>
    rw [respond_responses, hp.responses_eq] at hr
    obtain ⟨rfl, -⟩ := response_inj hr
    cases hp with
    | reads hi => cases i <;> simp [mayOnlyRead] at hi ⊢
    | build hes =>
      obtain ⟨c, hwork, -, hsum⟩ := buildEntries_spec hes
      simp [tableValid_writeTable hwork hsum]
    | chktab hv => simp [hv]
    | wrcum => simp
    | srst => simp
    | _ =>
      exact ⟨nofun, by simp, nofun, nofun, by simp, by simp, fun _ _ _ _ => by simp,
        fun hs htv => (tableValid_of_exec h nofun nofun).trans (hs (by simpa using htv))⟩

end Sys2Proof.Machine

/-! PROOF. What a command does not read: ERR and ERRCODE (60_exceptions.md R255), and for DEC the encoder, the divider and WGT
(44_decoder.md R188). In both the command is run from a state with those parts replaced, and its outcome compared. -/

namespace Sys2Proof.Machine

/-- The outcome with `f` applied to the next state. -/
def mapNext (f : State → State) : Host.Outcome State Fault Refusal → Host.Outcome State Fault Refusal
  | .next t => .next (f t)
  | .fault r => .fault r
  | .refused r => .refused r

@[simp] theorem mapNext_next (f : State → State) (t : State) : mapNext f (.next t) = .next (f t) := rfl

/-! ### ERR and ERRCODE -/

/-- `s` with the given ERR and ERRCODE. -/
def State.withErr (e : Bool) (c : BitVec 4) (s : State) : State := { s with err := e, errcode := c }

/-- A command's outcome but for ERR and ERRCODE is the same whatever they hold before it. -/
def ErrBlind (i : Instr) : Prop :=
  ∀ (e : Bool) (c : BitVec 4) (s : State), mapNext clearError (exec i (s.withErr e c)) = mapNext clearError (exec i s)

section
variable (e : Bool) (c : BitVec 4) (s : State)

@[simp] theorem withErr_params : (s.withErr e c).params = s.params := rfl
@[simp] theorem withErr_sp : (s.withErr e c).sp = s.sp := rfl
@[simp] theorem withErr_encState : (s.withErr e c).encState = s.encState := rfl
@[simp] theorem freq_withErr (sym : Nat) : freq (s.withErr e c) sym = freq s sym := rfl
@[simp] theorem rescale_withErr (sym x : Nat) : rescale (s.withErr e c) sym x = rescale s sym x := rfl
@[simp] theorem buildEntries_withErr : buildEntries (s.withErr e c) = buildEntries s := rfl
@[simp] theorem slotOf_withErr : slotOf (s.withErr e c) = slotOf s := rfl
@[simp] theorem symbolAt_withErr (v : Nat) : symbolAt (s.withErr e c) v = symbolAt s v := rfl

@[simp] theorem pushAll_withErr (bs : List Byte) : pushAll bs (s.withErr e c) = (pushAll bs s).withErr e c := by
  induction bs generalizing s with
  | nil => rfl
  | cons b bs ih => exact ih (push b s)

end

/-- Two choices by one condition agree under `f` when their branches do. -/
theorem agree_ite {α β : Type} (f : α → β) {P : Prop} [Decidable P] {a a' b b' : α} (ha : f a = f a') (hb : f b = f b') :
    f (if P then a else b) = f (if P then a' else b') := by
  split
  · exact ha
  · exact hb

/-- A command of one check, whose two outcomes agree but for ERR and ERRCODE. -/
theorem next_agree_ite {P : Prop} [Decidable P] {a a' b b' : State} (ha : clearError a = clearError a')
    (hb : clearError b = clearError b') :
    mapNext clearError (.next (if P then a else b)) = mapNext clearError (.next (if P then a' else b')) :=
  congrArg Host.Outcome.next (agree_ite clearError ha hb)

/-- The registers but STATUS and ERRCODE read alike. -/
theorem errBlind_rdreg {r : Byte} (h1 : r ≠ 1#8) (h2 : r ≠ 2#8) : ErrBlind (.rdreg r) := by
  intro e c s
  cases hr : registerOf r with
  | none =>
    rw [exec_rdreg_of_none hr, exec_rdreg_of_none hr]
    rfl
  | some reg =>
    have hread : readReg (s.withErr e c) reg = readReg s reg := by
      have hnumber := registerOf_eq_some hr
      cases reg with
      | status => exact absurd (by simpa using hnumber) h1
      | errcode => exact absurd (by simpa using hnumber) h2
      | _ => rfl
    rw [exec_rdreg_of_some hr, exec_rdreg_of_some hr, hread]
    rfl

/-- WRREG's range checks do not read ERR and ERRCODE. -/
theorem clearError_writeReg (e : Bool) (c : BitVec 4) (s : State) (d : Word) (reg : Reg) :
    (writeReg (s.withErr e c) d reg).map clearError = (writeReg s d reg).map clearError := by
  cases reg with
  | status => exact congrArg some (agree_ite clearError rfl rfl)
  | encState | decState | sp | decRemain => exact agree_ite (Option.map clearError) rfl rfl
  | _ => rfl

theorem errBlind_wrreg (r : Byte) (d : Word) : ErrBlind (.wrreg r d) := by
  intro e c s
  cases hr : registerOf r with
  | none =>
    simp only [exec, execWrreg, hr]
    rfl
  | some reg =>
    have hmap := clearError_writeReg e c s d reg
    cases hw : writeReg s d reg with
    | none =>
      rw [hw, Option.map_none, Option.map_eq_none_iff] at hmap
      rw [exec_wrreg_of_none hr hw, exec_wrreg_of_none hr hmap]
      rfl
    | some t =>
      rw [hw, Option.map_some, Option.map_eq_some_iff] at hmap
      obtain ⟨t', ht', hclear⟩ := hmap
      rw [exec_wrreg_of_some hr hw, exec_wrreg_of_some hr ht']
      exact congrArg (fun u => Host.Outcome.next (respond .ok 0#64 u)) hclear

theorem errBlind_build : ErrBlind .build := by
  intro e c s
  cases hes : buildEntries s with
  | none =>
    rw [exec_build_of_none hes, exec_build_of_none ((buildEntries_withErr e c s).trans hes)]
    rfl
  | some es =>
    rw [exec_build_of_some hes, exec_build_of_some ((buildEntries_withErr e c s).trans hes)]
    rfl

theorem clearError_encodeSymbol (e : Bool) (c : BitVec 4) (sym : Nat) (s : State) :
    clearError (encodeSymbol sym (s.withErr e c)) = clearError (encodeSymbol sym s) := by
  simp only [encodeSymbol, freq_withErr, rescale_withErr, withErr_params, withErr_encState, withErr_sp, pushAll_withErr]
  split
  · rfl
  · split <;> rfl

theorem errBlind_enc (sym : Byte) : ErrBlind (.enc sym) := fun e c s =>
  next_agree_ite rfl (agree_ite clearError rfl (agree_ite clearError rfl (clearError_encodeSymbol e c sym.toNat s)))

theorem clearError_endStream (e : Bool) (c : BitVec 4) (s : State) :
    clearError (endStream (s.withErr e c)) = clearError (endStream s) := by
  rw [endStream_eq, endStream_eq]
  exact agree_ite clearError rfl rfl

theorem decodeSymbol_withErr (e : Bool) (c : BitVec 4) (s : State) :
    mapNext clearError (decodeSymbol (s.withErr e c)) = mapNext clearError (decodeSymbol s) := by
  refine agree_ite (mapNext clearError) (congrArg Host.Outcome.next (clearError_endStream e c s)) ?_
  rw [slotOf_withErr, symbolAt_withErr]
  split <;> rfl

theorem errBlind_dec : ErrBlind .dec := fun e c s =>
  agree_ite (mapNext clearError) rfl (decodeSymbol_withErr e c (refill s))

theorem errBlind_encflush : ErrBlind .encflush := by
  intro e c s
  simp only [exec, execEncflush, withErr_params, withErr_sp, withErr_encState, pushAll_withErr]
  exact next_agree_ite rfl rfl

/-- Every command but the reads of STATUS and ERRCODE is blind to them. -/
theorem errBlind {i : Instr} (h1 : i ≠ .rdreg 1#8) (h2 : i ≠ .rdreg 2#8) : ErrBlind i := by
  cases i with
  | nop | srst | rdwgt => exact fun _ _ _ => rfl
  | rdreg r => exact errBlind_rdreg (fun h => h1 (h ▸ rfl)) (fun h => h2 (h ▸ rfl))
  | wrreg r d => exact errBlind_wrreg r d
  | build => exact errBlind_build
  | enc sym => exact errBlind_enc sym
  | encflush => exact errBlind_encflush
  | dec => exact errBlind_dec
  | divq d => exact fun _ _ _ => next_agree_ite (agree_ite clearError rfl rfl) rfl
  | wrwgt | wrcum | rdcum | chktab | pushb | popb | rdstk | wrstk | encinit | decinit | divp =>
    exact fun _ _ _ => next_agree_ite rfl rfl

/-- Settles O14. -/
theorem errNeverChangesWhatACommandDoes : Obligations.ErrNeverChangesWhatACommandDoes := by
  intro i s t e c h1 h2 h
  have hblind := errBlind h1 h2 e c s
  rw [h, mapNext_next] at hblind
  cases hu : exec i (s.withErr e c) with
  | next u =>
    rw [hu, mapNext_next, Host.Outcome.next.injEq] at hblind
    have hrestored : (clearError u).withErr t.err t.errcode = (clearError t).withErr t.err t.errcode := by rw [hblind]
    exact ⟨u, hu, hrestored⟩
  | fault r => exact nomatch hu ▸ hblind
  | refused r => exact nomatch hu ▸ hblind

/-! ### What DEC ignores -/

/-- `s` with WGT and the encoder's and the divider's registers of `u` (44_decoder.md R188). -/
def State.withEncoderOf (u s : State) : State :=
  { s with wgt := u.wgt, encState := u.encState, divf := u.divf, divsh := u.divsh, divmul := u.divmul }

/-- A choice between results of `f` is `f` of the choice. -/
theorem ite_eq_of_eq {α β : Type} (f : α → β) {P : Prop} [Decidable P] {a b : α} {a' b' : β} (ha : a' = f a) (hb : b' = f b) :
    (if P then a' else b') = f (if P then a else b) := by
  rw [ha, hb, apply_ite f]

theorem endStream_withEncoderOf (u s : State) : endStream (u.withEncoderOf s) = u.withEncoderOf (endStream s) := by
  rw [endStream_eq, endStream_eq]
  exact ite_eq_of_eq u.withEncoderOf rfl rfl

theorem symbolAt_withEncoderOf (u s : State) (v : Nat) : symbolAt (u.withEncoderOf s) v = symbolAt s v := rfl

theorem decodeSymbol_withEncoderOf (u s : State) :
    decodeSymbol (u.withEncoderOf s) = mapNext u.withEncoderOf (decodeSymbol s) := by
  refine ite_eq_of_eq (mapNext u.withEncoderOf) (congrArg Host.Outcome.next (endStream_withEncoderOf u s)) ?_
  rw [show slotOf (u.withEncoderOf s) = slotOf s from rfl, symbolAt_withEncoderOf]
  split <;> rfl

/-- DEC does the same whatever WGT, the encoder and the divider hold, and leaves them. -/
theorem exec_dec_withEncoderOf (u s : State) : exec .dec (u.withEncoderOf s) = mapNext u.withEncoderOf (exec .dec s) :=
  ite_eq_of_eq (mapNext u.withEncoderOf) rfl (decodeSymbol_withEncoderOf u (refill s))

/-- Settles O52: the given memory and registers are those of one state. -/
theorem decIgnoresEncoderAndDivider : Obligations.DecIgnoresEncoderAndDivider := by
  intro s t w es f sh m h
  have := exec_dec_withEncoderOf { s with wgt := w, encState := es, divf := f, divsh := sh, divmul := m } s
  rw [h] at this
  exact this

end Sys2Proof.Machine

/-! PROOF. One symbol through the coder: ENC as a whole (43_encoder.md R153 to R155), DEC as a whole (44_decoder.md R182 to R187), the
bytes each moves, and that DEC undoes ENC (R189). The last rests on two facts: decoding inverts the rescaling, and the refill pops
exactly the bytes that the renormalization pushed. -/

namespace Sys2Proof.Machine

/-! ### ENC -/

/-- The least number of bytes after which the state is below the bound is one number (43_encoder.md R153). -/
theorem renormalize_count_unique {xmax x n m : Nat} (hn : x / 256 ^ n < xmax) (hn' : ∀ k < n, xmax ≤ x / 256 ^ k)
    (hm : x / 256 ^ m < xmax) (hm' : ∀ k < m, xmax ≤ x / 256 ^ k) : n = m :=
  le_antisymm (not_lt.1 fun h => (hn' m h).not_gt hm) (not_lt.1 fun h => (hm' n h).not_gt hn)

/-- That number is at most `ceil(M_BITS / 8)`: so many bytes take a state below `B * L` below `B * K_LM` (43_encoder.md R153). -/
theorem renormalize_count_le {p : Params} {count x n : Nat} (hcount : 1 ≤ count) (hx : x < p.BL)
    (hge : ∀ k < n, xMax p count ≤ x / 256 ^ k) : n ≤ (p.mBits + 7) / 8 := by
  by_contra hlt
  have hM : p.M ≤ 256 ^ ((p.mBits + 7) / 8) := by
    rw [show 256 = 2 ^ 8 from rfl, ← pow_mul]
    exact Nat.pow_le_pow_right two_pos (by omega)
  refine hx.not_ge ?_
  calc p.BL
    _ = 256 * p.kLM * p.M := by rw [mul_assoc, p.kLM_mul_M, p.BL_eq]
    _ ≤ xMax p count * 256 ^ ((p.mBits + 7) / 8) := Nat.mul_le_mul (Nat.le_mul_of_pos_right _ hcount) hM
    _ ≤ x := (Nat.le_div_iff_mul_le (Nat.pow_pos (by norm_num))).1 (hge _ (not_le.1 hlt))

/-- The state in which ENC has encoded `sym` and pushed `n` bytes, but for the response (43_encoder.md R155). -/
def encoded (sym n : Nat) (s : State) : State :=
  noteLow { pushAll (lowBytes n s.encState) s with encState := rescaled s sym (s.encState / 256 ^ n) }

section
variable {s : State} {sym : Byte} {n : Nat} (hinv : s.Inv) (htv : s.tv = true) (hf : freq s sym.toNat ≠ 0)
  (hhalf : s.params.half ≤ s.encState) (hlt : s.encState / 256 ^ n < xMax s.params (freq s sym.toNat))
  (hge : ∀ k < n, xMax s.params (freq s sym.toNat) ≤ s.encState / 256 ^ k)
include hinv htv hf hhalf hlt hge

/-- ENC past its operand checks: it overflows the stack or encodes. -/
theorem exec_enc_of_checked : exec (.enc sym) s = .next
    (if s.params.stackDepth < s.sp + n then raise .stackOverflow s
      else respond .ok (zext64 n) (encoded sym.toNat n s)) := by
  obtain ⟨t, ht⟩ := hinv.exec_continues (.enc sym)
  rw [ht, Host.Outcome.next.injEq]
  obtain ⟨htv', -⟩ | ⟨-, hf', -⟩ | ⟨-, -, hhalf', -⟩ | ⟨-, -, -, m, -, hlt', hge', hend⟩ := exec_enc_cases ht
  · exact absurd htv (Bool.eq_false_iff.1 htv')
  · exact absurd hf' hf
  · exact absurd hhalf hhalf'.not_ge
  · obtain rfl := renormalize_count_unique hlt hge hlt' hge'
    rw [rescale_eq_some hf ((Nat.div_le_self ..).trans_lt hinv.encState_lt)] at hend
    obtain ⟨hfull, rfl⟩ | ⟨-, hnone, -⟩ | ⟨hroom, x, hx, rfl⟩ := hend
    · rw [if_pos hfull]
    · exact nomatch hnone
    · rw [if_neg hroom.not_gt, ← Option.some.inj hx, encoded]

end

/-- Settles O42. -/
theorem encEncodesOneSymbol : Obligations.EncEncodesOneSymbol := by
  refine ⟨fun a d => decode_headerOf (op := .enc) d (.inl rfl) (.inr rfl), fun s sym n hinv htv hf hhalf => ?_⟩
  intro count xmax hlt hge
  have hxmax : xmax = xMax s.params (freq s sym.toNat) := (xMax_eq ..).symm
  rw [hxmax] at hlt
  simp only [hxmax] at hge
  have hexec := exec_enc_of_checked hinv htv hf hhalf hlt hge
  refine ⟨fun hroom => ⟨respond .ok (zext64 n) (encoded sym.toNat n s), ?exec, ?frame, ?state, ?low, fun k hk => ?pushed,
    fun j hj => ?others⟩, fun hfull => ?overflow⟩
  case exec => exact hexec.trans (congrArg _ (if_neg (not_lt.2 hroom)))
  case frame =>
    rw [encoded, pushAll_eq, lowBytes_length]
    rfl
  case state => exact (Nat.add_assoc ..).symm
  case low => simp [encoded, noteLow, Params.L]
  case pushed => exact readStk_pushAll_lowBytes hk s.encState s
  case others => exact readStk_pushAll_of_outside (by simpa using hj)
  case overflow => exact hexec.trans (congrArg _ (if_pos hfull))

/-- Settles O43: a failing ENC leaves SP. -/
theorem encPushesAtMostCeilMBitsOver8 : Obligations.EncPushesAtMostCeilMBitsOver8 := by
  intro s t sym hinv h
  obtain ⟨-, rfl⟩ | ⟨-, -, rfl⟩ | ⟨-, -, -, rfl⟩ | ⟨-, hf, -, n, hn, -, hge, hend⟩ := exec_enc_cases h
  · simp
  · simp
  · simp
  · have hle := renormalize_count_le (Nat.pos_of_ne_zero hf) hinv.encState_lt hge
    obtain ⟨-, rfl⟩ | ⟨-, -, rfl⟩ | ⟨-, x, -, rfl⟩ := hend
    · simp
    · simp
    · simp [hn, hle]

/-! ### DEC -/

/-- Settles O49: the refill is the statement's sequence, and the three outcomes of DEC are its three clauses. -/
theorem decDecodesOneSymbolOrEnds : Obligations.DecDecodesOneSymbolOrEnds := by
  refine ⟨fun d => decode_headerOf (op := .dec) d (.inr rfl) (.inr rfl), fun s htv => ?_, fun s y k hinv htv h0 hy hk hlt hstop => ?_⟩
  · simp only [exec, execDec, htv, if_true]
  intro bonus
  obtain ⟨t, ht⟩ := hinv.exec_continues .dec
  have hrefill : refill s = { s with decState := y k, sp := s.sp - k } := by
    rw [refill, ← h0, refillFrom_eq hy hk hlt hstop]
  obtain ⟨htv', -⟩ | ⟨-, hend, rfl⟩ | ⟨-, hL, sym, hsym, hlow, hhigh, rfl⟩ := exec_dec_cases ht
  · exact absurd htv (Bool.eq_false_iff.1 htv')
  · rw [hrefill] at hend ht
    rw [endStream_eq] at ht
    have hbonus : bonusOf { s with decState := y k, sp := s.sp - k } = bonus := by
      simp [bonusOf, bonus, Params.half]
    rw [hbonus] at ht
    refine ⟨fun _ hrem => ?_, fun _ hrem => ?_, fun hL => absurd hend hL.not_gt⟩
    · rw [if_pos hrem] at ht
      exact ht
    · rw [if_neg hrem] at ht
      exact ht
  · rw [hrefill] at hL hlow hhigh ht
    refine ⟨fun hend => absurd hend hL.not_gt, fun hend => absurd hend hL.not_gt, fun _ => ⟨BitVec.ofNat 8 sym, ?_⟩⟩
    have hbyte : (BitVec.ofNat 8 sym).toNat = sym := by simpa using Nat.mod_eq_of_lt hsym
    rw [hbyte]
    have hslot : readCum s sym ≤ y k % s.params.M := hlow
    have hoffset := (Nat.add_sub_assoc hslot (y k / s.params.M * (readCum s (sym + 1) - readCum s sym))).symm
    exact ⟨hlow, hhigh, ht.trans (by rw [hoffset]; rfl)⟩

/-- At or above the floor, and on an empty stack, the refill does nothing. -/
theorem refillFrom_of_stopped {floor x height : Nat} (h : floor ≤ x ∨ height = 0) (byteAt : Nat → Byte) :
    refillFrom floor byteAt height x = (x, height) := by
  cases height with
  | zero => rfl
  | succ n => rw [refillFrom, if_neg (h.resolve_right n.succ_ne_zero).not_gt]

theorem refill_of_stopped {s : State} (h : s.params.L ≤ s.decState ∨ s.sp = 0) : refill s = s := by
  rw [refill, refillFrom_of_stopped h]

/-- What the refill of DEC leaves below L is an empty stack (44_decoder.md R183). -/
theorem refill_sp_eq_zero {s : State} (h : (refill s).decState < s.params.L) : (refill s).sp = 0 :=
  ((refillFrom_spec ..).2.1).resolve_left h.not_ge

theorem exec_dec_of_ended {s : State} (htv : s.tv = true) (h : (refill s).decState < s.params.L) :
    exec .dec s = .next (endStream (refill s)) :=
  (if_neg (by simp [htv])).trans (if_pos h)

/-- A state that has ended the stream ends it again, with the same status and the same bonus and nothing else. -/
theorem endStream_endStream {s : State} {st : Status} {r : Word} (hr : (endStream s).responses = s.responses ++ [⟨st, r⟩]) :
    endStream (endStream s) = { endStream s with responses := (endStream s).responses ++ [⟨st, r⟩] } := by
  by_cases hrem : s.decRemain = 0
  · simp only [endStream_eq, if_pos hrem] at hr ⊢
    obtain ⟨rfl, rfl⟩ := response_inj hr
    rfl
  · simp only [endStream_eq, if_neg hrem] at hr ⊢
    obtain ⟨rfl, rfl⟩ := response_inj hr
    rfl

/-- Settles O51: the stack is empty and the state below L, so the second DEC refills nothing and ends the stream again. -/
theorem endOfStreamIsStable : Obligations.EndOfStreamIsStable := by
  intro s t st r h hr hst
  obtain ⟨-, rfl⟩ | ⟨htv, hlt, rfl⟩ | ⟨-, -, sym, -, -, -, rfl⟩ := exec_dec_cases h
  · obtain ⟨rfl, -⟩ := response_inj hr
    simp at hst
  · have hstable : refill (endStream (refill s)) = endStream (refill s) :=
      refill_of_stopped (.inr ((endStream_sp _).trans (refill_sp_eq_zero hlt)))
    have hagain : exec .dec (endStream (refill s)) = .next (endStream (endStream (refill s))) := by
      rw [exec_dec_of_ended (by simpa using htv) (by rw [hstable]; simpa using hlt), hstable]
    obtain ⟨st', hr', -⟩ := endStream_responses (refill s)
    obtain ⟨rfl, rfl⟩ := response_inj (hr'.symm.trans hr)
    exact ⟨hagain.trans (congrArg _ (endStream_endStream hr)), by rw [endStream_frame], by simp⟩
  · obtain ⟨rfl, -⟩ := response_inj hr
    simp at hst

/-! ### The bytes one command moves -/

/-- DEC pops what the refill pops, and nothing where it has no table. -/
theorem exec_dec_sp {s t : State} (h : exec .dec s = .next t) :
    (s.tv = false ∧ t.sp = s.sp) ∨ (s.tv = true ∧ t.sp = (refill s).sp) := by
  obtain ⟨htv, rfl⟩ | ⟨htv, -, rfl⟩ | ⟨htv, -, sym, -, -, -, rfl⟩ := exec_dec_cases h
  · exact .inl ⟨htv, rfl⟩
  · exact .inr ⟨htv, endStream_sp _⟩
  · exact .inr ⟨htv, rfl⟩

/-- `ceil(L_BITS / 8)` bytes carry any state but 0 to L. -/
theorem L_le_pow (p : Params) : p.L ≤ 256 ^ ((p.lBits + 7) / 8) := by
  rw [show 256 = 2 ^ 8 from rfl, ← pow_mul]
  exact Nat.pow_le_pow_right two_pos (by omega)

theorem sp_le_refill_of_ne_zero {s : State} (h : s.decState ≠ 0) : s.sp ≤ (refill s).sp + (s.params.lBits + 7) / 8 :=
  refillFrom_pops_le (readStk s) (L_le_pow s.params) (Nat.zero_le _) (Nat.pos_of_ne_zero h)

/-- From the state 0 a top byte other than 0 is popped, and then the state is not 0. -/
theorem sp_le_refill_of_top_ne_zero {s : State} (h0 : s.decState = 0) (htop : s.sp = 0 ∨ readStk s (s.sp - 1) ≠ 0#8) :
    s.sp ≤ (refill s).sp + (s.params.lBits + 7) / 8 + 1 := by
  rw [refill_sp, h0]
  cases hsp : s.sp with
  | zero => exact Nat.zero_le _
  | succ n =>
    rw [hsp] at htop
    have hbyte : 1 ≤ 0 * 256 + (readStk s n).toNat := by
      rw [Nat.zero_mul, Nat.zero_add, Nat.one_le_iff_ne_zero]
      exact fun h => htop.resolve_left n.succ_ne_zero (BitVec.eq_of_toNat_eq h)
    rw [refillFrom, if_pos s.params.L_pos]
    exact Nat.succ_le_succ (refillFrom_pops_le (readStk s) (L_le_pow s.params) (Nat.zero_le _) hbyte)

/-- Settles O60: a fold multiplies a state other than 0 by 256, so `ceil(L_BITS / 8)` of them reach L; N is `L_BITS + 8`. -/
theorem bytesMovedByFlushAndRefill : Obligations.BytesMovedByFlushAndRefill := by
  intro s t hinv
  refine ⟨fun h => ?flush, fun h => ?dec⟩
  case flush =>
    have hbytes : byteLen s.encState ≤ (s.params.N + 7) / 8 :=
      Nat.div_le_div_right (Nat.add_le_add_right ((bitLen_le_iff _ _).2 hinv.encState_lt) 7)
    obtain ⟨-, rfl⟩ | ⟨-, rfl⟩ := exec_encflush_cases h <;> simp [hbytes]
  case dec =>
    have hN : (s.params.N + 7) / 8 = (s.params.lBits + 7) / 8 + 1 := by rw [Params.N]; omega
    rw [hN]
    obtain ⟨htv, hsp⟩ | ⟨-, hsp⟩ := exec_dec_sp h
    · rw [hsp]
      exact ⟨le_rfl, fun _ => by omega, fun _ => by omega, fun _ _ htv' => absurd htv' (Bool.eq_false_iff.1 htv)⟩
    · rw [hsp]
      refine ⟨(refillFrom_spec ..).1, fun hne => Nat.lt_succ_of_le (sp_le_refill_of_ne_zero hne), fun htop => ?_,
        fun k hk _ h0 hzeros => ?_⟩
      · obtain h0 | hne := eq_or_ne s.decState 0
        · exact sp_le_refill_of_top_ne_zero h0 htop
        · exact (sp_le_refill_of_ne_zero hne).trans (Nat.le_succ _)
      · rw [refill_sp, h0]
        exact refillFrom_pops_zeros s.params.L_pos hk hzeros

/-! ### DEC undoes ENC -/

/-- The offset stays inside the symbol's interval. -/
theorem readCum_add_mod_lt {s : State} {sym : Nat} (hf : freq s sym ≠ 0) (x : Nat) :
    readCum s sym + x % freq s sym < readCum s (sym + 1) := by
  have hmod := Nat.mod_lt x (Nat.pos_of_ne_zero hf)
  simp only [freq] at hmod ⊢
  omega

section
variable {s : State} {sym : Nat} (hv : tableValid s = true) (hsym : sym < 256) (hf : freq s sym ≠ 0) (x : Nat)
include hv hsym hf

/-- A rescaled state is the block times M and a slot of the symbol (43_encoder.md R154). -/
theorem rescaled_div_mod : rescaled s sym x / s.params.M = x / freq s sym ∧
    rescaled s sym x % s.params.M = readCum s sym + x % freq s sym :=
  (Nat.div_mod_unique s.params.M_pos).2 ⟨by rw [rescaled]; ring,
    (readCum_add_mod_lt hf x).trans_le (readCum_le_M hv (show sym + 1 ≤ 256 from hsym))⟩

/-- Decoding inverts the rescaling (43_encoder.md R154, 44_decoder.md R185). -/
theorem decoded_decState_of_rescaled (h : s.decState = rescaled s sym x) : (decoded sym s).decState = x := by
  obtain ⟨hdiv, hmod⟩ := rescaled_div_mod hv hsym hf x
  have hx := Nat.div_add_mod' x (freq s sym)
  show s.decState / s.params.M * freq s sym + s.decState % s.params.M - readCum s sym = x
  rw [h, hdiv, hmod]
  omega

end

/-- A DEC whose refilled state is a rescaled one yields the symbol it was rescaled for. -/
theorem exec_dec_of_rescaled {s : State} {sym x : Nat} (htv : s.tv = true) (hv : tableValid s = true) (hsym : sym < 256)
    (hf : freq s sym ≠ 0) (hL : s.params.L ≤ (refill s).decState) (h : (refill s).decState = rescaled s sym x) :
    exec .dec s = .next (respond .ok (zext64 sym) (decoded sym (refill s))) ∧ (decoded sym (refill s)).decState = x := by
  obtain ⟨t, ht⟩ := execDec_continues fun _ => hv
  refine ⟨?_, decoded_decState_of_rescaled (s := refill s) hv hsym hf x h⟩
  obtain ⟨htv', -⟩ | ⟨-, hlt, -⟩ | ⟨-, -, sym', hsym', hlow, hhigh, rfl⟩ := exec_dec_cases ht
  · exact absurd htv (Bool.eq_false_iff.1 htv')
  · exact absurd hL hlt.not_ge
  · have hslot : slotOf (refill s) = readCum s sym + x % freq s sym := by
      rw [slotOf, h]
      exact (rescaled_div_mod hv hsym hf x).2
    rw [hslot] at hlow hhigh
    have hin := readCum_add_mod_lt hf x
    obtain rfl : sym' = sym := le_antisymm (le_of_readCum_le_of_lt_readCum hv hsym' hlow hin)
      (le_of_readCum_le_of_lt_readCum hv hsym (Nat.le_add_right ..) hhigh)
    rw [ht, yieldSymbol_eq]

/-- The refill pops the `n` low bytes of `x` back onto `x / 256^n` when the state is below the floor before the last of them. -/
theorem refillFrom_pushed {floor height x n : Nat} {byteAt : Nat → Byte}
    (hbytes : ∀ k < n, (byteAt (height + k)).toNat = x / 256 ^ k % 256) (hx : x / 256 < floor) :
    refillFrom floor byteAt (height + n) (x / 256 ^ n) = refillFrom floor byteAt height x := by
  induction n with
  | zero => simp
  | succ n ih =>
    have hlt : x / 256 ^ (n + 1) < floor := by
      rw [pow_succ', ← Nat.div_div_eq_div_mul]
      exact (Nat.div_le_self ..).trans_lt hx
    have hfold : x / 256 ^ (n + 1) * 256 + (byteAt (height + n)).toNat = x / 256 ^ n := by
      rw [hbytes n (Nat.lt_succ_self n), pow_succ, ← Nat.div_div_eq_div_mul]
      exact Nat.div_add_mod' ..
    rw [← Nat.add_assoc, refillFrom, if_pos hlt, hfold]
    exact ih fun k hk => hbytes k (hk.trans (Nat.lt_succ_self n))

theorem div_256_lt_L {p : Params} {x : Nat} (hx : x < p.BL) : x / 256 < p.L :=
  Nat.div_lt_of_lt_mul (p.BL_eq ▸ hx)

/-- A successful ENC has encoded: what it was before, and what it left. -/
theorem exec_enc_ok_encoded {sym : Byte} {s t : State} {r : Word} (hinv : s.Inv) (h : exec (.enc sym) s = .next t)
    (hr : t.responses = s.responses ++ [⟨.ok, r⟩]) : s.tv = true ∧ freq s sym.toNat ≠ 0 ∧
    ∃ n, t = respond .ok (zext64 n) (encoded sym.toNat n s) := by
  obtain ⟨hv, hf, hhalf, n, hlt, hge, -, -⟩ := exec_enc_ok hinv h hr
  have htv : s.tv = true := by
    by_contra htv
    rw [encChecksInOrder s sym |>.1 (by simpa using htv)] at h
    obtain rfl := Host.Outcome.next.inj h
    simp at hr
  refine ⟨htv, hf, n, ?_⟩
  rw [exec_enc_of_checked hinv htv hf hhalf hlt hge, Host.Outcome.next.injEq] at h
  split at h
  · subst h
    simp at hr
  · exact h.symm

/-- `t` has the parameters, TV and the table of `s`. -/
structure SameTable (s t : State) : Prop where
  params : t.params = s.params
  tv : t.tv = s.tv
  readCum : ∀ j, readCum t j = readCum s j

theorem SameTable.freq {s t : State} (h : SameTable s t) (sym : Nat) : freq t sym = freq s sym := by
  rw [Machine.freq, Machine.freq, h.readCum, h.readCum]

theorem SameTable.rescaled {s t : State} (h : SameTable s t) (sym x : Nat) : rescaled t sym x = rescaled s sym x := by
  rw [Machine.rescaled, Machine.rescaled, h.freq, h.params, h.readCum]

theorem SameTable.tableValid {s t : State} (h : SameTable s t) : tableValid t = tableValid s := by
  simp only [Machine.tableValid, h.params, h.readCum]

theorem SameTable.trans {s t u : State} (h : SameTable s t) (h' : SameTable t u) : SameTable s u :=
  ⟨h'.params.trans h.params, h'.tv.trans h.tv, fun j => (h'.readCum j).trans (h.readCum j)⟩

/-- The commands of the encoder and the decoder (43_encoder.md, 44_decoder.md). -/
def isCoder : Instr → Bool
  | .encinit _ | .enc _ | .encflush | .decinit _ | .dec => true
  | .nop | .srst | .rdreg _ | .wrreg _ _ | .wrwgt _ _ | .rdwgt _ | .wrcum _ _ | .rdcum _ | .build | .chktab | .pushb _
  | .popb | .rdstk _ | .wrstk _ _ | .divp _ | .divq _ => false

/-- The coder's commands do not write the table. -/
theorem sameTable_of_exec {i : Instr} {s t : State} (hi : isCoder i = true) (h : exec i s = .next t) : SameTable s t := by
  obtain ⟨hparams, hresets, -, -, htv, -, -, -, -, -, -, -, -, -, hcum, -⟩ := onlyTheListedCommandsWrite i s t h
  have htv : t.tv = s.tv := by
    refine htv.resolve_right ?_
    rintro (rfl | rfl | rfl | ⟨a, d, rfl⟩) <;> cases hi
  have hcum : t.cum = s.cum := by
    refine hcum.resolve_right ?_
    rintro (rfl | ⟨a, d, rfl⟩) <;> cases hi
  exact ⟨hparams, htv, fun j => by simp only [readCum, hparams, hresets, hcum]⟩

/-- The refill after a decoded symbol pops the bytes that its ENC pushed, and stops where the state before it was L or more or
stood on an empty stack. -/
theorem refillFrom_encoded {p : Params} {height x n : Nat} {byteAt : Nat → Byte}
    (hbytes : ∀ k < n, (byteAt (height + k)).toNat = x / 256 ^ k % 256) (hx : x < p.BL) (hstop : p.L ≤ x ∨ height = 0) :
    refillFrom p.L byteAt (height + n) (x / 256 ^ n) = (x, height) :=
  (refillFrom_pushed hbytes (div_256_lt_L hx)).trans (refillFrom_of_stopped hstop byteAt)

theorem refill_of_refillFrom {s : State} {x height : Nat}
    (h : refillFrom s.params.L (readStk s) s.sp s.decState = (x, height)) :
    (refill s).decState = x ∧ (refill s).sp = height := by
  rw [refill_decState, refill_sp, h]
  exact ⟨rfl, rfl⟩

/-- Settles O53: DEC gives back the renormalized state, and the next refill pops the bytes ENC pushed and stops. -/
theorem decUndoesEnc : Obligations.DecUndoesEnc := by
  intro s t sym r hinv h hr hL hstop
  obtain ⟨htv, hf, n, rfl⟩ := exec_enc_ok_encoded hinv h hr
  have hsame := sameTable_of_exec rfl h
  generalize ht : respond .ok (zext64 n) (encoded sym.toNat n s) = t at *
  have hsp : t.sp = s.sp + n := by simp [← ht, encoded]
  have hstate : t.encState = rescaled s sym.toNat (s.encState / 256 ^ n) := by rw [← ht]; rfl
  have hbytes : ∀ k < n, (readStk t (s.sp + k)).toNat = s.encState / 256 ^ k % 256 := fun k hk => by
    rw [← ht]
    exact readStk_pushAll_lowBytes hk s.encState s
  have hd : refill { t with decState := t.encState } = { t with decState := t.encState } :=
    refill_of_stopped (.inl (hsame.params ▸ hL))
  obtain ⟨hdec, hz⟩ := exec_dec_of_rescaled (s := { t with decState := t.encState }) (sym := sym.toNat)
    (x := s.encState / 256 ^ n) (hsame.tv.trans htv) (hsame.tableValid.trans (hinv.tv_valid htv)) sym.isLt
    (hsame.freq _ ▸ hf) (by rw [hd]; exact hsame.params ▸ hL)
    (by rw [hd]; exact hstate.trans (hsame.rescaled ..).symm)
  rw [hd] at hdec hz
  refine ⟨_, hdec, rfl, ?_⟩
  have hback := refillFrom_encoded (p := t.params) (byteAt := readStk t) hbytes (hsame.params ▸ hinv.encState_lt)
    (hsame.params ▸ hstop)
  rw [← hsp] at hback
  exact refill_of_refillFrom (by rw [respond_decState, hz]; exact hback)

end Sys2Proof.Machine

/-! PROOF. The round trip (44_decoder.md R189, R190). A run of commands from the port is a chain of `exec`. `Stored` says what the stack
and the state hold after the symbols have been encoded in reverse: each ENC adds a layer when the bonus is large enough for the
last symbol, and each DEC takes one off. Conversely, a decoder that answers the last symbol and then END with bonus `b` has
shown by its own arithmetic that `HALF + b` is at least `K_LM * freq` of that symbol. -/

namespace Sys2Proof.Machine

/-! ### Runs of commands -/

/-- The state with the host's next operation taken from the port (log 4). -/
def State.taken (s : State) : State := { s with input := s.input.tail }

/-- The commands `is`, each taken from the port and run, lead from `s` to `t`. -/
def Runs : List Instr → State → State → Prop
  | [], s, t => t = s
  | i :: is, s, t => ∃ u, exec i s.taken = .next u ∧ Runs is u t

theorem runs_append {is js : List Instr} {s t : State} : Runs (is ++ js) s t ↔ ∃ u, Runs is s u ∧ Runs js u t := by
  induction is generalizing s with
  | nil => simp [Runs]
  | cons i is ih =>
    simp only [List.cons_append, Runs, ih]
    constructor
    · rintro ⟨v, hv, u, hu, ht⟩
      exact ⟨u, ⟨v, hv, hu⟩, ht⟩
    · rintro ⟨u, ⟨v, hv, hu⟩, ht⟩
      exact ⟨v, hv, u, hu, ht⟩

theorem runs_singleton {i : Instr} {s t : State} : Runs [i] s t ↔ exec i s.taken = .next t := by
  simp [Runs]

/-- Under the invariant a list of commands runs to its end. -/
theorem State.Inv.exists_runs {s : State} (h : s.Inv) (is : List Instr) : ∃ t, Runs is s t := by
  induction is generalizing s with
  | nil => exact ⟨s, rfl⟩
  | cons i is ih =>
    obtain ⟨u, hu⟩ := (h.withInput s.input.tail).exec_continues i
    obtain ⟨t, ht⟩ := ih (exec_keeps_inv (h.withInput _) hu)
    exact ⟨t, u, hu, ht⟩

theorem run_succ_of_step {M : Host.Core} {s u : M.State} (h : M.step s = .next u) (k : Nat) : M.run (k + 1) s = M.run k u := by
  rw [Host.Core.run, h]

/-- With the words of the commands at the port, the machine makes that run. -/
theorem run_of_runs {is : List Instr} {s t : State} (hin : s.input = is.map fun i => HostOp.command (encode i))
    (h : Runs is s t) : Host.Core.run core is.length s = .next t := by
  induction is generalizing s with
  | nil => exact congrArg Host.Outcome.next h.symm
  | cons i is ih =>
    obtain ⟨u, hu, ht⟩ := h
    have hstep : step s = .next u := by
      rw [step_of_command hin, runCommand_of_ok (decode_encode i), ← hu, State.taken, hin]
      rfl
    have hrest : u.input = is.map fun i => HostOp.command (encode i) := by
      obtain ⟨-, -, hkept, -⟩ := onlyTheListedCommandsWrite i s.taken u hu
      rw [hkept, State.taken, hin]
      rfl
    exact (run_succ_of_step (M := core) hstep is.length).trans (ih hrest ht)

/-- What every command of a run keeps, the run keeps. -/
theorem keeps_of_runs {P : State → Prop} {is : List Instr}
    (hP : ∀ i ∈ is, ∀ s t, P s → exec i s.taken = .next t → P t) {s t : State} (hs : P s) (h : Runs is s t) : P t := by
  induction is generalizing s with
  | nil => exact h ▸ hs
  | cons i is ih =>
    obtain ⟨u, hu, ht⟩ := h
    exact ih (fun j hj => hP j (List.mem_cons_of_mem _ hj)) (hP i List.mem_cons_self s u hs hu) ht

theorem State.Inv.of_runs {is : List Instr} {s t : State} (hs : s.Inv) (h : Runs is s t) : t.Inv :=
  keeps_of_runs (fun _ _ _ _ hinv => exec_keeps_inv (hinv.withInput _)) hs h

theorem sameTable_taken (s : State) : SameTable s s.taken := ⟨rfl, rfl, fun _ => rfl⟩

theorem sameTable_of_runs {is : List Instr} (hi : ∀ i ∈ is, isCoder i = true) {s t : State} (h : Runs is s t) :
    SameTable s t :=
  keeps_of_runs (P := SameTable s)
    (fun i hmem u _ hs hu => hs.trans ((sameTable_taken u).trans (sameTable_of_exec (hi i hmem) hu)))
    ⟨rfl, rfl, fun _ => rfl⟩ h

/-- A command appends one response. -/
theorem exists_response_of_exec {i : Instr} {s t : State} (h : exec i s = .next t) :
    ∃ x, t.responses = s.responses ++ [x] := by
  cases execOutcome h with
  | failed => exact ⟨_, rfl⟩
  | tableRejected => exact ⟨_, rfl⟩
  | ended =>
    obtain ⟨st, hst, -⟩ := endStream_responses (refill s)
    exact ⟨_, hst⟩
  | performed r hp => exact ⟨_, by rw [respond_responses, hp.responses_eq]⟩

/-- A run appends as many responses as it has commands. -/
theorem exists_responses_of_runs {is : List Instr} {s t : State} (h : Runs is s t) :
    ∃ xs, xs.length = is.length ∧ t.responses = s.responses ++ xs := by
  induction is generalizing s with
  | nil => exact ⟨[], rfl, by simp [show t = s from h]⟩
  | cons i is ih =>
    obtain ⟨u, hu, ht⟩ := h
    obtain ⟨x, hx⟩ := exists_response_of_exec hu
    obtain ⟨xs, hlen, hxs⟩ := ih ht
    exact ⟨x :: xs, by simp [hlen], by rw [hxs, hx]; simp [State.taken]⟩

/-! ### LOW -/

/-- Of the coder's commands only ENCINIT clears LOW (43_encoder.md R158). -/
theorem low_of_exec {i : Instr} {s t : State} (hi : isCoder i = true) (hne : ∀ d, i ≠ .encinit d) (hlow : s.low = true)
    (h : exec i s = .next t) : t.low = true := by
  cases execOutcome h with
  | failed => exact hlow
  | tableRejected => exact hlow
  | ended => simpa using hlow
  | performed r hp =>
    cases hp with
    | reads => exact hlow
    | encinit => exact absurd rfl (hne _)
    | enc => simp [noteLow, hlow]
    | encflush | decinit | dec => simpa using hlow
    | _ => cases hi

/-- Of the coder's commands only ENC and ENCINIT change LOW (43_encoder.md R158). -/
theorem low_eq_of_exec {i : Instr} {s t : State} (hi : isCoder i = true) (hne : ∀ d, i ≠ .encinit d) (hne' : ∀ a, i ≠ .enc a)
    (h : exec i s = .next t) : t.low = s.low := by
  obtain ⟨-, -, -, -, -, hlow, -⟩ := onlyTheListedCommandsWrite i s t h
  refine hlow.resolve_right ?_
  rintro (rfl | ⟨a, d, rfl | rfl | rfl⟩)
  · cases hi
  · exact hne' a rfl
  · exact hne d rfl
  · cases hi

/-! ### The symbols on the stack -/

/-- The state `x` over the lowest `height` bytes of the stack of `s` is what the encoder leaves after it has encoded the symbols in
reverse from the seed: the state before the first symbol's ENC, rescaled, over the bytes which that ENC pushed. -/
inductive Stored (s : State) (seed : Nat) : List Byte → Nat → Nat → Prop where
  | nil : Stored s seed [] seed 0
  | cons {a : Byte} {rest : List Byte} {x height n : Nat} (before : Stored s seed rest x height)
      (hf : freq s a.toNat ≠ 0) (hx : x < s.params.BL) (hL : s.params.L ≤ rescaled s a.toNat (x / 256 ^ n))
      (hbytes : ∀ k < n, (readStk s (height + k)).toNat = x / 256 ^ k % 256) :
      Stored s seed (a :: rest) (rescaled s a.toNat (x / 256 ^ n)) (height + n)

/-- A stored state is L or more, or it is the seed on an empty stack. -/
theorem Stored.cases_top {s : State} {seed x height : Nat} {symbols : List Byte} (h : Stored s seed symbols x height) :
    (symbols = [] ∧ x = seed ∧ height = 0) ∨ s.params.L ≤ x := by
  cases h with
  | nil => exact .inl ⟨rfl, rfl, rfl⟩
  | cons _ _ _ hL => exact .inr hL

theorem Stored.eq_seed {s : State} {seed x height : Nat} (h : Stored s seed [] x height) : x = seed := by
  cases h
  rfl

theorem Stored.stopped {s : State} {seed x height : Nat} {symbols : List Byte} (h : Stored s seed symbols x height) :
    s.params.L ≤ x ∨ height = 0 :=
  h.cases_top.symm.imp_right fun ⟨_, _, h0⟩ => h0

/-- The symbols stay stored in a state with the same table and the same bytes below the height. -/
theorem Stored.of_sameTable {s t : State} (hsame : SameTable s t) {seed x height : Nat} {symbols : List Byte}
    (h : Stored s seed symbols x height) (hstk : ∀ j < height, readStk t j = readStk s j) : Stored t seed symbols x height := by
  induction h with
  | nil => exact .nil
  | @cons a rest x height n _ hf hx hL hbytes ih =>
    have before := ih fun j hj => hstk j (hj.trans_le (Nat.le_add_right ..))
    rw [← hsame.rescaled, ← hsame.params] at hL
    rw [← hsame.params] at hx
    rw [← hsame.rescaled]
    refine .cons before (hsame.freq _ ▸ hf) hx hL fun k hk => ?_
    rw [hstk _ (Nat.add_lt_add_left hk height)]
    exact hbytes k hk

/-! ### Encoding -/

/-- What the encoder has reached from `s` after the symbols. -/
structure Encoded (s : State) (seed : Nat) (symbols : List Byte) (t : State) : Prop where
  inv : t.Inv
  same : SameTable s t
  low : t.low = false
  decRemain : t.decRemain = s.decRemain
  stored : Stored t seed symbols t.encState t.sp
  sp_le : t.sp ≤ symbols.length * ((s.params.mBits + 7) / 8)

theorem Stored.half_le {s : State} {seed x height : Nat} {symbols : List Byte} (h : Stored s seed symbols x height)
    (hhalf : s.params.half ≤ seed) : s.params.half ≤ x := by
  obtain ⟨-, rfl, -⟩ | hL := h.cases_top
  · exact hhalf
  · exact s.params.half_lt_L.le.trans hL

section
variable {s t u : State} {seed : Nat} {a : Byte} {rest : List Byte} (h : Encoded s seed rest t) (htv : s.tv = true)
  (hf : freq s a.toNat ≠ 0) (hhalf : s.params.half ≤ seed)
  (hroom : (rest.length + 1) * ((s.params.mBits + 7) / 8) ≤ s.params.stackDepth) (hexec : exec (.enc a) t.taken = .next u)
include h htv hf hhalf hroom hexec

/-- With room on the stack the next ENC succeeds. -/
theorem Encoded.exec_enc : ∃ n, n ≤ (s.params.mBits + 7) / 8 ∧ u = respond .ok (zext64 n) (encoded a.toNat n t.taken) := by
  have hinv : t.taken.Inv := h.inv.withInput _
  have hsame : SameTable s t.taken := h.same.trans (sameTable_taken t)
  have hft : freq t.taken a.toNat ≠ 0 := hsame.freq _ ▸ hf
  obtain ⟨n, -, hlt, hge⟩ := exists_renormalize_count (xmax := xMax t.taken.params (freq t.taken a.toNat))
    (Nat.mul_pos (Nat.mul_pos (by norm_num) (Params.kLM_pos _)) (Nat.pos_of_ne_zero hft)) t.taken.encState
  have hn : n ≤ (s.params.mBits + 7) / 8 :=
    hsame.params ▸ renormalize_count_le (Nat.pos_of_ne_zero hft) hinv.encState_lt hge
  have hfits : ¬ t.taken.params.stackDepth < t.taken.sp + n := by
    rw [hsame.params]
    rw [Nat.succ_mul] at hroom
    exact not_lt.2 ((Nat.add_le_add h.sp_le hn).trans hroom)
  have hdone := exec_enc_of_checked hinv (hsame.tv.trans htv) hft (h.stored.half_le (h.same.params ▸ hhalf)) hlt hge
  rw [if_neg hfits, hexec, Host.Outcome.next.injEq] at hdone
  exact ⟨n, hn, hdone⟩

/-- It sets LOW when it leaves a state below L, and else leaves it. -/
theorem Encoded.low_enc : u.low = decide (u.encState < u.params.L) := by
  obtain ⟨n, -, hu⟩ := h.exec_enc htv hf hhalf hroom hexec
  rw [hu]
  simp [encoded, noteLow, State.taken, h.low]

/-- It adds its symbol when its state is at least `K_LM * freq` (43_encoder.md R157). -/
theorem Encoded.enc (hcond : s.params.kLM * freq s a.toNat ≤ t.encState) : Encoded s seed (a :: rest) u := by
  have hinv : t.taken.Inv := h.inv.withInput _
  have hsame : SameTable s t.taken := h.same.trans (sameTable_taken t)
  have hsame' : SameTable t.taken u := sameTable_of_exec rfl hexec
  obtain ⟨n, hn, hu⟩ := h.exec_enc htv hf hhalf hroom hexec
  have hsp : u.sp = t.sp + n := by simp [hu, encoded, State.taken]
  have hstate : u.encState = rescaled u a.toNat (t.encState / 256 ^ n) := by
    rw [hsame'.rescaled, hu]
    rfl
  have hL : u.params.L ≤ u.encState := by
    obtain ⟨-, -, -, hinput, -⟩ := encStateAboveLExactlyWhen t.taken u a n hinv hexec (by rw [hu]; simp [encoded]) hsp
    rw [hsame'.params]
    refine hinput ?_
    rw [hsame.params, hsame.freq]
    exact hcond
  refine ⟨exec_keeps_inv hinv hexec, hsame.trans hsame', ?low, ?decRemain, ?stored, ?sp⟩
  case low =>
    rw [h.low_enc htv hf hhalf hroom hexec]
    exact decide_eq_false hL.not_gt
  case decRemain =>
    rw [← h.decRemain, hu]
    simp [encoded, State.taken]
  case stored =>
    rw [hsp]
    rw [hstate] at hL ⊢
    refine .cons (h.stored.of_sameTable ((sameTable_taken t).trans hsame') fun j hj => ?_)
      ((hsame.trans hsame').freq _ ▸ hf) ?_ hL fun k hk => ?_
    · rw [hu]
      exact readStk_pushAll_of_outside (.inl hj)
    · rw [hsame'.params]
      exact hinv.encState_lt
    · rw [hu]
      exact readStk_pushAll_lowBytes hk t.encState t.taken
  case sp =>
    rw [hsp, List.length_cons, Nat.succ_mul]
    exact Nat.add_le_add h.sp_le hn

/-- It sets LOW when its state is below `K_LM * freq` (43_encoder.md R157, R158). -/
theorem Encoded.low_enc_of_lt (hcond : t.encState < s.params.kLM * freq s a.toNat) : u.low = true := by
  have hinv : t.taken.Inv := h.inv.withInput _
  have hsame : SameTable s t.taken := h.same.trans (sameTable_taken t)
  have hsame' : SameTable t.taken u := sameTable_of_exec rfl hexec
  obtain ⟨n, -, hu⟩ := h.exec_enc htv hf hhalf hroom hexec
  have hsp : u.sp = t.sp + n := by simp [hu, encoded, State.taken]
  obtain ⟨hiff, -⟩ := encStateAboveLExactlyWhen t.taken u a n hinv hexec (by rw [hu]; simp [encoded]) hsp
  rw [h.low_enc htv hf hhalf hroom hexec, decide_eq_true_eq, hsame'.params, ← not_le, hiff, not_le]
  refine (Nat.div_le_self ..).trans_lt (hcond.trans_eq ?_)
  rw [← hsame.params, ← hsame.freq]
  rfl

end

/-- ENCINIT leaves the seed and nothing encoded (43_encoder.md R151). -/
theorem encoded_of_encinit {s u : State} {b : Word} (hinv : s.Inv) (hb : b.toNat < s.params.half)
    (h : exec (.encinit b) s.taken = .next u) : Encoded s (s.params.half + b.toNat) [] u := by
  have hsame : SameTable s u := (sameTable_taken s).trans (sameTable_of_exec rfl h)
  have hinv' : u.Inv := exec_keeps_inv (hinv.withInput _) h
  obtain ⟨hbad, -⟩ | ⟨-, rfl⟩ := exec_encinit_cases h
  · exact absurd hb hbad.not_gt
  · exact ⟨hinv', hsame, rfl, rfl, .nil, Nat.zero_le _⟩

/-- The symbols are encoded, the last one first, when the seed is at least `K_LM * freq` of the last (44_decoder.md R190). -/
theorem Encoded.of_runs {s u t : State} {seed : Nat} (hu : Encoded s seed [] u) (htv : s.tv = true)
    (hhalf : s.params.half ≤ seed) {symbols : List Byte} (hf : ∀ x ∈ symbols, freq s x.toNat ≠ 0)
    (hroom : symbols.length * ((s.params.mBits + 7) / 8) ≤ s.params.stackDepth)
    (hcond : ∀ x ∈ symbols.getLast?, s.params.kLM * freq s x.toNat ≤ seed)
    (h : Runs (symbols.reverse.map .enc) u t) : Encoded s seed symbols t := by
  induction symbols generalizing t with
  | nil => exact (show t = u from h) ▸ hu
  | cons a rest ih =>
    rw [List.reverse_cons, List.map_append, runs_append] at h
    obtain ⟨v, hv, ht⟩ := h
    have hlast : ∀ x ∈ rest.getLast?, x ∈ (a :: rest).getLast? := fun x hx => by
      cases rest with
      | nil => simp at hx
      | cons b rest => rwa [List.getLast?_cons_cons]
    have hrest := ih (fun x hx => hf x (List.mem_cons_of_mem _ hx))
      ((Nat.mul_le_mul_right _ (Nat.le_succ _)).trans hroom) (fun x hx => hcond x (hlast x hx)) hv
    refine hrest.enc htv (hf a List.mem_cons_self) hhalf hroom (runs_singleton.1 ht) ?_
    obtain ⟨rfl, hseed, -⟩ | hL := hrest.stored.cases_top
    · rw [hseed]
      exact hcond a rfl
    · rw [hrest.same.params] at hL
      have hvalid : tableValid s = true := hu.same.tableValid ▸ hu.inv.tv_valid (hu.same.tv.trans htv)
      calc s.params.kLM * freq s a.toNat
        _ ≤ s.params.kLM * s.params.M := Nat.mul_le_mul_left _ (freq_le_M hvalid a.isLt)
        _ = s.params.L := s.params.kLM_mul_M
        _ ≤ v.encState := hL

/-! ### Decoding -/

/-- The decoder is about to decode the symbols: its refill gives the state and the height they are stored at. -/
structure Decoding (seed : Nat) (symbols : List Byte) (t : State) : Prop where
  inv : t.Inv
  tv : t.tv = true
  decRemain : t.decRemain = 0
  stored : Stored t seed symbols (refill t).decState (refill t).sp

/-- After ENCFLUSH and DECINIT with 0 the refill gives back the encoder's last state: it pops the flushed bytes onto 0
(43_encoder.md R160, 44_decoder.md R181). -/
theorem Encoded.decoding {s t v : State} {seed : Nat} {symbols : List Byte} (h : Encoded s seed symbols t) (htv : s.tv = true)
    (hrem : s.decRemain = 0)
    (hroom : symbols.length * ((s.params.mBits + 7) / 8) + (s.params.N + 7) / 8 ≤ s.params.stackDepth)
    (hrun : Runs [.encflush, .decinit 0#64] t v) : Decoding seed symbols v := by
  have hsame : SameTable t v := sameTable_of_runs (by decide) hrun
  have hinv : v.Inv := h.inv.of_runs hrun
  obtain ⟨u, hflush, hinit⟩ := hrun
  have hbytes : byteLen t.encState ≤ (t.params.N + 7) / 8 :=
    Nat.div_le_div_right (Nat.add_le_add_right ((bitLen_le_iff _ _).2 h.inv.encState_lt) 7)
  have hsp := h.sp_le
  rw [← h.same.params] at hroom hsp
  obtain ⟨hfull, -⟩ | ⟨-, hu⟩ := exec_encflush_cases hflush
  · exact absurd hfull (not_lt.2 ((Nat.add_le_add hsp hbytes).trans hroom))
  obtain ⟨hbad, -⟩ | ⟨-, hv⟩ := exec_decinit_cases (runs_singleton.1 hinit)
  · exact absurd (Nat.two_pow_pos _) hbad.not_gt
  have hvsp : v.sp = t.sp + byteLen t.encState := by simp [hv, hu, State.taken]
  have hstk : ∀ j, readStk v j = readStk (pushAll (lowBytes (byteLen t.encState) t.encState) t.taken) j := fun j => by
    rw [hv, hu]
    rfl
  have hzero : t.encState / 256 ^ byteLen t.encState = 0 := Nat.div_eq_of_lt (lt_pow_byteLen _)
  have hback := refillFrom_encoded (p := v.params) (byteAt := readStk v) (height := t.sp) (n := byteLen t.encState)
    (fun k hk => by rw [hstk]; exact readStk_pushAll_lowBytes hk t.encState t.taken)
    (hsame.params ▸ h.inv.encState_lt) (hsame.params ▸ h.stored.stopped)
  rw [hzero, ← hvsp, show 0 = v.decState by rw [hv]; rfl] at hback
  obtain ⟨hx, hheight⟩ := refill_of_refillFrom hback
  refine ⟨hinv, (h.same.trans hsame).tv.trans htv, ?_, ?_⟩
  · rw [← hrem, ← h.decRemain]
    simp [hv, hu, State.taken]
  · rw [hx, hheight]
    refine h.stored.of_sameTable hsame fun j hj => ?_
    rw [hstk]
    exact readStk_pushAll_of_outside (.inl hj)

/-- A DEC takes one symbol off (44_decoder.md R189). -/
theorem Decoding.dec {seed : Nat} {a : Byte} {rest : List Byte} {t u : State} (h : Decoding seed (a :: rest) t)
    (hexec : exec .dec t.taken = .next u) :
    Decoding seed rest u ∧ u.responses = t.responses ++ [⟨.ok, BitVec.ofNat 64 a.toNat⟩] := by
  have hstored := h.stored
  generalize hx : (refill t).decState = x at hstored
  generalize hheight : (refill t).sp = height at hstored
  cases hstored with
  | @cons _ _ x height n before hf hx' hL hbytes =>
    obtain ⟨hdec, hz⟩ := exec_dec_of_rescaled (s := t.taken) (sym := a.toNat) (x := x / 256 ^ n) h.tv (h.inv.tv_valid h.tv)
      a.isLt hf (hL.trans_eq hx.symm) hx
    obtain rfl := Host.Outcome.next.inj (hdec.symm.trans hexec)
    have hsame : SameTable t (respond .ok (zext64 a.toNat) (decoded a.toNat (refill t.taken))) := ⟨rfl, rfl, fun _ => rfl⟩
    have hsp : (respond .ok (zext64 a.toNat) (decoded a.toNat (refill t.taken))).sp = height + n := hheight
    have hback := refillFrom_encoded (p := t.params) (byteAt := readStk t) hbytes hx' before.stopped
    obtain ⟨hx'', hheight''⟩ := refill_of_refillFrom
      (s := respond .ok (zext64 a.toNat) (decoded a.toNat (refill t.taken))) (x := x) (height := height)
      (by rw [respond_decState, hz, hsp]; exact hback)
    refine ⟨⟨exec_keeps_inv (h.inv.withInput _) hexec, h.tv, ?_, ?_⟩, rfl⟩
    · show t.decRemain - 1 = 0
      rw [h.decRemain]
    · rw [hx'', hheight'']
      exact before.of_sameTable hsame fun _ _ => rfl

/-- When no symbol is left DEC ends the stream and reports the seed's distance from HALF (44_decoder.md R183). -/
theorem Decoding.ends {seed : Nat} {t u : State} (h : Decoding seed [] t) (hseed : seed < t.params.L)
    (hexec : exec .dec t.taken = .next u) :
    u.responses = t.responses ++ [⟨.endOfStream, sext64 ((seed : Int) - (t.params.half : Int))⟩] ∧
      u.bonus = sext64 ((seed : Int) - (t.params.half : Int)) := by
  have hx : (refill t.taken).decState = seed := h.stored.eq_seed
  have hrem : (refill t.taken).decRemain = 0 := h.decRemain
  have hbonus : bonusOf (refill t.taken) = sext64 ((seed : Int) - (t.params.half : Int)) := by rw [bonusOf, hx]; rfl
  have hend := exec_dec_of_ended (s := t.taken) h.tv (hx ▸ hseed)
  rw [hexec, Host.Outcome.next.injEq] at hend
  rw [hend, endStream_eq, if_pos hrem, hbonus]
  exact ⟨rfl, rfl⟩

/-- One DEC more than there are symbols answers the symbols and then END. -/
theorem Decoding.responses {p : Params} {seed : Nat} {symbols : List Byte} {t u : State} (h : Decoding seed symbols t)
    (hp : t.params = p) (hseed : seed < p.L) (hrun : Runs (List.replicate (symbols.length + 1) .dec) t u) :
    u.responses = t.responses ++ (symbols.map (fun x => Response.mk .ok (BitVec.ofNat 64 x.toNat)) ++
        [⟨.endOfStream, sext64 ((seed : Int) - (p.half : Int))⟩]) ∧
      u.bonus = sext64 ((seed : Int) - (p.half : Int)) := by
  induction symbols generalizing t with
  | nil =>
    subst hp
    exact h.ends hseed (runs_singleton.1 hrun)
  | cons a rest ih =>
    obtain ⟨v, hv, hu⟩ := hrun
    obtain ⟨hrest, hresp⟩ := h.dec hv
    obtain ⟨hparams, -⟩ := onlyTheListedCommandsWrite _ _ _ hv
    obtain ⟨hu, hbonus⟩ := ih hrest (hparams.trans hp) hu
    exact ⟨by rw [hu, hresp]; simp, hbonus⟩

/-! ### What the decoder's answers say of the bonus -/

theorem le_refillFrom (floor : Nat) (byteAt : Nat → Byte) (height x : Nat) : x ≤ (refillFrom floor byteAt height x).1 := by
  induction height generalizing x with
  | zero => exact le_rfl
  | succ n ih =>
    rw [refillFrom]
    split
    · exact le_trans (by omega) (ih _)
    · exact le_rfl

/-- A state of L or more decodes to at least `K_LM * freq` (44_decoder.md R185). -/
theorem kLM_mul_freq_le_decoded {s : State} {sym : Nat} (hL : s.params.L ≤ s.decState) (hlow : readCum s sym ≤ slotOf s) :
    s.params.kLM * freq s sym ≤ (decoded sym s).decState :=
  calc s.params.kLM * freq s sym
    _ ≤ s.decState / s.params.M * freq s sym :=
      Nat.mul_le_mul_right _ ((Nat.le_div_iff_mul_le s.params.M_pos).2 (s.params.kLM_mul_M ▸ hL))
    _ ≤ s.decState / s.params.M * freq s sym + slotOf s - readCum s sym := by omega

/-- The bonus as a word is the distance of the state from HALF (44_decoder.md R183). -/
theorem sext64_sub_half_eq_iff {p : Params} {x : Nat} {b : Word} (hx : x < p.L) (hb : b.toNat < p.half) :
    sext64 ((x : Int) - (p.half : Int)) = b ↔ x = p.half + b.toNat := by
  have hL : p.L ≤ 2 ^ 63 := p.L_lt_BL.le.trans p.BL_le
  have hhalf := p.half_lt_L
  rw [← BitVec.toNat_inj, BitVec.toNat_ofInt]
  have hb64 := b.isLt
  generalize p.half = half at *
  omega

/-- A DEC that answers a symbol leaves at least `K_LM * freq` of it, and one that then answers END with bonus `b` has refilled
that to `HALF + b`. -/
theorem kLM_mul_freq_le_of_answers {v w t : State} {a : Byte} {b : Word} (hb : b.toNat < v.params.half)
    (hsym : exec .dec v.taken = .next w) (hw : w.responses = v.responses ++ [⟨.ok, BitVec.ofNat 64 a.toNat⟩])
    (hend : exec .dec w.taken = .next t) (ht : t.responses = w.responses ++ [⟨.endOfStream, b⟩]) :
    v.params.kLM * freq v a.toNat ≤ v.params.half + b.toNat := by
  obtain ⟨-, rfl⟩ | ⟨-, -, rfl⟩ | ⟨-, hL, sym, hlt, hlow, -, rfl⟩ := exec_dec_cases hsym
  · simp [State.taken] at hw
  · obtain ⟨st, hst, hor⟩ := endStream_responses (refill v.taken)
    obtain ⟨rfl, -⟩ := response_inj (hst.symm.trans hw)
    simp at hor
  obtain ⟨-, hword⟩ := response_inj (l := v.responses) hw
  have hsa : sym = a.toNat := by
    have := congrArg BitVec.toNat hword
    have := a.isLt
    simp only [BitVec.toNat_ofNat] at *
    omega
  subst hsa
  obtain ⟨-, rfl⟩ | ⟨-, hltL, rfl⟩ | ⟨-, -, sym, -, -, -, rfl⟩ := exec_dec_cases hend
  · obtain ⟨hne, -⟩ := response_inj ht
    cases hne
  · obtain ⟨st, hst, -⟩ := endStream_responses (refill (yieldSymbol a.toNat (refill v.taken)).taken)
    obtain ⟨-, hbonus⟩ := response_inj (hst.symm.trans ht)
    calc v.params.kLM * freq v a.toNat
      _ ≤ (decoded a.toNat (refill v.taken)).decState := kLM_mul_freq_le_decoded (s := refill v.taken) hL hlow
      _ ≤ (refill (yieldSymbol a.toNat (refill v.taken)).taken).decState := le_refillFrom ..
      _ = v.params.half + b.toNat := (sext64_sub_half_eq_iff (p := v.params) hltL hb).1 hbonus
  · obtain ⟨hne, -⟩ := response_inj ht
    cases hne

/-- So do the answers of a whole decoding run. -/
theorem kLM_mul_freq_le_of_responses {v t : State} {front : List Byte} {last : Byte} {b : Word} (hb : b.toNat < v.params.half)
    (hrun : Runs (List.replicate ((front ++ [last]).length + 1) .dec) v t)
    (hresp : t.responses = v.responses ++ ((front ++ [last]).map (fun x => Response.mk .ok (BitVec.ofNat 64 x.toNat)) ++
      [⟨.endOfStream, b⟩])) : v.params.kLM * freq v last.toNat ≤ v.params.half + b.toNat := by
  rw [List.length_append, Nat.add_assoc, List.replicate_add, runs_append] at hrun
  obtain ⟨v', hv', w, hw, ht⟩ := hrun
  have ht := runs_singleton.1 ht
  have hsame : SameTable v v' := sameTable_of_runs (fun i hi => by rw [List.eq_of_mem_replicate hi]; rfl) hv'
  obtain ⟨xs, -, hxs⟩ := exists_responses_of_runs hv'
  obtain ⟨x, hx⟩ := exists_response_of_exec hw
  obtain ⟨y, hy⟩ := exists_response_of_exec ht
  have hx : w.responses = v'.responses ++ [x] := hx
  have hy : t.responses = w.responses ++ [y] := hy
  rw [hy, hx, hxs, List.map_append, List.append_assoc, List.append_assoc, List.append_cancel_left_eq, ← List.append_assoc] at hresp
  obtain ⟨hfront, hlast⟩ := List.append_inj' hresp rfl
  obtain ⟨-, hsym⟩ := List.append_inj' hfront rfl
  rw [List.singleton_inj.1 hsym] at hx
  rw [List.singleton_inj.1 hlast] at hy
  rw [← hsame.params, ← hsame.freq]
  exact kLM_mul_freq_le_of_answers (hsame.params ▸ hb) hw hx ht hy

/-! ### The law -/

/-- When the seed is below `K_LM * freq` of the last symbol, its ENC sets LOW, and no later command of the run clears it. -/
theorem Encoded.low_of_runs {s u t : State} {seed : Nat} {front : List Byte} {last : Byte} {more : List Instr}
    (h : Encoded s seed [] u) (htv : s.tv = true) (hf : freq s last.toNat ≠ 0) (hhalf : s.params.half ≤ seed)
    (hroom : (s.params.mBits + 7) / 8 ≤ s.params.stackDepth) (hcond : seed < s.params.kLM * freq s last.toNat)
    (hmore : ∀ i ∈ more, isCoder i = true ∧ ∀ d, i ≠ .encinit d)
    (hrun : Runs ((front ++ [last]).reverse.map .enc ++ more) u t) : t.low = true := by
  rw [List.reverse_append, List.reverse_singleton, List.singleton_append, List.map_cons, List.cons_append] at hrun
  obtain ⟨v, hv, ht⟩ := hrun
  have hset : v.low = true :=
    h.low_enc_of_lt htv hf hhalf (by simpa using hroom) hv (h.stored.eq_seed ▸ hcond)
  refine keeps_of_runs (P := fun x => x.low = true) (fun i hi x y hx hxy => ?_) hset ht
  have hi : isCoder i = true ∧ ∀ d, i ≠ .encinit d := by
    obtain hi | hi := List.mem_append.1 hi
    · obtain ⟨a, -, rfl⟩ := List.mem_map.1 hi
      exact ⟨rfl, nofun⟩
    · exact hmore i hi
  exact low_of_exec (s := x.taken) hi.1 hi.2 hx hxy

/-- The commands after the last ENC leave LOW. -/
theorem isCoder_of_mem_tail {i : Instr} {n : Nat} (h : i ∈ [.encflush, .decinit 0#64] ++ List.replicate n .dec) :
    isCoder i = true ∧ (∀ d, i ≠ .encinit d) ∧ ∀ a, i ≠ .enc a := by
  simp only [List.cons_append, List.nil_append, List.mem_cons, List.mem_replicate] at h
  obtain rfl | rfl | ⟨-, rfl⟩ := h <;> exact ⟨rfl, nofun, nofun⟩

/-- Settles O54: with a bonus large enough the symbols are stored and taken off again and LOW stays 0; otherwise the first ENC sets
LOW, and the expected answers would show that the bonus is large enough. -/
theorem roundTripExactlyWhen : Obligations.RoundTripExactlyWhen := by
  intro s b symbols hinv htv hrem hb hf hroom commands hin condition
  obtain ⟨t, hrun⟩ := hinv.exists_runs commands
  obtain ⟨v, hencode, hdecode⟩ := runs_append.1 hrun
  obtain ⟨w, ⟨u, hseed, hsyms⟩, hflush⟩ := runs_append.1 hencode
  have hu := encoded_of_encinit hinv hb hseed
  have hhalf : s.params.half ≤ s.params.half + b.toNat := Nat.le_add_right ..
  have htail := runs_append.2 ⟨v, hflush, hdecode⟩
  have hsame : SameTable s v := by
    refine sameTable_of_runs (fun i hi => ?_) hencode
    obtain hi | hi := List.mem_append.1 hi
    · obtain rfl | hi := List.mem_cons.1 hi
      · rfl
      · obtain ⟨a, -, rfl⟩ := List.mem_map.1 hi
        rfl
    · exact (isCoder_of_mem_tail (n := 0) (List.mem_append_left _ hi)).1
  have hlen : v.responses.length = s.responses.length + symbols.length + 3 := by
    obtain ⟨xs, hxs, hv⟩ := exists_responses_of_runs hencode
    rw [hv, List.length_append, hxs]
    simp
    omega
  have hforward (hc : condition) : t.responses = v.responses ++
      (symbols.map (fun x => Response.mk .ok (BitVec.ofNat 64 x.toNat)) ++ [⟨.endOfStream, b⟩]) ∧
      t.bonus = b ∧ t.low = false := by
    have hL : s.params.half + b.toNat < s.params.L := by
      rw [← s.params.two_mul_half, two_mul]
      exact Nat.add_lt_add_left hb _
    have henc := hu.of_runs htv hhalf hf ((Nat.le_add_right ..).trans hroom) hc hsyms
    obtain ⟨hresp, hbonus⟩ := (henc.decoding htv hrem hroom hflush).responses hsame.params hL hdecode
    rw [(sext64_sub_half_eq_iff hL hb).2 rfl] at hresp hbonus
    refine ⟨hresp, hbonus, keeps_of_runs (P := fun x => x.low = false) (fun i hi x y hx hxy => ?_) henc.low htail⟩
    obtain ⟨hcoder, hinit, henc⟩ := isCoder_of_mem_tail hi
    exact (low_eq_of_exec (s := x.taken) hcoder hinit henc hxy).trans hx
  refine ⟨t, run_of_runs hin hrun, ⟨fun hresp x hx => ?answers, fun hc => ?roundTrip⟩,
    ⟨fun hlow x hx => ?low, fun hc => (hforward hc).2.2⟩, fun hc => (hforward hc).2.1⟩
  case answers =>
    obtain ⟨ds, -, hds⟩ := exists_responses_of_runs hdecode
    rw [hds, ← hlen, List.drop_left] at hresp
    obtain ⟨front, rfl⟩ := List.getLast?_eq_some_iff.1 hx
    rw [← hsame.params, ← hsame.freq]
    exact kLM_mul_freq_le_of_responses (hsame.params ▸ hb) hdecode (hds.trans (congrArg _ hresp))
  case roundTrip => rw [(hforward hc).1, ← hlen, List.drop_left]
  case low =>
    by_contra hc
    obtain ⟨front, rfl⟩ := List.getLast?_eq_some_iff.1 hx
    have hroom : (s.params.mBits + 7) / 8 ≤ s.params.stackDepth :=
      (Nat.le_mul_of_pos_left _ (by simp)).trans ((Nat.le_add_right ..).trans hroom)
    have hset := hu.low_of_runs htv (hf x (by simp)) hhalf hroom (not_le.1 hc)
      (fun i hi => (isCoder_of_mem_tail hi).imp_right And.left) (runs_append.2 ⟨w, hsyms, htail⟩)
    simp [hlow] at hset

end Sys2Proof.Machine
